-- ==== Sys2Proof/Word.lean ====
section
/-! DEFINITION. The word types of the core: bytes, 32-bit host words, 64-bit state words, byte strings
(00_scope.md R6, R8; 10_state.md R13). Every value is unsigned (R6). -/

namespace Sys2Proof

/-- An 8-bit value (R8). -/
abbrev Byte := BitVec 8

/-- A 32-bit register or host-port word (10_state.md section 5, 20_memory.md R40). -/
abbrev Word := BitVec 32

/-- A 64-bit word of the permutation state (10_state.md R13). -/
abbrev Lane := BitVec 64

/-- A byte string, byte 0 first (R8). -/
abbrev Bytes := List Byte

/-- `zeros(n)`: n bytes of value 0x00 (R8). -/
def zeros (n : Nat) : Bytes := List.replicate n 0

end Sys2Proof
end

