-- ==== Sys2Proof/Config.lean ====
section
/-! DEFINITION. What an implementation of ASCON-CORE fixes (DMEM_BYTES, 00_scope.md R5), the names of the
variants and commands (R3, 30_encoding.md R64), the shape of a variant record (R61), and the values the spec
leaves open (93_implementation_defined.md U2, U3), as constants without a body. -/

namespace Sys2Proof

/-- The legal sizes of the data memory: the powers of two from 256 to 32768 (R5, D3). -/
inductive DmemSize where
  | b256 | b512 | b1024 | b2048 | b4096 | b8192 | b16384 | b32768
deriving DecidableEq, Repr

/-- log2(DMEM_BYTES), from 8 to 15 (10_state.md R23). -/
def DmemSize.log2 : DmemSize → Nat
  | .b256 => 8
  | .b512 => 9
  | .b1024 => 10
  | .b2048 => 11
  | .b4096 => 12
  | .b8192 => 13
  | .b16384 => 14
  | .b32768 => 15

/-- DMEM_BYTES (R5). -/
def DmemSize.bytes (d : DmemSize) : Nat := 2 ^ d.log2

/-- The default build: DMEM_BYTES = 4096 (R5, D3). -/
def Config.defaultDmemSize : DmemSize := .b4096

/-- The sponge variants, VAR 0 to 4 (30_encoding.md R61). -/
inductive SpongeVariant where
  | hash | hasha | xof | xofa | cxof
deriving DecidableEq, Repr

/-- The duplex variants, VAR 5 to 7 (30_encoding.md R61). -/
inductive DuplexVariant where
  | aead128 | aead128a | aead80pq
deriving DecidableEq, Repr

/-- A decoded command (kind, variant): what CUR holds (10_state.md R33). One value per row of 30_encoding.md R64. -/
inductive Command where
  | digest (v : SpongeVariant)
  | enc (v : DuplexVariant)
  | dec (v : DuplexVariant)
  | wipe
deriving DecidableEq, Repr

/-- The byte-order profile of a variant (00_scope.md R9, 30_encoding.md R61). -/
inductive Profile where
  | be | le
deriving DecidableEq, Repr

/-- One variant record (30_encoding.md R61): profile, rate in bytes, round counts a and b, key bytes
(0 for a sponge variant), and the IV with its width in bytes (8, or 4 for AEAD-80pq). -/
structure VariantConfig where
  profile : Profile
  rate : Nat
  a : Nat
  b : Nat
  keyLen : Nat
  ivLen : Nat
  iv : Nat
deriving DecidableEq, Repr

/-- All that the duration of an accepted command may depend on (70_reset_and_hazards.md R158): its kind and
variant and the lengths it uses (0 where it uses none); DMEM_BYTES for WIPE. -/
structure DurationKey where
  command : Command
  aLen : Nat
  mLen : Nat
  outLen : Nat
  dmemBytes : Nat
deriving DecidableEq, Repr

/-- CMD_DURATION, the open parameter of R158 and U3. It has no body: no claim can rest on a duration. No rule
of the machine reads it (R158). Log 12. -/
opaque Config.cmdDuration : DurationKey → Nat

/-- The free value behind a read of STATUS.PHASE while BUSY = 1 (10_state.md R34, U2): the n-th draw.
It has no body: nothing constrains it. Log 5. -/
opaque Config.freePhase : Nat → Nat

end Sys2Proof
end

