-- ==== Sys2Proof/Syntax.lean ====
section
/-! DEFINITION. The instructions: the twelve commands of spec/opcode_table.json (30_encoding.md R64). -/

namespace Sys2Proof

/-- One constructor per row of the opcode table. ENC and DEC carry the lengths the host declares, in bytes
(KLEN, NLEN, TLEN of 30_encoding.md R58 and R59); every other operand is implicit (R60). -/
inductive Instr where
  | hash
  | hasha
  | xof
  | xofa
  | cxof
  | enc128 (klen nlen tlen : Nat)
  | enc128a (klen nlen tlen : Nat)
  | enc80pq (klen nlen tlen : Nat)
  | dec128 (klen nlen tlen : Nat)
  | dec128a (klen nlen tlen : Nat)
  | dec80pq (klen nlen tlen : Nat)
  | wipe
deriving DecidableEq, Repr

end Sys2Proof
end

