-- ==== Sys2Proof/WellFormed.lean ====
section
/-! DEFINITION. Well-formed instructions: each declared length fits the 5 bits its field has
(30_encoding.md R58). -/

namespace Sys2Proof

/-- KLEN, NLEN and TLEN are 5-bit fields (R58). -/
def lengthsFit (klen nlen tlen : Nat) : Bool :=
  decide (klen < 32) && decide (nlen < 32) && decide (tlen < 32)

/-- An instruction that some command word stands for (R58, R64). -/
def Instr.wellFormed : Instr → Bool
  | .hash => true
  | .hasha => true
  | .xof => true
  | .xofa => true
  | .cxof => true
  | .enc128 k n t => lengthsFit k n t
  | .enc128a k n t => lengthsFit k n t
  | .enc80pq k n t => lengthsFit k n t
  | .dec128 k n t => lengthsFit k n t
  | .dec128a k n t => lengthsFit k n t
  | .dec80pq k n t => lengthsFit k n t
  | .wipe => true

end Sys2Proof
end

