-- ==== Sys2Proof/Decode.lean ====
section
/-! DEFINITION. The command word (30_encoding.md): the decoder, total on every 32-bit word and rejecting by name,
and after it the encoder. Every word the decoder rejects is an illegal command word (R65). -/

namespace Sys2Proof

/-- Why a word matches no row of R64; each reason is one of R65's. All of them are answered by the same
rejection, ERR = ILLEGAL_CMD (60_exceptions.md R127). -/
inductive DecodeError where
  /-- bit 7, 15:13, 23:21 or 31:29 is set -/
  | reservedBit
  /-- OP = 0x0 or OP = 0x5 to 0xF -/
  | unknownOp
  /-- DIGEST with VAR 5 to 7, ENCRYPT or DECRYPT with VAR 0 to 4, WIPE with VAR not 0 -/
  | wrongVariant
  /-- DIGEST or WIPE with KLEN, NLEN or TLEN nonzero -/
  | nonzeroLength
deriving DecidableEq, Repr

/-- `w[lo+width-1 : lo]` as an unsigned number (00_scope.md R6). -/
def field (w : Word) (lo width : Nat) : Nat := w.toNat / 2 ^ lo % 2 ^ width

def opField (w : Word) : Nat := field w 0 4
def varField (w : Word) : Nat := field w 4 3
def klenField (w : Word) : Nat := field w 8 5
def nlenField (w : Word) : Nat := field w 16 5
def tlenField (w : Word) : Nat := field w 24 5

/-- RSV != 0 (R60): some reserved bit is 1. -/
def reservedSet (w : Word) : Bool :=
  !(field w 7 1 == 0 && field w 13 3 == 0 && field w 21 3 == 0 && field w 29 3 == 0)

/-- A row of R64 whose KLEN, NLEN and TLEN must all be 0. -/
def fixedRow (i : Instr) (w : Word) : Except DecodeError Instr :=
  if klenField w = 0 ∧ nlenField w = 0 ∧ tlenField w = 0 then .ok i else .error .nonzeroLength

/-- A row of R64 whose KLEN, NLEN and TLEN are free. -/
def freeRow (mk : Nat → Nat → Nat → Instr) (w : Word) : Except DecodeError Instr :=
  .ok (mk (klenField w) (nlenField w) (tlenField w))

/-- DIGEST, OP = 0x1 (R64). -/
def decodeDigest (w : Word) : Except DecodeError Instr :=
  match varField w with
  | 0 => fixedRow .hash w
  | 1 => fixedRow .hasha w
  | 2 => fixedRow .xof w
  | 3 => fixedRow .xofa w
  | 4 => fixedRow .cxof w
  | _ => .error .wrongVariant

/-- ENCRYPT, OP = 0x2 (R64). -/
def decodeEncrypt (w : Word) : Except DecodeError Instr :=
  match varField w with
  | 5 => freeRow .enc128 w
  | 6 => freeRow .enc128a w
  | 7 => freeRow .enc80pq w
  | _ => .error .wrongVariant

/-- DECRYPT, OP = 0x3 (R64). -/
def decodeDecrypt (w : Word) : Except DecodeError Instr :=
  match varField w with
  | 5 => freeRow .dec128 w
  | 6 => freeRow .dec128a w
  | 7 => freeRow .dec80pq w
  | _ => .error .wrongVariant

/-- WIPE, OP = 0x4 (R64). -/
def decodeWipe (w : Word) : Except DecodeError Instr :=
  match varField w with
  | 0 => fixedRow .wipe w
  | _ => .error .wrongVariant

/-- The command a word names, or why it names none (R64, R65). -/
def decode (w : Word) : Except DecodeError Instr :=
  if reservedSet w then .error .reservedBit
  else
    match opField w with
    | 1 => decodeDigest w
    | 2 => decodeEncrypt w
    | 3 => decodeDecrypt w
    | 4 => decodeWipe w
    | _ => .error .unknownOp

/-- The word of R58 with the given fields and every reserved bit 0. Only the low bits that a field has of a
declared length enter the word. -/
def packWord (op var klen nlen tlen : Nat) : Word :=
  BitVec.ofNat 32
    (op % 2 ^ 4 + var % 2 ^ 3 * 2 ^ 4 + klen % 2 ^ 5 * 2 ^ 8 + nlen % 2 ^ 5 * 2 ^ 16 + tlen % 2 ^ 5 * 2 ^ 24)

/-- The command word of an instruction (R58, R64). -/
def encode : Instr → Word
  | .hash => packWord 1 0 0 0 0
  | .hasha => packWord 1 1 0 0 0
  | .xof => packWord 1 2 0 0 0
  | .xofa => packWord 1 3 0 0 0
  | .cxof => packWord 1 4 0 0 0
  | .enc128 k n t => packWord 2 5 k n t
  | .enc128a k n t => packWord 2 6 k n t
  | .enc80pq k n t => packWord 2 7 k n t
  | .dec128 k n t => packWord 3 5 k n t
  | .dec128a k n t => packWord 3 6 k n t
  | .dec80pq k n t => packWord 3 7 k n t
  | .wipe => packWord 4 0 0 0 0

/-- The `match` column of R64's opcode map. -/
def Command.rowMatch : Command → Word
  | .digest .hash => 0x00000001
  | .digest .hasha => 0x00000011
  | .digest .xof => 0x00000021
  | .digest .xofa => 0x00000031
  | .digest .cxof => 0x00000041
  | .enc .aead128 => 0x00000052
  | .enc .aead128a => 0x00000062
  | .enc .aead80pq => 0x00000072
  | .dec .aead128 => 0x00000053
  | .dec .aead128a => 0x00000063
  | .dec .aead80pq => 0x00000073
  | .wipe => 0x00000004

/-- The `mask` column of R64's opcode map. -/
def Command.rowMask : Command → Word
  | .digest _ => 0xFFFFFFFF
  | .enc _ => 0xE0E0E0FF
  | .dec _ => 0xE0E0E0FF
  | .wipe => 0xFFFFFFFF

/-- A word matches a row of R64 when `(w & mask) = match`. -/
def matchesRow (w : Word) (c : Command) : Bool := w &&& c.rowMask == c.rowMatch

/-- The row of R64 an instruction stands for. -/
def Instr.command : Instr → Command
  | .hash => .digest .hash
  | .hasha => .digest .hasha
  | .xof => .digest .xof
  | .xofa => .digest .xofa
  | .cxof => .digest .cxof
  | .enc128 _ _ _ => .enc .aead128
  | .enc128a _ _ _ => .enc .aead128a
  | .enc80pq _ _ _ => .enc .aead80pq
  | .dec128 _ _ _ => .dec .aead128
  | .dec128a _ _ _ => .dec .aead128a
  | .dec80pq _ _ _ => .dec .aead80pq
  | .wipe => .wipe

/-- The word of the first `nbits` bits of `w`, bit 0 the least significant bit, every higher bit 0. A command
is exactly one 32-bit word (R66), the data of one host write, so its bits are numbered as the table numbers them. -/
def tableWord (nbits w : Nat) : Word := BitVec.ofNat 32 (w % 2 ^ nbits)

/-- The instruction the decoder reads from a table word; none where it refuses. -/
def decodeTableWord (nbits w : Nat) : Option Instr :=
  match decode (tableWord nbits w) with
  | .ok i => some i
  | .error _ => none

end Sys2Proof
end

