-- ==== Sys2Proof/Machine/State.lean ====
section
/-! DEFINITION. The state of the core (10_state.md), as plain data, and its value after power-on and reset (R36).
Fields that are the model's own (rdata, freeCount, events) are marked; logs 3, 5, 6. -/

namespace Sys2Proof.Machine

/-- The permutation state x: five 64-bit words (R13). -/
structure PState where
  x0 : Lane
  x1 : Lane
  x2 : Lane
  x3 : Lane
  x4 : Lane
deriving DecidableEq, Repr

/-- KEY0..KEY4 (R28). -/
structure KeyRegs where
  k0 : Word
  k1 : Word
  k2 : Word
  k3 : Word
  k4 : Word
deriving DecidableEq, Repr

/-- A group of four 32-bit registers: NONCE0..3, TAG_IN0..3, TAG_OUT0..3 (R29 to R31). -/
structure QuadRegs where
  w0 : Word
  w1 : Word
  w2 : Word
  w3 : Word
deriving DecidableEq, Repr

/-- x[0..4] = 0. -/
def PState.zero : PState := ⟨0, 0, 0, 0, 0⟩

/-- KEY0..KEY4 = 0. -/
def KeyRegs.zero : KeyRegs := ⟨0, 0, 0, 0, 0⟩

/-- Four registers, each 0. -/
def QuadRegs.zero : QuadRegs := ⟨0, 0, 0, 0⟩

/-- The sequencer's phases (R34). Code 0xF is reserved and never read: it has no constructor (U5). -/
inductive Phase where
  | idle | spInit | spAbsorb | spSqueeze | spDone
  | dxInit | dxAd | dxText | dxFinal | dxTagged | dxVerified | dxFailed
  | wiping | wiped | rejected
deriving DecidableEq, Repr

/-- The error codes of STATUS.ERR (60_exceptions.md R125). Codes 7 to 15 are never produced: they have no
constructor (U5). -/
inductive ErrCode where
  | noError | illegalCmd | keyLen | nonceLen | tagLen | range | overlap
deriving DecidableEq, Repr

/-- DEC makes two passes (42_duplex.md R109); every other command makes one. -/
inductive Pass where
  | first | second
deriving DecidableEq, Repr

/-- One position of the sequencer (R33: phase, pass, block counter) and the work done there. Log 7. -/
inductive SeqOp where
  /-- SP_INIT (41_sponge.md R82) -/
  | spInit
  /-- SP_ABSORB: CXOF's length block (R84) -/
  | spAbsorbLength
  /-- SP_ABSORB: block j of the padded customization string (R84) -/
  | spAbsorbCustom (j : Nat)
  /-- SP_ABSORB: block j of the padded message (R85) -/
  | spAbsorbMessage (j : Nat)
  /-- SP_SQUEEZE: the j-th read of the rate (R86) -/
  | spSqueeze (j : Nat)
  /-- DX_INIT (42_duplex.md R96) -/
  | dxInit (p : Pass)
  /-- DX_AD: block j of the padded associated data (R97) -/
  | dxAd (p : Pass) (j : Nat)
  /-- the domain-separation bit (R98) -/
  | dxSeparate (p : Pass)
  /-- DX_TEXT: block j of the text (R99, R100) -/
  | dxText (p : Pass) (j : Nat)
  /-- DX_FINAL: the tag, and DEC's comparison (R101, R102) -/
  | dxFinal
  /-- WIPING (43_control.md R122) -/
  | wipeAll
deriving DecidableEq, Repr

/-- The kind of a host access (20_memory.md R40). -/
inductive AccessKind where
  | read | write
deriving DecidableEq, Repr

/-- A host access `(kind, offset, wdata, strb)` (20_memory.md R40). -/
structure Access where
  kind : AccessKind
  offset : BitVec 16
  wdata : Word
  strb : BitVec 4
deriving DecidableEq, Repr

/-- How far the core gets between one host access and the next event (43_control.md R121). Log 4. -/
inductive Gap where
  /-- at most n steps of the sequencer (0: the core does not advance) -/
  | steps (n : Nat)
  /-- a running command completes -/
  | completes
deriving DecidableEq, Repr

/-- What the world outside does to the core (R40, 70_reset_and_hazards.md R147, R148), one atomic step each; each read of a
poll is a step. Log 3. -/
inductive Event where
  /-- a host access, and the core's progress after it -/
  | access (a : Access) (gap : Gap)
  /-- the host's `poll`: reads of STATUS until one shows DONE = 1 (30_encoding.md R69), and the core's progress after each read
  that shows DONE = 0, a running command completing once `gaps` is used up (log 18) -/
  | poll (gaps : List Gap)
  /-- the reset input is asserted when `landed` bytes of the DMEM write in progress have been made (R149, log 8) -/
  | reset (landed : Nat)
  /-- power is applied (R148) -/
  | powerOn
deriving DecidableEq, Repr

/-- The host-visible registers, by name (10_state.md section 5). -/
inductive Reg where
  | id | param | ctrl | status | cmd
  | aAddr | aLen | mAddr | mLen | dAddr | outLen
  | key (i : Fin 5)
  | nonce (i : Fin 4)
  | tagIn (i : Fin 4)
  | tagOut (i : Fin 4)
deriving DecidableEq, Repr

/-- Bytes by address, addresses strictly rising. An address that is not listed holds no value: it is unwritten
(20_memory.md R39). Log 2. -/
abbrev Memory := List Host.Cell

/-- The core, with the host port's last answer and what the outside does next. -/
structure State where
  /-- DMEM_BYTES (R5, R23): a constant of the machine, written by nothing. Log 1. -/
  dmemSize : DmemSize
  /-- the permutation state (R13) -/
  x : PState
  /-- CTRL.IRQ_EN (R24) -/
  irqEn : Bool
  /-- STATUS.BUSY (R25) -/
  busy : Bool
  /-- STATUS.DONE (R25) -/
  done : Bool
  /-- STATUS.AUTH_OK (R25) -/
  authOk : Bool
  /-- STATUS.BUSY_ERR (R25) -/
  busyErr : Bool
  /-- STATUS.ERR (R25, R125) -/
  err : ErrCode
  /-- STATUS.PHASE (R34) -/
  phase : Phase
  /-- CMD_LAST (R26) -/
  cmdLast : Word
  /-- A_ADDR (R27) -/
  aAddr : Word
  /-- A_LEN (R27) -/
  aLen : Word
  /-- M_ADDR (R27) -/
  mAddr : Word
  /-- M_LEN (R27) -/
  mLen : Word
  /-- D_ADDR (R27) -/
  dAddr : Word
  /-- OUT_LEN (R27) -/
  outLen : Word
  /-- KEY0..KEY4 (R28) -/
  key : KeyRegs
  /-- NONCE0..NONCE3 (R29) -/
  nonce : QuadRegs
  /-- TAG_IN0..TAG_IN3 (R30) -/
  tagIn : QuadRegs
  /-- TAG_OUT0..TAG_OUT3 (R31) -/
  tagOut : QuadRegs
  /-- CUR: the accepted command, while BUSY = 1 (R33) -/
  cur : Option Command
  /-- SEQ: the positions still to be done, the head is the current one (R33). Log 7. -/
  seq : List SeqOp
  /-- T_CALC, 16 bytes (R33) -/
  tCalc : Option Bytes
  /-- OK: the result of DEC's tag comparison (R33, R102) -/
  ok : Option Bool
  /-- DMEM (20_memory.md R37, R39) -/
  dmem : Memory
  /-- the model's own: the value the last host read returned (20_memory.md R40). Log 6. -/
  rdata : Word
  /-- the model's own: how many free values have been drawn. Log 5. -/
  freeCount : Nat
  /-- the model's own: what the outside does next, first to come first. Log 3. -/
  events : List Event
deriving DecidableEq, Repr

/-- Why the model stops. The hardware does not stop: both are the model faults of 20_memory.md R39. -/
inductive Fault where
  /-- Raised by a host read of a DMEM-window word that holds an unwritten byte, at the given DMEM address (R39).
  Safe: the chip returns some value, and nothing can be proved of it. -/
  | hostReadUnwritten (addr : Nat)
  /-- Raised by a command read of an unwritten byte, at the given DMEM address (R39, R135). Safe, as above. -/
  | commandReadUnwritten (addr : Nat)
deriving DecidableEq, Repr

/-- Why the model gives a step no meaning. -/
inductive Refusal where
  /-- Raised by an arm of exec that has no meaning yet, with the instruction's mnemonic. Safe. No arm raises it:
  every command has its meaning. -/
  | notModelled (mnemonic : String)
deriving DecidableEq, Repr

/-- The core right after power-on and reset (10_state.md R36, 70_reset_and_hazards.md R147, R148), in the default
build (R5, log 1): every DMEM byte unwritten, no command running, nothing done by the outside yet (log 3, log 10). -/
def State.reset : State where
  dmemSize := Config.defaultDmemSize
  x := PState.zero
  irqEn := false
  busy := false
  done := false
  authOk := false
  busyErr := false
  err := .noError
  phase := .idle
  cmdLast := 0
  aAddr := 0
  aLen := 0
  mAddr := 0
  mLen := 0
  dAddr := 0
  outLen := 0
  key := KeyRegs.zero
  nonce := QuadRegs.zero
  tagIn := QuadRegs.zero
  tagOut := QuadRegs.zero
  cur := none
  seq := []
  tCalc := none
  ok := none
  dmem := []
  rdata := 0
  freeCount := 0
  events := []

end Sys2Proof.Machine
end

