-- ==== Sys2Proof/Machine/Bytes.lean ====
section
/-! DEFINITION. Byte strings, words and the bytes of the permutation state (00_scope.md R8 to R10; lanes of the
host port, 10_state.md R20 and 20_memory.md R45). -/

namespace Sys2Proof.Machine

/-- Bits 8j+7:8j of a 64-bit word. -/
def byteOf (w : Lane) (j : Nat) : Byte := w.extractLsb' (8 * j) 8

/-- `load64_BE`: byte 0 is most significant (R9). -/
def load64BE (B : Bytes) : Lane := BitVec.ofNat 64 (B.foldl (fun n b => 256 * n + b.toNat) 0)

/-- `load64_LE`: byte 0 is least significant (R9). -/
def load64LE (B : Bytes) : Lane := BitVec.ofNat 64 (B.foldr (fun b n => b.toNat + 256 * n) 0)

/-- `store64_BE` (R9). -/
def store64BE (w : Lane) : Bytes :=
  [byteOf w 7, byteOf w 6, byteOf w 5, byteOf w 4, byteOf w 3, byteOf w 2, byteOf w 1, byteOf w 0]

/-- `store64_LE` (R9). -/
def store64LE (w : Lane) : Bytes :=
  [byteOf w 0, byteOf w 1, byteOf w 2, byteOf w 3, byteOf w 4, byteOf w 5, byteOf w 6, byteOf w 7]

/-- `load64_P` (R9). -/
def load64 : Profile → Bytes → Lane
  | .be => load64BE
  | .le => load64LE

/-- `store64_P` (R9). -/
def store64 : Profile → Lane → Bytes
  | .be => store64BE
  | .le => store64LE

/-- `ser_P(x)`: the 40 bytes of the state (R10). -/
def ser (P : Profile) (x : PState) : Bytes :=
  store64 P x.x0 ++ store64 P x.x1 ++ store64 P x.x2 ++ store64 P x.x3 ++ store64 P x.x4

/-- `deser_P(B)`, the inverse of `ser_P` on 40-byte strings (R10). -/
def deser (P : Profile) (B : Bytes) : PState where
  x0 := load64 P (B.take 8)
  x1 := load64 P ((B.drop 8).take 8)
  x2 := load64 P ((B.drop 16).take 8)
  x3 := load64 P ((B.drop 24).take 8)
  x4 := load64 P ((B.drop 32).take 8)

/-- `A ^ B` on byte strings of equal length (R8). -/
def xorBytes (A B : Bytes) : Bytes := List.zipWith (fun a b => a ^^^ b) A B

/-- `xor_at_P(x, o, D)` (R10). -/
def xorAt (P : Profile) (x : PState) (o : Nat) (D : Bytes) : PState :=
  deser P (xorBytes (ser P x) (zeros o ++ D ++ zeros (40 - o - D.length)))

/-- `set_at_P(x, o, D)` (R10). -/
def setAt (P : Profile) (x : PState) (o : Nat) (D : Bytes) : PState :=
  deser P ((ser P x).take o ++ D ++ (ser P x).drop (o + D.length))

/-- `rate_P(x, r)`: the first r bytes of the state (R10). -/
def rateBytes (P : Profile) (x : PState) (r : Nat) : Bytes := (ser P x).take r

/-- `D[o .. o+n)`, or what of it lies in D (R8). -/
def slice (D : Bytes) (o n : Nat) : Bytes := (D.drop o).take n

/-- `store32_BE(w)`: the 4 bytes of a 32-bit number, most significant first (42_duplex.md R96). -/
def store32BE (n : Nat) : Bytes :=
  [BitVec.ofNat 8 (n / 2 ^ 24), BitVec.ofNat 8 (n / 2 ^ 16), BitVec.ofNat 8 (n / 2 ^ 8), BitVec.ofNat 8 n]

/-- The four bytes of a 32-bit register or port word, the lowest-numbered in bits 7:0 (R20, R45). -/
def wordBytes (w : Word) : Bytes :=
  [w.extractLsb' 0 8, w.extractLsb' 8 8, w.extractLsb' 16 8, w.extractLsb' 24 8]

/-- The 32-bit word whose bits 8j+7:8j are byte j (R20, R45). -/
def wordOfBytes (B : Bytes) : Word := BitVec.ofNat 32 (B.foldr (fun b n => b.toNat + 256 * n) 0)

/-- The 16 bytes a group of four registers holds (R20). -/
def quadBytes (q : QuadRegs) : Bytes := wordBytes q.w0 ++ wordBytes q.w1 ++ wordBytes q.w2 ++ wordBytes q.w3

/-- Four registers written with 16 bytes in the same lane order (R20). -/
def quadOfBytes (B : Bytes) : QuadRegs where
  w0 := wordOfBytes (slice B 0 4)
  w1 := wordOfBytes (slice B 4 4)
  w2 := wordOfBytes (slice B 8 4)
  w3 := wordOfBytes (slice B 12 4)

/-- The first k bytes that KEY0..KEY4 hold (R20). For k = 16, KEY4 is not read. -/
def keyBytes (k : KeyRegs) (n : Nat) : Bytes :=
  (wordBytes k.k0 ++ wordBytes k.k1 ++ wordBytes k.k2 ++ wordBytes k.k3 ++ wordBytes k.k4).take n

end Sys2Proof.Machine
end

