-- ==== Sys2Proof/Machine/Variant.lean ====
section
/-! DEFINITION. The variant records (30_encoding.md R61). Rates, round counts and key lengths are the source's table;
profiles and IVs are marked in the spec as general knowledge of the published algorithm (GK5, GK8). -/

namespace Sys2Proof.Machine

/-- VAR 0 to 4 (R61). -/
def spongeConfig : SpongeVariant → VariantConfig
  | .hash => { profile := .be, rate := 8, a := 12, b := 12, keyLen := 0, ivLen := 8, iv := 0x00400C0000000100 }
  | .hasha => { profile := .be, rate := 8, a := 12, b := 8, keyLen := 0, ivLen := 8, iv := 0x00400C0400000100 }
  | .xof => { profile := .be, rate := 8, a := 12, b := 12, keyLen := 0, ivLen := 8, iv := 0x00400C0000000000 }
  | .xofa => { profile := .be, rate := 8, a := 12, b := 8, keyLen := 0, ivLen := 8, iv := 0x00400C0400000000 }
  | .cxof => { profile := .le, rate := 8, a := 12, b := 12, keyLen := 0, ivLen := 8, iv := 0x0000080000CC0004 }

/-- VAR 5 to 7 (R61). -/
def duplexConfig : DuplexVariant → VariantConfig
  | .aead128 => { profile := .be, rate := 8, a := 12, b := 6, keyLen := 16, ivLen := 8, iv := 0x80400C0600000000 }
  | .aead128a => { profile := .be, rate := 16, a := 12, b := 8, keyLen := 16, ivLen := 8, iv := 0x80800C0800000000 }
  | .aead80pq => { profile := .be, rate := 8, a := 12, b := 6, keyLen := 20, ivLen := 4, iv := 0xA0400C06 }

/-- `DIGEST_BYTES` of Hash and HashA (00_scope.md section 4; R86). -/
def digestBytes : Nat := 32

/-- The nonce length of every duplex variant, in bytes (R61). -/
def nonceBytes : Nat := 16

/-- The tag length of every duplex variant, in bytes (R61). -/
def tagBytes : Nat := 16

end Sys2Proof.Machine
end

