-- ==== Sys2Proof/Machine/Operands.lean ====
section
/-! DEFINITION. The operands of a command (10_state.md R19, R20): which registers it reads, which DMEM regions it
uses (60_exceptions.md R131), and when a region is in range (R132) or overlaps (R133). Addresses and lengths are
unbounded naturals here (00_scope.md R11). -/

namespace Sys2Proof.Machine

/-- A region (start, length) of DMEM (20_memory.md R37). -/
abbrev Region := Nat × Nat

/-- (A_ADDR, A_LEN). -/
def aRegion (s : State) : Region := (s.aAddr.toNat, s.aLen.toNat)

/-- (M_ADDR, M_LEN). -/
def mRegion (s : State) : Region := (s.mAddr.toNat, s.mLen.toNat)

/-- L, the output length of a DIGEST command (41_sponge.md section 2): 32 for HASH and HASHA, else OUT_LEN. -/
def digestLen (v : SpongeVariant) (s : State) : Nat :=
  match v with
  | .hash | .hasha => digestBytes
  | .xof | .xofa | .cxof => s.outLen.toNat

/-- The output region D of a command (R19): the digest, or M_LEN bytes of text; all of DMEM for WIPE (R51). -/
def outputRegion (c : Command) (s : State) : Region :=
  match c with
  | .digest v => (s.dAddr.toNat, digestLen v s)
  | .enc _ | .dec _ => (s.dAddr.toNat, s.mLen.toNat)
  | .wipe => (0, s.dmemSize.bytes)

/-- The regions a command uses, in the order checked (R131). -/
def regions (c : Command) (s : State) : List Region :=
  match c with
  | .digest .cxof => [aRegion s, mRegion s, outputRegion c s]
  | .digest _ => [mRegion s, outputRegion c s]
  | .enc _ | .dec _ => [aRegion s, mRegion s, outputRegion c s]
  | .wipe => []

/-- `InRange(addr, len)`, without wrap-around (R132). -/
def inRange (size : Nat) (r : Region) : Bool := r.2 == 0 || decide (r.1 + r.2 ≤ size)

/-- Every region of the command is in range (R126, R132). -/
def regionsInRange (c : Command) (s : State) : Bool := (regions c s).all (inRange s.dmemSize.bytes)

/-- `Overlaps()` (R133). -/
def overlaps (s : State) : Bool :=
  decide (0 < s.mLen.toNat) && decide (s.mAddr.toNat < s.dAddr.toNat) &&
    decide (s.dAddr.toNat < s.mAddr.toNat + s.mLen.toNat)

/-- K, the first k bytes of KEY0..KEY4 (R20). -/
def keyOperand (v : DuplexVariant) (s : State) : Bytes := keyBytes s.key (duplexConfig v).keyLen

/-- N, the 16 bytes of NONCE0..NONCE3 (R20). -/
def nonceOperand (s : State) : Bytes := quadBytes s.nonce

/-- T, the 16 bytes of TAG_IN0..TAG_IN3 (R20). -/
def tagOperand (s : State) : Bytes := quadBytes s.tagIn

/-- What the duration of a command may depend on (70_reset_and_hazards.md R158). Log 12. -/
def durationKey (c : Command) (s : State) : DurationKey :=
  match c with
  | .digest v =>
    { command := c, aLen := if v = .cxof then s.aLen.toNat else 0, mLen := s.mLen.toNat,
      outLen := if v = .hash ∨ v = .hasha then 0 else s.outLen.toNat, dmemBytes := 0 }
  | .enc _ | .dec _ =>
    { command := c, aLen := s.aLen.toNat, mLen := s.mLen.toNat, outLen := 0, dmemBytes := 0 }
  | .wipe => { command := c, aLen := 0, mLen := 0, outLen := 0, dmemBytes := s.dmemSize.bytes }

end Sys2Proof.Machine
end

