-- ==== Sys2Proof/Machine/Check.lean ====
section
/-! DEFINITION. The checks a command must pass before it is accepted (60_exceptions.md R126 to R133, R136). A word that
matches no row is rejected by the decoder (R127); these are the checks after it. -/

namespace Sys2Proof.Machine

/-- KLEN, NLEN, TLEN of ENC and DEC, in this order (R128, R129, R130). -/
def checkLengths (v : DuplexVariant) (klen nlen tlen : Nat) : ErrCode :=
  if klen ≠ (duplexConfig v).keyLen then .keyLen
  else if nlen ≠ nonceBytes then .nonceLen
  else if tlen ≠ tagBytes then .tagLen
  else .noError

/-- The length checks of an instruction; DIGEST and WIPE have none (R126). -/
def lengthCheck : Instr → ErrCode
  | .hash | .hasha | .xof | .xofa | .cxof | .wipe => .noError
  | .enc128 k n t | .dec128 k n t => checkLengths .aead128 k n t
  | .enc128a k n t | .dec128a k n t => checkLengths .aead128a k n t
  | .enc80pq k n t | .dec80pq k n t => checkLengths .aead80pq k n t

/-- OVERLAP is checked for ENC and DEC only (R133). -/
def overlapChecked : Command → Bool
  | .enc _ | .dec _ => true
  | .digest _ | .wipe => false

/-- `Check(w)` for a word that decodes to i: the code of the first test that fails (R126, R136). -/
def check (i : Instr) (s : State) : ErrCode :=
  if lengthCheck i ≠ .noError then lengthCheck i
  else if regionsInRange i.command s = false then .range
  else if overlapChecked i.command && overlaps s then .overlap
  else .noError

end Sys2Proof.Machine
end

