-- ==== Sys2Proof/Machine/Permutation.lean ====
section
/-! DEFINITION. The permutation engine (40_permutation.md R70 to R79): p^n as n rounds, each pC, pS, pL. It is not a
command (R2): the sponge and the duplex call it. -/

namespace Sys2Proof.Machine

/-- The round constant C[i] of the count-down round index i, for i in 0..11 (R74). -/
def roundConstant (i : Nat) : Lane := BitVec.ofNat 64 ((4 + i) * 16 + (11 - i))

/-- pC: the round constant into the third word (R73). -/
def pC (x : PState) (i : Nat) : PState := { x with x2 := x.x2 ^^^ roundConstant i }

/-- The first line of R75. -/
def pSFirst (x : PState) : PState :=
  { x0 := x.x0 ^^^ x.x4, x1 := x.x1, x2 := x.x2 ^^^ x.x1, x3 := x.x3, x4 := x.x4 ^^^ x.x3 }

/-- The second and third lines of R75: every temporary is taken from the words as the first line left them. -/
def pSMiddle (x : PState) : PState where
  x0 := x.x0 ^^^ (~~~x.x1 &&& x.x2)
  x1 := x.x1 ^^^ (~~~x.x2 &&& x.x3)
  x2 := x.x2 ^^^ (~~~x.x3 &&& x.x4)
  x3 := x.x3 ^^^ (~~~x.x4 &&& x.x0)
  x4 := x.x4 ^^^ (~~~x.x0 &&& x.x1)

/-- The last lines of R75. -/
def pSLast (x : PState) : PState :=
  { x0 := x.x0 ^^^ x.x4, x1 := x.x1 ^^^ x.x0, x2 := ~~~x.x2, x3 := x.x3 ^^^ x.x2, x4 := x.x4 }

/-- pS, the substitution layer (R75). -/
def pS (x : PState) : PState := pSLast (pSMiddle (pSFirst x))

/-- One line of R79: a word combined with two rotations of itself. -/
def diffuse (w : Lane) (m n : Nat) : Lane := w ^^^ w.rotateRight m ^^^ w.rotateRight n

/-- pL, the linear diffusion layer (R79). -/
def pL (x : PState) : PState where
  x0 := diffuse x.x0 19 28
  x1 := diffuse x.x1 61 39
  x2 := diffuse x.x2 1 6
  x3 := diffuse x.x3 10 17
  x4 := diffuse x.x4 7 41

/-- One round with round index i (R72). -/
def permRound (x : PState) (i : Nat) : PState := pL (pS (pC x i))

/-- `permute(x, n)`: round indices n-1 down to 0 (R70). Its domain is n in 0..12 (D34); every call of a command has
n = 6, 8 or 12 (R63). Log 11. -/
def permute (x : PState) : Nat → PState
  | 0 => x
  | n + 1 => permute (permRound x n) n

/-- The 5-bit S-box of R77, entry v. -/
def sboxTable : List Nat :=
  [0x04, 0x0B, 0x1F, 0x14, 0x1A, 0x15, 0x09, 0x02, 0x1B, 0x05, 0x08, 0x12, 0x1D, 0x03, 0x06, 0x1C] ++
  [0x1E, 0x13, 0x07, 0x0E, 0x00, 0x0D, 0x11, 0x18, 0x10, 0x0C, 0x01, 0x19, 0x16, 0x0A, 0x0F, 0x17]

/-- Column j of the state as a number, x[0] the most significant bit (R76). -/
def column (x : PState) (j : Nat) : Nat :=
  (x.x0.getLsbD j).toNat * 16 + (x.x1.getLsbD j).toNat * 8 + (x.x2.getLsbD j).toNat * 4 +
    (x.x3.getLsbD j).toNat * 2 + (x.x4.getLsbD j).toNat

end Sys2Proof.Machine
end

