-- ==== Sys2Proof/Machine/Sponge.lean ====
section
/-! DEFINITION. The sponge construction (41_sponge.md R82 to R87), one generic rule for the five sponge variants. -/

namespace Sys2Proof.Machine

/-- PAD_BE and PAD_LE (R83, C6). -/
def padByte : Profile → Byte
  | .be => 0x80
  | .le => 0x01

/-- The final block B_n of R83: the trailing bytes, the pad byte, then zeros up to the rate. -/
def padFinal (P : Profile) (r : Nat) (tail : Bytes) : Bytes :=
  tail ++ padByte P :: zeros (r - 1 - tail.length)

/-- `pad_P(D, r)` (R83): the full blocks, then always one final block (C2). -/
def pad (P : Profile) (D : Bytes) (r : Nat) : List Bytes :=
  (List.range (D.length / r)).map (fun j => slice D (j * r) r) ++ [padFinal P r (D.drop (D.length / r * r))]

/-- CXOF's first block: the length of Z in bits as a 64-bit little-endian integer (R84). -/
def lengthBlock (zLen : Nat) : Bytes := store64LE (BitVec.ofNat 64 (8 * zLen))

/-- `Zpre`: CXOF's blocks before the message; empty for the other variants (R84). -/
def customBlocks (v : SpongeVariant) (Z : Bytes) : List Bytes :=
  match v with
  | .cxof => lengthBlock Z.length :: pad .le Z 8
  | .hash | .hasha | .xof | .xofa => []

/-- Initialisation: the IV into x[0] as a word, then p^a (R82). -/
def spongeInit (v : SpongeVariant) : PState :=
  permute { PState.zero with x0 := BitVec.ofNat 64 (spongeConfig v).iv } (spongeConfig v).a

/-- XOR of a block into the rate (R85). -/
def absorbXor (v : SpongeVariant) (x : PState) (B : Bytes) : PState := xorAt (spongeConfig v).profile x 0 B

/-- A block that another block follows: XOR, then p^b (R85). -/
def absorbInner (v : SpongeVariant) (x : PState) (B : Bytes) : PState :=
  permute (absorbXor v x B) (spongeConfig v).b

/-- The last block: XOR, then the p^a that starts squeezing (R85). -/
def absorbLast (v : SpongeVariant) (x : PState) (B : Bytes) : PState :=
  permute (absorbXor v x B) (spongeConfig v).a

/-- Absorbing a block list (R85); the list of a command is never empty. -/
def absorb (v : SpongeVariant) : PState → List Bytes → PState
  | x, [] => x
  | x, [B] => absorbLast v x B
  | x, B :: B' :: Bs => absorb v (absorbInner v x B) (B' :: Bs)

/-- How many times the loop of R86 reads the rate: max(1, ceil(L/r)). -/
def squeezeReads (r L : Nat) : Nat := (L - 1) / r + 1

/-- n reads of the rate with p^b between them (R86); the state after the last read is not used. -/
def squeezeLoop (v : SpongeVariant) : Nat → PState → Bytes
  | 0, _ => []
  | n + 1, x =>
    rateBytes (spongeConfig v).profile x (spongeConfig v).rate ++
      squeezeLoop v n (permute x (spongeConfig v).b)

/-- Squeezing and truncation to L bytes (R86). -/
def squeeze (v : SpongeVariant) (x : PState) (L : Nat) : Bytes :=
  (squeezeLoop v (squeezeReads (spongeConfig v).rate L) x).take L

/-- The whole sponge function (R87). -/
def sponge (v : SpongeVariant) (M Z : Bytes) (L : Nat) : Bytes :=
  squeeze v
    (absorb v (spongeInit v) (customBlocks v Z ++ pad (spongeConfig v).profile M (spongeConfig v).rate)) L

end Sys2Proof.Machine
end

