-- ==== Sys2Proof/Machine/Duplex.lean ====
section
/-! DEFINITION. The duplex construction (42_duplex.md R96 to R105), one generic rule for the three duplex variants.
Every duplex variant has profile BE. -/

namespace Sys2Proof.Machine

/-- IVB: `store64_BE(IV)` for a 16-byte key, `store32_BE(IV)` for AEAD-80pq (R96). -/
def ivBytes (v : DuplexVariant) : Bytes :=
  if (duplexConfig v).ivLen = 8 then store64BE (BitVec.ofNat 64 (duplexConfig v).iv)
  else store32BE (duplexConfig v).iv

/-- Initialisation with key and nonce (R96). -/
def duplexInit (v : DuplexVariant) (K N : Bytes) : PState :=
  xorAt .be (permute (deser .be (ivBytes v ++ K ++ N)) (duplexConfig v).a) (40 - (duplexConfig v).keyLen) K

/-- One block of associated data: XOR, then p^b, after the last block too (R97, C1). -/
def absorbAd (v : DuplexVariant) (x : PState) (B : Bytes) : PState :=
  permute (xorAt .be x 0 B) (duplexConfig v).b

/-- The associated-data phase; nothing runs when A is empty (R97). -/
def duplexAd (v : DuplexVariant) (x : PState) (A : Bytes) : PState :=
  if A.length = 0 then x else (pad .be A (duplexConfig v).rate).foldl (absorbAd v) x

/-- Domain separation: bit 0 of x[4], always (R98). -/
def separateDomain (x : PState) : PState := { x with x4 := x.x4 ^^^ 1 }

/-- What a text block XORs with: the first `n` bytes of the rate (R99, R100). -/
def keystream (v : DuplexVariant) (x : PState) (n : Nat) : Bytes :=
  (rateBytes .be x (duplexConfig v).rate).take n

/-- The state after a text block whose CIPHERTEXT bytes are c (R99, R100): overwrite, then p^b after a full
block, or the marker 0x80 after the bytes of the final partial block. -/
def absorbCipher (v : DuplexVariant) (x : PState) (c : Bytes) : PState :=
  if c.length < (duplexConfig v).rate then xorAt .be (setAt .be x 0 c) c.length [0x80]
  else permute (setAt .be x 0 c) (duplexConfig v).b

/-- One plaintext block: its ciphertext bytes (R99). -/
def encryptBlock (v : DuplexVariant) (x : PState) (p : Bytes) : Bytes := xorBytes (keystream v x p.length) p

/-- One ciphertext block: its plaintext bytes (R100). -/
def decryptBlock (v : DuplexVariant) (x : PState) (c : Bytes) : Bytes := xorBytes (keystream v x c.length) c

/-- The text cut into its full blocks and the final partial block, which is always there (R99). -/
def textBlocks (r : Nat) (D : Bytes) : List Bytes :=
  (List.range (D.length / r + 1)).map (fun j => slice D (j * r) r)

/-- The plaintext phase: the ciphertext, and the state after it (R99). -/
def encryptText (v : DuplexVariant) : PState → List Bytes → Bytes × PState
  | x, [] => ([], x)
  | x, p :: ps =>
    let c := encryptBlock v x p
    let rest := encryptText v (absorbCipher v x c) ps
    (c ++ rest.1, rest.2)

/-- The ciphertext phase: the plaintext, and the state after it (R100). -/
def decryptText (v : DuplexVariant) : PState → List Bytes → Bytes × PState
  | x, [] => ([], x)
  | x, c :: cs =>
    let rest := decryptText v (absorbCipher v x c) cs
    (decryptBlock v x c ++ rest.1, rest.2)

/-- The state after the second key injection and p^a (R101). -/
def finalState (v : DuplexVariant) (K : Bytes) (x : PState) : PState :=
  permute (xorAt .be x (duplexConfig v).rate K) (duplexConfig v).a

/-- The tag taken from the final state: bytes 24..39 XOR the last 16 key bytes (R101, C3). -/
def tagOf (v : DuplexVariant) (K : Bytes) (y : PState) : Bytes :=
  xorBytes ((ser .be y).drop 24) (K.drop ((duplexConfig v).keyLen - 16))

/-- Verification: every byte of both tags is read, whatever their values (R102). -/
def verifyTag (T' T : Bytes) : Bool := (xorBytes T' T).foldl (fun diff b => diff ||| b) 0 == 0

/-- Initialisation, associated data and domain separation, common to both directions (R105). -/
def duplexStart (v : DuplexVariant) (K N A : Bytes) : PState :=
  separateDomain (duplexAd v (duplexInit v K N) A)

/-- `Encrypt(V, K, N, A, P)` (R105). -/
def encrypt (v : DuplexVariant) (K N A P : Bytes) : Bytes × Bytes :=
  let text := encryptText v (duplexStart v K N A) (textBlocks (duplexConfig v).rate P)
  (text.1, tagOf v K (finalState v K text.2))

/-- `Decrypt(V, K, N, A, C, T)` (R105). -/
def decrypt (v : DuplexVariant) (K N A C T : Bytes) : Bool × Bytes :=
  let text := decryptText v (duplexStart v K N A) (textBlocks (duplexConfig v).rate C)
  let good := verifyTag (tagOf v K (finalState v K text.2)) T
  (good, if good then text.1 else zeros C.length)

end Sys2Proof.Machine
end

