-- ==== Sys2Proof/Machine/Flags.lean ====
section
/-! DEFINITION. STATUS and CTRL (10_state.md R24, R25, R34, R35): the codes, the word a read returns, the bits a
write clears, and the interrupt output. -/

namespace Sys2Proof.Machine

/-- The PHASE codes (R34). -/
def Phase.code : Phase → Nat
  | .idle => 0x0
  | .spInit => 0x1
  | .spAbsorb => 0x2
  | .spSqueeze => 0x3
  | .spDone => 0x4
  | .dxInit => 0x5
  | .dxAd => 0x6
  | .dxText => 0x7
  | .dxFinal => 0x8
  | .dxTagged => 0x9
  | .dxVerified => 0xA
  | .dxFailed => 0xB
  | .wiping => 0xC
  | .wiped => 0xD
  | .rejected => 0xE

/-- The ERR codes (60_exceptions.md R125). -/
def ErrCode.code : ErrCode → Nat
  | .noError => 0
  | .illegalCmd => 1
  | .keyLen => 2
  | .nonceLen => 3
  | .tagLen => 4
  | .range => 5
  | .overlap => 6

/-- The non-terminal phases of a command's family: what a read of PHASE may show while it runs (R34, U2). -/
def runningPhases : Command → List Phase
  | .digest _ => [.spInit, .spAbsorb, .spSqueeze]
  | .enc _ | .dec _ => [.dxInit, .dxAd, .dxText, .dxFinal]
  | .wipe => [.wiping]

/-- The first phase of a command (43_control.md R117). -/
def firstPhase : Command → Phase
  | .digest _ => .spInit
  | .enc _ | .dec _ => .dxInit
  | .wipe => .wiping

/-- The terminal phase of a command; DEC's depends on OK (43_control.md R118, 42_duplex.md R109). -/
def terminalPhase (c : Command) (ok : Option Bool) : Phase :=
  match c with
  | .digest _ => .spDone
  | .enc _ => .dxTagged
  | .dec _ => if ok = some true then .dxVerified else .dxFailed
  | .wipe => .wiped

/-- The phase of a position of the sequencer (R34, 41_sponge.md R81, 42_duplex.md R95). DEC's second pass and
zero-fill belong to DX_FINAL. The domain-separation bit closes the AD phase. -/
def SeqOp.phase : SeqOp → Phase
  | .spInit => .spInit
  | .spAbsorbLength | .spAbsorbCustom _ | .spAbsorbMessage _ => .spAbsorb
  | .spSqueeze _ => .spSqueeze
  | .dxInit .first => .dxInit
  | .dxAd .first _ => .dxAd
  | .dxSeparate .first => .dxAd
  | .dxText .first _ => .dxText
  | .dxInit .second | .dxAd .second _ | .dxSeparate .second | .dxText .second _ => .dxFinal
  | .dxFinal => .dxFinal
  | .wipeAll => .wiping

/-- The phase a read of STATUS shows: while BUSY = 1 a free choice among the running family's non-terminal phases
(R34, U2, log 5); else the phase the last command left. -/
def visiblePhase (s : State) : Phase :=
  match s.busy, s.cur with
  | true, some c => (runningPhases c).getD (Config.freePhase s.freeCount % (runningPhases c).length) (firstPhase c)
  | _, _ => s.phase

/-- STATUS with the given PHASE: BUSY bit 0, DONE bit 1, AUTH_OK bit 2, BUSY_ERR bit 3, ERR bits 7:4, PHASE bits
11:8, the rest 0 (R25). -/
def statusWord (s : State) (p : Phase) : Word :=
  BitVec.ofNat 32
    (s.busy.toNat + 2 * s.done.toNat + 4 * s.authOk.toNat + 8 * s.busyErr.toNat + 16 * s.err.code + 256 * p.code)

/-- CTRL: IRQ_EN in bit 0, the rest 0 (R24). -/
def ctrlWord (s : State) : Word := BitVec.ofNat 32 s.irqEn.toNat

/-- A host write of STATUS while not busy: DONE and BUSY_ERR are cleared by a 1 in a strobed byte (R25,
20_memory.md R44). Both bits stand in byte 0. -/
def writeStatus (v : Word) (strb : BitVec 4) (s : State) : State :=
  if strb.getLsbD 0 then
    { s with done := s.done && !v.getLsbD 1, busyErr := s.busyErr && !v.getLsbD 3 }
  else s

/-- A host write of CTRL while not busy: IRQ_EN is bit 0 of byte 0 (R24, 20_memory.md R44). -/
def writeCtrl (v : Word) (strb : BitVec 4) (s : State) : State :=
  if strb.getLsbD 0 then { s with irqEn := v.getLsbD 0 } else s

/-- The interrupt output: the level CTRL.IRQ_EN & STATUS.DONE (R35, 60_exceptions.md R137). -/
def irqOutput (s : State) : Bool := s.irqEn && s.done

end Sys2Proof.Machine
end

