-- ==== Sys2Proof/Machine/Sequence.lean ====
section
/-! DEFINITION. The sequence of steps of a command (43_control.md R123: fixed by the command's rule, the number of
blocks depending only on the lengths), in the order of 20_memory.md R51. -/

namespace Sys2Proof.Machine

/-- The positions of `pad_P` over n bytes (41_sponge.md R83): floor(n/r) full blocks and one final block. It is
also the number of text blocks of 42_duplex.md R99. -/
def blockCount (r n : Nat) : Nat := n / r + 1

/-- A DIGEST command (41_sponge.md section 2): init, CXOF's length and customization blocks, the message blocks,
the reads of the rate. -/
def digestSequence (v : SpongeVariant) (s : State) : List SeqOp :=
  let r := (spongeConfig v).rate
  [SeqOp.spInit] ++
  (if v = .cxof then
    SeqOp.spAbsorbLength :: (List.range (blockCount r s.aLen.toNat)).map SeqOp.spAbsorbCustom
   else []) ++
  (List.range (blockCount r s.mLen.toNat)).map SeqOp.spAbsorbMessage ++
  (List.range (squeezeReads r (digestLen v s))).map SeqOp.spSqueeze

/-- One pass of the duplex up to the end of the text phase (42_duplex.md R95, R97 to R100). -/
def duplexPass (p : Pass) (v : DuplexVariant) (s : State) : List SeqOp :=
  let r := (duplexConfig v).rate
  [SeqOp.dxInit p] ++
  (if s.aLen.toNat = 0 then [] else (List.range (blockCount r s.aLen.toNat)).map (SeqOp.dxAd p)) ++
  [SeqOp.dxSeparate p] ++
  (List.range (blockCount r s.mLen.toNat)).map (SeqOp.dxText p)

/-- The whole sequence of a command (41_sponge.md section 2, 42_duplex.md R108, R109, 43_control.md R122). -/
def opsFor (c : Command) (s : State) : List SeqOp :=
  match c with
  | .digest v => digestSequence v s
  | .enc v => duplexPass .first v s ++ [.dxFinal]
  | .dec v => duplexPass .first v s ++ [.dxFinal] ++ duplexPass .second v s
  | .wipe => [.wipeAll]

end Sys2Proof.Machine
end

