-- ==== Sys2Proof/Machine/Ops.lean ====
section
/-! DEFINITION. The shared operations: the bytes of DMEM (20_memory.md R39, R43, R49, R50), chaining steps that can
stop, and the events every command shares: rejection (60_exceptions.md R134, the core's form of taking an exception; R139:
there is no return from it), acceptance (43_control.md R117), completion (R118), a dropped write (R120), reset
(70_reset_and_hazards.md R147) and power-on (R148). -/

namespace Sys2Proof.Machine

/-- The canonical form of a memory: addresses strictly rising. An unlisted address reads as no value, which no
listed cell can equal. -/
abbrev Memory.wf (m : Memory) : Prop := m.Pairwise (fun c d => c.1 < d.1)

/-- The byte at an address, or nothing when it is unwritten (R39). -/
def Memory.byteAt : Memory → Nat → Option Byte
  | [], _ => none
  | (k, b) :: m, a => if k = a then some b else Memory.byteAt m a

/-- `MemRead(addr, n)` in ascending address order (R49); the error is the first unwritten address. -/
def Memory.readBytes (m : Memory) (a : Nat) : Nat → Except Nat Bytes
  | 0 => .ok []
  | n + 1 =>
    match Memory.byteAt m a with
    | none => .error a
    | some b =>
      match Memory.readBytes m (a + 1) n with
      | .ok bs => .ok (b :: bs)
      | .error e => .error e

/-- The cells of a byte string at consecutive addresses. -/
def cellsAt (a : Nat) : Bytes → Memory
  | [] => []
  | b :: bs => (a, b) :: cellsAt (a + 1) bs

/-- `MemWrite(addr, |v|, v)` (R50), as one change of the whole region; `Laws` show that it is the ascending sequence
of its single-byte writes. -/
def Memory.writeBytes (m : Memory) (a : Nat) (v : Bytes) : Memory :=
  m.filter (fun c => decide (c.1 < a)) ++ cellsAt a v ++ m.filter (fun c => decide (a + v.length ≤ c.1))

/-- A host write of one DMEM word: byte j where strobe j is set (R43). -/
def Memory.writeStrobed (m : Memory) (a : Nat) (w : Word) (strb : BitVec 4) : Memory :=
  (List.range 4).foldl
    (fun m j => if strb.getLsbD j then Memory.writeBytes m (a + j) [w.extractLsb' (8 * j) 8] else m) m

/-- Go on with the next state, or stop as the first part stopped. -/
def andThen (o : Host.Outcome State Fault Refusal) (f : State → Host.Outcome State Fault Refusal) :
    Host.Outcome State Fault Refusal :=
  match o with
  | .next s => f s
  | .fault r => .fault r
  | .refused r => .refused r

/-- `raise Reject(code)` (R134): exactly these four fields of STATUS, in one step. -/
def reject (code : ErrCode) (s : State) : State :=
  { s with err := code, done := true, authOk := false, phase := .rejected }

/-- Acceptance of a command (R117). SEQ is at the start of the command's sequence. -/
def accept (c : Command) (s : State) : State :=
  { s with
    err := .noError
    done := false
    authOk := false
    tagOut := QuadRegs.zero
    busy := true
    phase := firstPhase c
    cur := some c
    seq := opsFor c s
    tCalc := none
    ok := none }

/-- KEY0..KEY4 at completion: cleared by ENC, DEC and WIPE (R118, 10_state.md R28). -/
def completedKey (c : Command) (s : State) : KeyRegs :=
  match c with
  | .digest _ => s.key
  | .enc _ | .dec _ | .wipe => KeyRegs.zero

/-- TAG_OUT0..3 at completion: written by ENC, cleared by WIPE (R118, 10_state.md R31, 43_control.md R122). -/
def completedTagOut (c : Command) (s : State) : QuadRegs :=
  match c with
  | .digest _ | .dec _ => s.tagOut
  | .enc _ => quadOfBytes (s.tCalc.getD [])
  | .wipe => QuadRegs.zero

/-- STATUS.AUTH_OK at completion: DEC sets it to OK (R118, 42_duplex.md R109). -/
def completedAuthOk (c : Command) (s : State) : Bool :=
  match c with
  | .digest _ | .enc _ | .wipe => s.authOk
  | .dec _ => s.ok.getD false

/-- NONCE and TAG_IN at completion: cleared by WIPE only (10_state.md R29, R30, 43_control.md R122). Log 13. -/
def completedQuad (c : Command) (q : QuadRegs) : QuadRegs :=
  match c with
  | .digest _ | .enc _ | .dec _ => q
  | .wipe => QuadRegs.zero

/-- Completion of the command c, in one step (R118). -/
def completeCommand (c : Command) (s : State) : State :=
  { s with
    x := PState.zero
    key := completedKey c s
    nonce := completedQuad c s.nonce
    tagIn := completedQuad c s.tagIn
    tagOut := completedTagOut c s
    authOk := completedAuthOk c s
    phase := terminalPhase c s.ok
    busy := false
    done := true
    cur := none
    seq := []
    tCalc := none
    ok := none }

/-- A host write made while BUSY = 1: dropped, and BUSY_ERR is set (R120). -/
def dropWrite (s : State) : State := { s with busyErr := true }

/-- Every register and internal state at its reset value (R147, 10_state.md R36), DMEM as given. DMEM_BYTES is a
constant; the model's own fields are the outside's and stay. -/
def resetRegisters (d : Memory) (s : State) : State :=
  { State.reset with
    dmemSize := s.dmemSize
    dmem := d
    rdata := s.rdata
    freeCount := s.freeCount
    events := s.events }

/-- Power-on: a reset, and every DMEM byte unwritten (R148). -/
def powerOn (s : State) : State := resetRegisters [] s

end Sys2Proof.Machine
end

