-- ==== Sys2Proof/Machine/Engine.lean ====
section
/-! DEFINITION. The execution of an accepted command (41_sponge.md section 2, 42_duplex.md R108, R109, 43_control.md
R122), one position of the sequencer at a time, and its completion. -/

namespace Sys2Proof.Machine

/-- What one position of the sequencer leaves: x, T_CALC, OK, and the bytes it writes to DMEM, ascending from an
address. -/
structure OpEffect where
  x : PState
  tCalc : Option Bytes
  ok : Option Bool
  addr : Nat
  bytes : Bytes
deriving DecidableEq, Repr

/-- Nothing changes and nothing is written. -/
def OpEffect.same (s : State) : OpEffect := { x := s.x, tCalc := s.tCalc, ok := s.ok, addr := 0, bytes := [] }

/-- Only x changes. -/
def OpEffect.ofState (s : State) (x : PState) : OpEffect := { OpEffect.same s with x := x }

/-- The bytes of block j of a region cut into blocks of r bytes: r of them, or those that are left. -/
def readBlock (s : State) (reg : Region) (r j : Nat) : Except Nat Bytes :=
  Memory.readBytes s.dmem (reg.1 + j * r) (min r (reg.2 - j * r))

/-- A block as `pad_P` leaves it (41_sponge.md R83): a full block is itself, the final one is padded. -/
def paddedBlock (P : Profile) (r : Nat) (B : Bytes) : Bytes := if B.length < r then padFinal P r B else B

/-- Squeezing: the j-th read of the rate, cut to what is left of the output, to D at its offset; p^b if more output
is required (R86). -/
def squeezeEffect (v : SpongeVariant) (j : Nat) (s : State) : OpEffect :=
  let r := (spongeConfig v).rate
  let L := digestLen v s
  { OpEffect.same s with
    x := if (j + 1) * r < L then permute s.x (spongeConfig v).b else s.x
    addr := s.dAddr.toNat + j * r
    bytes := (rateBytes (spongeConfig v).profile s.x r).take (L - j * r) }

/-- A position of a DIGEST command (41_sponge.md section 2). -/
def digestEffect (v : SpongeVariant) (op : SeqOp) (s : State) : Except Nat OpEffect :=
  let P := (spongeConfig v).profile
  let r := (spongeConfig v).rate
  match op with
  | .spInit => .ok (OpEffect.ofState s (spongeInit v))
  | .spAbsorbLength => .ok (OpEffect.ofState s (absorbInner v s.x (lengthBlock s.aLen.toNat)))
  | .spAbsorbCustom j =>
    match readBlock s (aRegion s) r j with
    | .ok B => .ok (OpEffect.ofState s (absorbInner v s.x (paddedBlock P r B)))
    | .error a => .error a
  | .spAbsorbMessage j =>
    match readBlock s (mRegion s) r j with
    | .ok B =>
      if j < s.mLen.toNat / r then .ok (OpEffect.ofState s (absorbInner v s.x (paddedBlock P r B)))
      else .ok (OpEffect.ofState s (absorbLast v s.x (paddedBlock P r B)))
    | .error a => .error a
  | .spSqueeze j => .ok (squeezeEffect v j s)
  | .dxInit _ | .dxAd _ _ | .dxSeparate _ | .dxText _ _ | .dxFinal | .wipeAll => .ok (OpEffect.same s)

/-- DEC runs its second pass only if the tag matched (42_duplex.md R109). -/
def passRuns (p : Pass) (s : State) : Bool :=
  match p with
  | .first => true
  | .second => s.ok == some true

/-- A text position of ENC: read the block, write its ciphertext at the same offset of D (R108). -/
def encTextEffect (v : DuplexVariant) (j : Nat) (s : State) : Except Nat OpEffect :=
  let r := (duplexConfig v).rate
  match readBlock s (mRegion s) r j with
  | .ok p =>
    let c := encryptBlock v s.x p
    .ok { OpEffect.same s with x := absorbCipher v s.x c, addr := s.dAddr.toNat + j * r, bytes := c }
  | .error a => .error a

/-- A text position of DEC's first pass: the state follows the ciphertext, and nothing is written (R109). -/
def decVerifyEffect (v : DuplexVariant) (j : Nat) (s : State) : Except Nat OpEffect :=
  match readBlock s (mRegion s) (duplexConfig v).rate j with
  | .ok c => .ok (OpEffect.ofState s (absorbCipher v s.x c))
  | .error a => .error a

/-- A text position of DEC's second pass (R109): the block's plaintext if the tag matched, as many zeros if it did not,
at the same offset of D. -/
def decWriteEffect (v : DuplexVariant) (j : Nat) (s : State) : Except Nat OpEffect :=
  let r := (duplexConfig v).rate
  if passRuns .second s then
    match readBlock s (mRegion s) r j with
    | .ok c =>
      .ok { OpEffect.same s with
            x := absorbCipher v s.x c, addr := s.dAddr.toNat + j * r, bytes := decryptBlock v s.x c }
    | .error a => .error a
  else
    .ok { OpEffect.same s with
          addr := s.dAddr.toNat + j * r, bytes := zeros (min r (s.mLen.toNat - j * r)) }

/-- A position that ENC and DEC share: initialisation, associated data, domain separation (R96 to R98). -/
def duplexStartEffect (v : DuplexVariant) (op : SeqOp) (s : State) : Except Nat OpEffect :=
  match op with
  | .dxInit p =>
    if passRuns p s then .ok (OpEffect.ofState s (duplexInit v (keyOperand v s) (nonceOperand s)))
    else .ok (OpEffect.same s)
  | .dxAd p j =>
    if passRuns p s then
      match readBlock s (aRegion s) (duplexConfig v).rate j with
      | .ok B => .ok (OpEffect.ofState s (absorbAd v s.x (paddedBlock .be (duplexConfig v).rate B)))
      | .error a => .error a
    else .ok (OpEffect.same s)
  | .dxSeparate p =>
    if passRuns p s then .ok (OpEffect.ofState s (separateDomain s.x)) else .ok (OpEffect.same s)
  | .spInit | .spAbsorbLength | .spAbsorbCustom _ | .spAbsorbMessage _ | .spSqueeze _ | .dxText _ _ | .dxFinal
  | .wipeAll => .ok (OpEffect.same s)

/-- The final permutation and the tag it gives (R101). -/
def finalEffect (v : DuplexVariant) (s : State) : OpEffect :=
  let y := finalState v (keyOperand v s) s.x
  { OpEffect.same s with x := y, tCalc := some (tagOf v (keyOperand v s) y) }

/-- A position of an ENC command (R108). -/
def encEffect (v : DuplexVariant) (op : SeqOp) (s : State) : Except Nat OpEffect :=
  match op with
  | .dxText _ j => encTextEffect v j s
  | .dxFinal => .ok (finalEffect v s)
  | .dxInit _ | .dxAd _ _ | .dxSeparate _ => duplexStartEffect v op s
  | .spInit | .spAbsorbLength | .spAbsorbCustom _ | .spAbsorbMessage _ | .spSqueeze _ | .wipeAll =>
    .ok (OpEffect.same s)

/-- A position of a DEC command (R109): the final position of the first pass also compares the tags (R102). -/
def decEffect (v : DuplexVariant) (op : SeqOp) (s : State) : Except Nat OpEffect :=
  match op with
  | .dxText .first j => decVerifyEffect v j s
  | .dxText .second j => decWriteEffect v j s
  | .dxFinal =>
    .ok { finalEffect v s with ok := (finalEffect v s).tCalc.map (fun T' => verifyTag T' (tagOperand s)) }
  | .dxInit _ | .dxAd _ _ | .dxSeparate _ => duplexStartEffect v op s
  | .spInit | .spAbsorbLength | .spAbsorbCustom _ | .spAbsorbMessage _ | .spSqueeze _ | .wipeAll =>
    .ok (OpEffect.same s)

/-- WIPE's only position: all of DMEM is written 0, ascending, and x cleared (43_control.md R122). -/
def wipeEffect (op : SeqOp) (s : State) : Except Nat OpEffect :=
  match op with
  | .wipeAll => .ok { OpEffect.same s with x := PState.zero, addr := 0, bytes := zeros s.dmemSize.bytes }
  | .spInit | .spAbsorbLength | .spAbsorbCustom _ | .spAbsorbMessage _ | .spSqueeze _ | .dxInit _ | .dxAd _ _
  | .dxSeparate _ | .dxText _ _ | .dxFinal => .ok (OpEffect.same s)

/-- The effect of one position of the command c; the error is the address of an unwritten byte it read. -/
def opEffect (c : Command) (op : SeqOp) (s : State) : Except Nat OpEffect :=
  match c with
  | .digest v => digestEffect v op s
  | .enc v => encEffect v op s
  | .dec v => decEffect v op s
  | .wipe => wipeEffect op s

/-- The state after a position whose effect is e, with `rest` still to be done. -/
def applyEffect (op : SeqOp) (rest : List SeqOp) (e : OpEffect) (s : State) : State :=
  { s with
    x := e.x
    tCalc := e.tCalc
    ok := e.ok
    dmem := Memory.writeBytes s.dmem e.addr e.bytes
    phase := op.phase
    seq := rest }

/-- The positions of a list, one after the other. -/
def runOps (c : Command) : List SeqOp → State → Host.Outcome State Fault Refusal
  | [], s => .next s
  | op :: rest, s =>
    match opEffect c op s with
    | .ok e => runOps c rest (applyEffect op rest e s)
    | .error a => .fault (.commandReadUnwritten a)

/-- One step of the sequencer of a running command: its current position, or its completion when the last one is
done (R118). An idle core does nothing (60_exceptions.md R146). -/
def engineStep (s : State) : Host.Outcome State Fault Refusal :=
  match s.busy, s.cur with
  | true, some c =>
    match s.seq with
    | [] => .next (completeCommand c s)
    | op :: rest =>
      match opEffect c op s with
      | .ok e => .next (applyEffect op rest e s)
      | .error a => .fault (.commandReadUnwritten a)
  | _, _ => .next s

/-- At most n steps of the sequencer. -/
def engineSteps : Nat → State → Host.Outcome State Fault Refusal
  | 0, s => .next s
  | n + 1, s => andThen (engineStep s) (engineSteps n)

/-- A running command to its completion; an idle core does nothing. -/
def runToCompletion (s : State) : Host.Outcome State Fault Refusal :=
  match s.busy, s.cur with
  | true, some c => andThen (runOps c s.seq s) (fun s' => .next (completeCommand c s'))
  | _, _ => .next s

/-- The core's progress between a host access and the next event (43_control.md R121). Log 4. -/
def progress (g : Gap) (s : State) : Host.Outcome State Fault Refusal :=
  match g with
  | .steps n => engineSteps n s
  | .completes => runToCompletion s

/-- The DMEM a reset leaves (70_reset_and_hazards.md R149): the writes of the positions already done, and the first
`landed` bytes of the write in progress. Log 8. With `landed` > 0 the position in progress has made its reads, so one that reads
an unwritten byte stops the model instead of resetting (DEDUCED, R39, where the position writes). That it stops also where the
position writes nothing (absorbing A or M, the first pass of DEC), which R136 and R149 leave open, is the model's choice
(DESIGN CHOICE). Log 14 has both. With `landed` = 0 a reset never stops. -/
def abortedDmem (landed : Nat) (s : State) : Except Nat Memory :=
  match s.busy, s.cur, s.seq, landed with
  | true, some c, op :: _, n + 1 =>
    match opEffect c op s with
    | .ok e => .ok (Memory.writeBytes s.dmem e.addr (e.bytes.take (n + 1)))
    | .error a => .error a
  | _, _, _, _ => .ok s.dmem

/-- The reset input is asserted (R147, R149). -/
def assertReset (landed : Nat) (s : State) : Host.Outcome State Fault Refusal :=
  match abortedDmem landed s with
  | .ok d => .next (resetRegisters d s)
  | .error a => .fault (.commandReadUnwritten a)

end Sys2Proof.Machine
end

