-- ==== Sys2Proof/Machine/Issue.lean ====
section
/-! DEFINITION. Issuing a command (43_control.md R116): CMD_LAST, the checks, then rejection or acceptance; and the whole
of a command, from its CMD write to its completion (20_memory.md R52, 43_control.md R121). -/

namespace Sys2Proof.Machine

/-- Issue of the word of i while BUSY = 0 (R116). -/
def issue (i : Instr) (s : State) : State :=
  let s1 := { s with cmdLast := encode i }
  match check i s1 with
  | .noError => accept i.command s1
  | code => reject code s1

/-- Issue of a word that names no command while BUSY = 0 (R116, R127). -/
def issueIllegal (w : Word) (s : State) : State := reject .illegalCmd { s with cmdLast := w }

/-- The CMD write of i and, if it is accepted, its execution to completion with no host access between. While another
command runs the write is dropped (R119, R120). -/
def runCommand (i : Instr) (s : State) : Host.Outcome State Fault Refusal :=
  if s.busy then .next (dropWrite s) else runToCompletion (issue i s)

end Sys2Proof.Machine
end

