-- ==== Sys2Proof/Machine/Aead.lean ====
section
/-! DEFINITION. The meanings of the ENC and DEC commands (42_duplex.md R110 to R115): `EncExec` and `DecExec` of each
variant. KLEN, NLEN and TLEN are the lengths the command word declares. -/

namespace Sys2Proof.Machine

/-- ENC.128 (R110). -/
def execEnc128 (klen nlen tlen : Nat) (s : State) : Host.Outcome State Fault Refusal :=
  runCommand (.enc128 klen nlen tlen) s

/-- ENC.128A (R111). -/
def execEnc128a (klen nlen tlen : Nat) (s : State) : Host.Outcome State Fault Refusal :=
  runCommand (.enc128a klen nlen tlen) s

/-- ENC.80PQ (R112). -/
def execEnc80pq (klen nlen tlen : Nat) (s : State) : Host.Outcome State Fault Refusal :=
  runCommand (.enc80pq klen nlen tlen) s

/-- DEC.128 (R113). -/
def execDec128 (klen nlen tlen : Nat) (s : State) : Host.Outcome State Fault Refusal :=
  runCommand (.dec128 klen nlen tlen) s

/-- DEC.128A (R114). -/
def execDec128a (klen nlen tlen : Nat) (s : State) : Host.Outcome State Fault Refusal :=
  runCommand (.dec128a klen nlen tlen) s

/-- DEC.80PQ (R115). -/
def execDec80pq (klen nlen tlen : Nat) (s : State) : Host.Outcome State Fault Refusal :=
  runCommand (.dec80pq klen nlen tlen) s

end Sys2Proof.Machine
end

