-- ==== Sys2Proof/Machine/Digest.lean ====
section
/-! DEFINITION. The meanings of the DIGEST commands (41_sponge.md R90 to R94): `DigestExec` of each variant. -/

namespace Sys2Proof.Machine

/-- HASH (R90): Ascon-Hash of the message region, 32 bytes to D. -/
def execHash (s : State) : Host.Outcome State Fault Refusal := runCommand .hash s

/-- HASHA (R91): as HASH, with b = 8 and its own IV. -/
def execHasha (s : State) : Host.Outcome State Fault Refusal := runCommand .hasha s

/-- XOF (R92): OUT_LEN bytes to D. -/
def execXof (s : State) : Host.Outcome State Fault Refusal := runCommand .xof s

/-- XOFA (R93): as XOF, with b = 8 and its own IV. -/
def execXofa (s : State) : Host.Outcome State Fault Refusal := runCommand .xofa s

/-- CXOF (R94): with the customization string of (A_ADDR, A_LEN) before the message. -/
def execCxof (s : State) : Host.Outcome State Fault Refusal := runCommand .cxof s

end Sys2Proof.Machine
end

