-- ==== Sys2Proof/Machine/Wipe.lean ====
section
/-! DEFINITION. The meaning of WIPE (43_control.md R122). -/

namespace Sys2Proof.Machine

/-- WIPE (R122): DMEM, x, KEY, NONCE, TAG_IN and TAG_OUT all 0; the operand registers and CTRL kept. -/
def execWipe (s : State) : Host.Outcome State Fault Refusal := runCommand .wipe s

end Sys2Proof.Machine
end

