-- ==== Sys2Proof/Machine/Dispatch.lean ====
section
/-! DEFINITION. One arm per instruction: the meaning of each command word. -/

namespace Sys2Proof.Machine

def exec (i : Instr) (s : State) : Host.Outcome State Fault Refusal :=
  match i with
  | .hash => Sys2Proof.Machine.execHash s
  | .hasha => Sys2Proof.Machine.execHasha s
  | .xof => Sys2Proof.Machine.execXof s
  | .xofa => Sys2Proof.Machine.execXofa s
  | .cxof => Sys2Proof.Machine.execCxof s
  | .enc128 klen nlen tlen => Sys2Proof.Machine.execEnc128 klen nlen tlen s
  | .enc128a klen nlen tlen => Sys2Proof.Machine.execEnc128a klen nlen tlen s
  | .enc80pq klen nlen tlen => Sys2Proof.Machine.execEnc80pq klen nlen tlen s
  | .dec128 klen nlen tlen => Sys2Proof.Machine.execDec128 klen nlen tlen s
  | .dec128a klen nlen tlen => Sys2Proof.Machine.execDec128a klen nlen tlen s
  | .dec80pq klen nlen tlen => Sys2Proof.Machine.execDec80pq klen nlen tlen s
  | .wipe => Sys2Proof.Machine.execWipe s

end Sys2Proof.Machine
end

