-- ==== Sys2Proof/Machine/HostPort.lean ====
section
/-! DEFINITION. The host port (20_memory.md R40 to R47): the register map of 10_state.md section 5, the DMEM window, byte
strobes, what happens while BUSY = 1 (43_control.md R120), and a CMD write that issues a command (R116). -/

namespace Sys2Proof.Machine

/-- `offset & 0xFFFC` (R40, R46). -/
def wordOffset (a : Access) : Nat := a.offset.toNat / 4 * 4

/-- The register at a word offset; none at a reserved offset (10_state.md section 5, R32). -/
def Reg.ofOffset : Nat → Option Reg
  | 0x000 => some .id
  | 0x004 => some .param
  | 0x008 => some .ctrl
  | 0x00C => some .status
  | 0x010 => some .cmd
  | 0x020 => some .aAddr
  | 0x024 => some .aLen
  | 0x028 => some .mAddr
  | 0x02C => some .mLen
  | 0x030 => some .dAddr
  | 0x034 => some .outLen
  | 0x040 => some (.key 0)
  | 0x044 => some (.key 1)
  | 0x048 => some (.key 2)
  | 0x04C => some (.key 3)
  | 0x050 => some (.key 4)
  | 0x060 => some (.nonce 0)
  | 0x064 => some (.nonce 1)
  | 0x068 => some (.nonce 2)
  | 0x06C => some (.nonce 3)
  | 0x070 => some (.tagIn 0)
  | 0x074 => some (.tagIn 1)
  | 0x078 => some (.tagIn 2)
  | 0x07C => some (.tagIn 3)
  | 0x080 => some (.tagOut 0)
  | 0x084 => some (.tagOut 1)
  | 0x088 => some (.tagOut 2)
  | 0x08C => some (.tagOut 3)
  | _ => none

/-- The offset of a register (10_state.md section 5). -/
def Reg.offset : Reg → Nat
  | .id => 0x000
  | .param => 0x004
  | .ctrl => 0x008
  | .status => 0x00C
  | .cmd => 0x010
  | .aAddr => 0x020
  | .aLen => 0x024
  | .mAddr => 0x028
  | .mLen => 0x02C
  | .dAddr => 0x030
  | .outLen => 0x034
  | .key i => 0x040 + 4 * i.val
  | .nonce i => 0x060 + 4 * i.val
  | .tagIn i => 0x070 + 4 * i.val
  | .tagOut i => 0x080 + 4 * i.val

/-- The window offset of DMEM byte 0 (R41). -/
def windowBase : Nat := 0x8000

/-- The word offset lies in the DMEM window (R41). -/
def inWindow (s : State) (o : Nat) : Bool := decide (windowBase ≤ o) && decide (o < windowBase + s.dmemSize.bytes)

/-- ID: 'A' 'S' 'C', version 0x01 (10_state.md R22). -/
def idValue : Word := 0x41534301

/-- PARAM: log2(DMEM_BYTES) in bits 4:0 (10_state.md R23). -/
def paramWord (s : State) : Word := BitVec.ofNat 32 s.dmemSize.log2

/-- The register i of a group of four. -/
def QuadRegs.get (q : QuadRegs) (i : Fin 4) : Word :=
  match i with
  | 0 => q.w0
  | 1 => q.w1
  | 2 => q.w2
  | 3 => q.w3

/-- The group with register i set. -/
def QuadRegs.set (q : QuadRegs) (i : Fin 4) (w : Word) : QuadRegs :=
  match i with
  | 0 => { q with w0 := w }
  | 1 => { q with w1 := w }
  | 2 => { q with w2 := w }
  | 3 => { q with w3 := w }

/-- The word KEY0..KEY4 hold; no host read returns it (10_state.md R28). -/
def KeyRegs.get (k : KeyRegs) (i : Fin 5) : Word :=
  match i with
  | 0 => k.k0
  | 1 => k.k1
  | 2 => k.k2
  | 3 => k.k3
  | 4 => k.k4

/-- KEY0..KEY4 with KEYi set. -/
def KeyRegs.set (k : KeyRegs) (i : Fin 5) (w : Word) : KeyRegs :=
  match i with
  | 0 => { k with k0 := w }
  | 1 => { k with k1 := w }
  | 2 => { k with k2 := w }
  | 3 => { k with k3 := w }
  | 4 => { k with k4 := w }

/-- What a host read of a register returns (10_state.md R22 to R31). KEY is write-only: it reads 0. -/
def readReg (r : Reg) (s : State) : Word :=
  match r with
  | .id => idValue
  | .param => paramWord s
  | .ctrl => ctrlWord s
  | .status => statusWord s (visiblePhase s)
  | .cmd => s.cmdLast
  | .aAddr => s.aAddr
  | .aLen => s.aLen
  | .mAddr => s.mAddr
  | .mLen => s.mLen
  | .dAddr => s.dAddr
  | .outLen => s.outLen
  | .key _ => 0
  | .nonce i => s.nonce.get i
  | .tagIn i => s.tagIn.get i
  | .tagOut i => s.tagOut.get i

/-- The bytes of a register whose strobe is set take the written ones, the others stay (R44). -/
def mergeStrobes (old v : Word) (strb : BitVec 4) : Word :=
  wordOfBytes ((List.range 4).map (fun j =>
    if strb.getLsbD j then v.extractLsb' (8 * j) 8 else old.extractLsb' (8 * j) 8))

/-- A host write of a register while BUSY = 0 (R44). ID, PARAM and TAG_OUT ignore it; a CMD write that does not issue a
command is ignored (10_state.md R26), one that does is `accessStep`'s. -/
def writeReg (r : Reg) (v : Word) (strb : BitVec 4) (s : State) : State :=
  match r with
  | .id | .param | .cmd | .tagOut _ => s
  | .ctrl => writeCtrl v strb s
  | .status => writeStatus v strb s
  | .aAddr => { s with aAddr := mergeStrobes s.aAddr v strb }
  | .aLen => { s with aLen := mergeStrobes s.aLen v strb }
  | .mAddr => { s with mAddr := mergeStrobes s.mAddr v strb }
  | .mLen => { s with mLen := mergeStrobes s.mLen v strb }
  | .dAddr => { s with dAddr := mergeStrobes s.dAddr v strb }
  | .outLen => { s with outLen := mergeStrobes s.outLen v strb }
  | .key i => { s with key := s.key.set i (mergeStrobes (s.key.get i) v strb) }
  | .nonce i => { s with nonce := s.nonce.set i (mergeStrobes (s.nonce.get i) v strb) }
  | .tagIn i => { s with tagIn := s.tagIn.set i (mergeStrobes (s.tagIn.get i) v strb) }

/-- A read of STATUS while BUSY = 1 draws one free value (log 5). -/
def countDraw (r : Reg) (s : State) : State :=
  if r = .status ∧ s.busy = true then { s with freeCount := s.freeCount + 1 } else s

/-- A host read of a register: its whole value, whatever the strobes (R44). -/
def hostReadReg (r : Reg) (s : State) : State := { countDraw r s with rdata := readReg r s }

/-- A host read of the DMEM word at address a (R42); the whole word must be written (R39). -/
def hostReadDmem (a : Nat) (s : State) : Host.Outcome State Fault Refusal :=
  if s.busy then .next { s with rdata := 0 }
  else
    match Memory.readBytes s.dmem a 4 with
    | .ok B => .next { s with rdata := wordOfBytes B }
    | .error e => .fault (.hostReadUnwritten e)

/-- A host read at word offset o (R40 to R42, R44); a reserved offset reads 0 (R32). -/
def hostRead (o : Nat) (s : State) : Host.Outcome State Fault Refusal :=
  if inWindow s o then hostReadDmem (o - windowBase) s
  else
    match Reg.ofOffset o with
    | some r => .next (hostReadReg r s)
    | none => .next { s with rdata := 0 }

/-- A host write at word offset o (R43, R44, R120); a reserved offset ignores it (R32). -/
def hostWrite (o : Nat) (v : Word) (strb : BitVec 4) (s : State) : State :=
  if s.busy then dropWrite s
  else if inWindow s o then { s with dmem := Memory.writeStrobed s.dmem (o - windowBase) v strb }
  else
    match Reg.ofOffset o with
    | some r => writeReg r v strb s
    | none => s

/-- A host access that issues no command (R40). -/
def plainAccess (a : Access) (s : State) : Host.Outcome State Fault Refusal :=
  match a.kind with
  | .read => hostRead (wordOffset a) s
  | .write => .next (hostWrite (wordOffset a) a.wdata a.strb s)

/-- The access is a write of CMD with all four strobes set (10_state.md R26). -/
def isCommandWrite (a : Access) : Bool :=
  a.kind == .write && wordOffset a == 0x010 && a.strb == 0xF

/-- A CMD write with all strobes while BUSY = 0 (R116), and the core's progress after it. The command either completes
before the next event, which is the instruction's meaning, or has been issued and has advanced by some steps. -/
def commandAccess (w : Word) (g : Gap) (s : State) : Host.Outcome State Fault Refusal :=
  match decode w with
  | .error _ => .next (issueIllegal w s)
  | .ok i =>
    match g with
    | .completes => exec i s
    | .steps n => engineSteps n (issue i s)

/-- A host access and the core's progress after it (R40, R121). -/
def accessStep (a : Access) (g : Gap) (s : State) : Host.Outcome State Fault Refusal :=
  if isCommandWrite a && !s.busy then commandAccess a.wdata g s
  else andThen (plainAccess a s) (progress g)

/-- `rd STATUS` (30_encoding.md R67). -/
def statusRead : Access := { kind := .read, offset := 0x00C, wdata := 0, strb := 0xF }

/-- One read of a poll (30_encoding.md R69): if it shows DONE = 1, its bit 1 (10_state.md R25), the poll is over; else the core
gets on, and the poll is again the next event. Log 18. -/
def pollStep (gaps : List Gap) (s : State) : Host.Outcome State Fault Refusal :=
  andThen (plainAccess statusRead s) (fun t =>
    if s.done then .next t
    else andThen (progress (gaps.headD .completes) t) (fun u => .next { u with events := .poll gaps.tail :: u.events }))

/-- One event of the outside (log 3); the events after it are those of the state. -/
def applyEvent (e : Event) (s : State) : Host.Outcome State Fault Refusal :=
  match e with
  | .access a g => accessStep a g s
  | .poll gaps => pollStep gaps s
  | .reset landed => assertReset landed s
  | .powerOn => .next (powerOn s)

/-- The host write of a command word: the access that stands where another machine fetches (R21, R26, log 10). -/
def commandWrite (w : Word) : Access := { kind := .write, offset := 0x010, wdata := w, strb := 0xF }

end Sys2Proof.Machine
end

