-- ==== Sys2Proof/Machine/Step.lean ====
section
/-! DEFINITION. One step of the machine. The core fetches nothing (10_state.md R21): a step is the next event of the
outside, or, when there is none, the core's own advance (70_reset_and_hazards.md R158.1, log 9). -/

namespace Sys2Proof.Machine

/-- The next event of the outside, which a poll that has not seen DONE = 1 puts back (30_encoding.md R69); with none left a running command advances by one position of the sequencer, and an
idle core keeps its state (60_exceptions.md R146). -/
def step (s : State) : Host.Outcome State Fault Refusal :=
  match s.events with
  | [] => engineStep s
  | e :: rest => applyEvent e { s with events := rest }

/-- The next event is the host write of this word to CMD, and the command it issues completes before the one after
(log 10). Nothing else changes: that step leaves the events that stood here. -/
def State.withFetchWord (s : State) (nbits w : Nat) : State :=
  { s with events := .access (commandWrite (tableWord nbits w)) .completes :: s.events }

end Sys2Proof.Machine
end

