-- ==== Sys2Proof/Machine/Script.lean ====
section
/-! DEFINITION. Host scripts (30_encoding.md R67 to R69): each line as the host accesses it expands to; how many reads a
`poll` makes, the reads decide (`pollStep`). The host runs a script; the core sees its accesses only (10_state.md R21). -/

namespace Sys2Proof.Machine

/-- `<target>` (R67): a register name, `DMEM+<addr>`, or a raw offset `@<offset>`. -/
inductive Target where
  | reg (r : Reg)
  | dmem (addr : Nat)
  | raw (offset : Nat)
deriving DecidableEq, Repr

/-- One line of a host script (R67 to R69). `poll` and `run` carry the schedule of their accesses: how far the core gets after
the CMD write, and after each read of STATUS that shows DONE = 0 (log 18). -/
inductive ScriptLine where
  | wr (t : Target) (v : Word) (strb : BitVec 4)
  | rd (t : Target)
  | cmd (i : Instr)
  | ldKey (K : Bytes)
  | ldNonce (N : Bytes)
  | ldTag (T : Bytes)
  | ldMem (addr : Nat) (B : Bytes)
  | setA (addr len : Word)
  | setM (addr len : Word)
  | setD (addr : Word)
  | setOut (len : Word)
  | poll (gaps : List Gap)
  | run (i : Instr) (first : Gap) (gaps : List Gap)
deriving DecidableEq, Repr

/-- The host-window offset of a target (R67). -/
def Target.offset : Target → Nat
  | .reg r => r.offset
  | .dmem a => windowBase + a
  | .raw o => o

/-- `wr` (R67). -/
def writeAccess (t : Target) (v : Word) (strb : BitVec 4) : Access :=
  { kind := .write, offset := BitVec.ofNat 16 t.offset, wdata := v, strb := strb }

/-- `rd` (R67); a read ignores data and strobes (20_memory.md R44). -/
def readAccess (t : Target) : Access :=
  { kind := .read, offset := BitVec.ofNat 16 t.offset, wdata := 0, strb := 0xF }

/-- The canonical word of an instruction's row (R64): KLEN = k of the variant, NLEN = TLEN = 16. -/
def canonical : Command → Instr
  | .digest .hash => .hash
  | .digest .hasha => .hasha
  | .digest .xof => .xof
  | .digest .xofa => .xofa
  | .digest .cxof => .cxof
  | .enc .aead128 => .enc128 16 16 16
  | .enc .aead128a => .enc128a 16 16 16
  | .enc .aead80pq => .enc80pq 20 16 16
  | .dec .aead128 => .dec128 16 16 16
  | .dec .aead128a => .dec128a 16 16 16
  | .dec .aead80pq => .dec80pq 20 16 16
  | .wipe => .wipe

/-- The words `wr <reg><i>, <bytes 4i..4i+3>` for i = 0 .. ceil(len/4)-1 (R69). -/
def loadRegs (reg : Nat → Option Reg) (B : Bytes) : List Access :=
  (List.range ((B.length + 3) / 4)).filterMap (fun i =>
    (reg i).map (fun r => writeAccess (.reg r) (wordOfBytes (slice B (4 * i) 4)) 0xF))

/-- KEYi. -/
def keyReg (i : Nat) : Option Reg := if h : i < 5 then some (.key ⟨i, h⟩) else none

/-- NONCEi. -/
def nonceReg (i : Nat) : Option Reg := if h : i < 4 then some (.nonce ⟨i, h⟩) else none

/-- TAG_INi. -/
def tagInReg (i : Nat) : Option Reg := if h : i < 4 then some (.tagIn ⟨i, h⟩) else none

/-- The strobes of a word of which only the first n bytes are present (R69). -/
def strobesOf (n : Nat) : BitVec 4 := BitVec.ofNat 4 (2 ^ min n 4 - 1)

/-- `ld.mem <addr>, <bytes>`: one write per word, the last one strobed for the bytes present (R69). -/
def loadMem (addr : Nat) (B : Bytes) : List Access :=
  (List.range ((B.length + 3) / 4)).map (fun i =>
    writeAccess (.dmem (addr + 4 * i)) (wordOfBytes (slice B (4 * i) 4)) (strobesOf (B.length - 4 * i)))

/-- An access after which the core does not advance: the host's next access comes first. That every script line but `poll` and
`run` is made of such accesses is the model's choice (DESIGN CHOICE, log 23): R121 leaves open whether a running command
advances or completes there. -/
def quickly (a : Access) : Event := .access a (.steps 0)

/-- The events one script line expands to (R67 to R69). The core does not advance after the accesses of `wr`, `rd`, `cmd`, `ld.*`
and `set.*` (log 23). -/
def ScriptLine.events : ScriptLine → List Event
  | .wr t v strb => [quickly (writeAccess t v strb)]
  | .rd t => [quickly (readAccess t)]
  | .cmd i => [quickly (commandWrite (encode i))]
  | .ldKey K => (loadRegs keyReg K).map quickly
  | .ldNonce N => (loadRegs nonceReg N).map quickly
  | .ldTag T => (loadRegs tagInReg T).map quickly
  | .ldMem addr B => (loadMem addr B).map quickly
  | .setA addr len => [quickly (writeAccess (.reg .aAddr) addr 0xF), quickly (writeAccess (.reg .aLen) len 0xF)]
  | .setM addr len => [quickly (writeAccess (.reg .mAddr) addr 0xF), quickly (writeAccess (.reg .mLen) len 0xF)]
  | .setD addr => [quickly (writeAccess (.reg .dAddr) addr 0xF)]
  | .setOut len => [quickly (writeAccess (.reg .outLen) len 0xF)]
  | .poll gaps => [.poll gaps]
  | .run i first gaps => [.access (commandWrite (encode i)) first, .poll gaps]

/-- A host script as the events it expands to (10_state.md R21). -/
def scriptEvents (lines : List ScriptLine) : List Event := lines.flatMap ScriptLine.events

end Sys2Proof.Machine
end

