-- ==== Sys2Proof/Safety.lean ====
section
/-! DEFINITION. The terms claims are stated in: runs, the invariant of the core, and what a command leaves. -/

namespace Sys2Proof.Machine

/-- The events of a list without a poll, one after the other (20_memory.md R40). A poll is run by `stepN`: until it ends it stays
in State.events. -/
def runEvents : List Event → State → Host.Outcome State Fault Refusal
  | [], s => .next s
  | e :: es, s => andThen (applyEvent e s) (runEvents es)

/-- n steps of the machine. -/
def stepN : Nat → State → Host.Outcome State Fault Refusal
  | 0, s => .next s
  | n + 1, s => andThen (step s) (stepN n)

/-- A host access before which and after which the core does not advance. -/
def hostStep (a : Access) (s : State) : Host.Outcome State Fault Refusal := accessStep a (.steps 0) s

/-- An outcome with its next state changed. -/
def mapNext (f : State → State) (o : Host.Outcome State Fault Refusal) : Host.Outcome State Fault Refusal :=
  andThen o (fun s => .next (f s))

/-- A region lies in DMEM, or is empty (60_exceptions.md R132); addresses and lengths are unbounded here. -/
abbrev fits (s : State) (addr len : Nat) : Prop := len = 0 ∨ addr + len ≤ s.dmemSize.bytes

/-- The regions a command reads (20_memory.md R51). -/
def inputRegions (c : Command) (s : State) : List Region :=
  match c with
  | .digest .cxof => [aRegion s, mRegion s]
  | .digest _ => [mRegion s]
  | .enc _ | .dec _ => [aRegion s, mRegion s]
  | .wipe => []

/-- The ENC command of a variant, with the lengths its word declares. -/
def encInstr (v : DuplexVariant) (klen nlen tlen : Nat) : Instr :=
  match v with
  | .aead128 => .enc128 klen nlen tlen
  | .aead128a => .enc128a klen nlen tlen
  | .aead80pq => .enc80pq klen nlen tlen

/-- The DEC command of a variant, with the lengths its word declares. -/
def decInstr (v : DuplexVariant) (klen nlen tlen : Nat) : Instr :=
  match v with
  | .aead128 => .dec128 klen nlen tlen
  | .aead128a => .dec128a klen nlen tlen
  | .aead80pq => .dec80pq klen nlen tlen

/-- The DIGEST command of a variant. -/
def digestInstr : SpongeVariant → Instr
  | .hash => .hash
  | .hasha => .hasha
  | .xof => .xof
  | .xofa => .xofa
  | .cxof => .cxof

/-- `Encrypt` of what the registers of s hold, with associated data A and plaintext P (42_duplex.md R108). -/
def encryptOf (v : DuplexVariant) (s : State) (A P : Bytes) : Bytes × Bytes :=
  encrypt v (keyOperand v s) (nonceOperand s) A P

/-- `Decrypt` of what the registers of s hold, with associated data A and ciphertext C (42_duplex.md R109). -/
def decryptOf (v : DuplexVariant) (s : State) (A C : Bytes) : Bool × Bytes :=
  decrypt v (keyOperand v s) (nonceOperand s) A C (tagOperand s)

/-- What the completion of the accepted command of i leaves beside its own results (43_control.md R117, R118): CMD_LAST
holds its word, TAG_OUT was cleared, nothing is running. -/
def finished (i : Instr) (p : Phase) (s : State) : State :=
  { s with
    x := PState.zero
    busy := false
    done := true
    authOk := false
    err := .noError
    phase := p
    cmdLast := encode i
    tagOut := QuadRegs.zero
    cur := none
    seq := []
    tCalc := none
    ok := none }

/-- Every register and internal state at its reset value (10_state.md R36), with DMEM d; DMEM_BYTES and the model's own
fields are those of s. -/
def afterReset (d : Memory) (s : State) : State :=
  { State.reset with
    dmemSize := s.dmemSize, dmem := d, rdata := s.rdata, freeCount := s.freeCount, events := s.events }

/-- The phases STATUS shows while BUSY = 0 (10_state.md R34): IDLE and the terminal ones. -/
def idlePhases : List Phase := [.idle, .spDone, .dxTagged, .dxVerified, .dxFailed, .wiped, .rejected]

/-- A core that runs nothing: the permutation state is zero (10_state.md R18), nothing of a command is left (R33), PHASE
is terminal (R34), an error is a rejection (60_exceptions.md R134), and AUTH_OK is a DEC that matched (R25). -/
structure IdleClean (s : State) : Prop where
  x : s.x = PState.zero
  cur : s.cur = none
  seq : s.seq = []
  tCalc : s.tCalc = none
  ok : s.ok = none
  phase : s.phase ∈ idlePhases
  err : s.err ≠ .noError ↔ s.phase = .rejected
  authOk : s.authOk = true ↔ s.phase = .dxVerified

/-- A core that runs the command c: the flags as acceptance left them (43_control.md R117), PHASE a running one of its
family (10_state.md R34), its regions checked (60_exceptions.md R126), SEQ at a position of its sequence, and past the
final position T_CALC, and for DEC also OK, are held (10_state.md R33). -/
structure RunningClean (c : Command) (s : State) : Prop where
  cur : s.cur = some c
  done : s.done = false
  err : s.err = .noError
  authOk : s.authOk = false
  tagOut : s.tagOut = QuadRegs.zero
  phase : s.phase ∈ runningPhases c
  range : regionsInRange c s = true
  overlap : overlapChecked c = true → overlaps s = false
  seq : s.seq <:+ opsFor c s
  tag : overlapChecked c = true → SeqOp.dxFinal ∉ s.seq → ∃ T, s.tCalc = some T ∧ T.length = 16
  ok : (∃ v, c = .dec v) → SeqOp.dxFinal ∉ s.seq → s.ok.isSome = true

/-- The invariant of the core: DMEM is in its canonical form and inside its size, and the core is idle or runs one
command. -/
structure Inv (s : State) : Prop where
  memoryWf : Memory.wf s.dmem
  memoryBounded : ∀ cell ∈ s.dmem, cell.1 < s.dmemSize.bytes
  idle : s.busy = false → IdleClean s
  running : s.busy = true → ∃ c, RunningClean c s

/-- An operand register (10_state.md R19) and the value it holds; no other register has one here. -/
def Reg.operand (r : Reg) (s : State) : Option Word :=
  match r with
  | .id | .param | .ctrl | .status | .cmd | .tagOut _ => none
  | .aAddr => some s.aAddr
  | .aLen => some s.aLen
  | .mAddr => some s.mAddr
  | .mLen => some s.mLen
  | .dAddr => some s.dAddr
  | .outLen => some s.outLen
  | .key i => some (s.key.get i)
  | .nonce i => some (s.nonce.get i)
  | .tagIn i => some (s.tagIn.get i)

end Sys2Proof.Machine
end

