-- ==== Sys2Proof/Certificates/Slice0/Obligations.lean ====
section
/-! DEFINITION. The statements about the core, from the numbered rules of spec/: the command word, issue and rejection,
completion and frame of every command, the host port, the sequencer, reset, the algorithm, and the invariant. -/

open Sys2Proof Sys2Proof.Machine

/-! The command word (30_encoding.md) -/

/-- Every well-formed command, with every value its length fields admit, is the decoding of its own word (30_encoding.md
R58, R60, R64). -/
def Obligations.DecodeEncodeRoundTrip : Prop :=
  ∀ i : Instr, i.wellFormed = true → decode (encode i) = .ok i

/-- A word that decodes is the only word of its command, so no bit of it is dropped (30_encoding.md R58, R60, R66). -/
def Obligations.DecodedWordReencodes : Prop :=
  ∀ (w : Word) (i : Instr), decode w = .ok i → i.wellFormed = true ∧ encode i = w

/-- A word names the command of a row of the opcode map exactly when `(w & mask) = match` (30_encoding.md R64). -/
def Obligations.DecodeFollowsOpcodeMap : Prop :=
  ∀ (w : Word) (c : Command), (w &&& c.rowMask = c.rowMatch) ↔ ∃ i, decode w = .ok i ∧ i.command = c

/-- The canonical words of 30_encoding.md R64 and the example of R68 decode to their commands. -/
def Obligations.SpecWordsDecode : Prop :=
  decode 0x00000001 = .ok .hash ∧ decode 0x00000011 = .ok .hasha ∧ decode 0x00000021 = .ok .xof ∧
  decode 0x00000031 = .ok .xofa ∧ decode 0x00000041 = .ok .cxof ∧ decode 0x10101052 = .ok (.enc128 16 16 16) ∧
  decode 0x10101062 = .ok (.enc128a 16 16 16) ∧ decode 0x10101472 = .ok (.enc80pq 20 16 16) ∧
  decode 0x10101053 = .ok (.dec128 16 16 16) ∧ decode 0x10101063 = .ok (.dec128a 16 16 16) ∧
  decode 0x10101473 = .ok (.dec80pq 20 16 16) ∧ decode 0x00000004 = .ok .wipe ∧
  decode 0x10101452 = .ok (.enc128 20 16 16)

/-- Exactly the words of 30_encoding.md R65 are illegal, and issuing one is the rejection ILLEGAL_CMD, whatever its length
fields say (60_exceptions.md R127, R134). -/
def Obligations.IllegalWordsAreRejected : Prop :=
  ∀ w : Word,
    let op := (w.extractLsb' 0 4).toNat
    let var := (w.extractLsb' 4 3).toNat
    let reserved := w.getLsbD 7 = true ∨ w.extractLsb' 13 3 ≠ 0 ∨ w.extractLsb' 21 3 ≠ 0 ∨ w.extractLsb' 29 3 ≠ 0
    let lengths := w.extractLsb' 8 5 ≠ 0 ∨ w.extractLsb' 16 5 ≠ 0 ∨ w.extractLsb' 24 5 ≠ 0
    ((∃ e, decode w = .error e) ↔
      reserved ∨ op = 0 ∨ 5 ≤ op ∨ (op = 1 ∧ 5 ≤ var) ∨ ((op = 2 ∨ op = 3) ∧ var ≤ 4) ∨ (op = 4 ∧ var ≠ 0) ∨
        ((op = 1 ∨ op = 4) ∧ lengths)) ∧
    ((∃ e, decode w = .error e) ↔ ∀ c : Command, w &&& c.rowMask ≠ c.rowMatch) ∧
    ∀ (s : State) (g : Gap), s.busy = false → (∃ e, decode w = .error e) →
      accessStep (commandWrite w) g s =
        .next { s with cmdLast := w, err := .illegalCmd, done := true, authOk := false, phase := .rejected }

/-! Steps, issue, rejection and acceptance (43_control.md, 60_exceptions.md) -/

/-- A write of a command word to CMD with all strobes, at any byte offset of CMD, while nothing runs: the step is the
command's meaning, or its issue and n positions of the sequencer, as the schedule says (43_control.md R116, R121). The model's
own in it: the list of events, the first of which a step takes off (log 3); the gap after an access, `completes` or a number of
positions (log 4); the CMD write that withFetchWord puts first, in place of a fetch (log 10, 10_state.md R21); the meaning as
the whole command in one step (log 20); and that a step with no event left is one step of the sequencer (log 9, a DESIGN
CHOICE). -/
def Obligations.StepRunsDecodedCommand : Prop :=
  (∀ (s : State) (a : Access) (i : Instr) (rest : List Event), s.busy = false → a.kind = .write →
    a.offset.toNat / 4 = 4 → a.strb = 0xF → decode a.wdata = .ok i →
    (s.events = .access a .completes :: rest → step s = exec i { s with events := rest }) ∧
    (∀ n, s.events = .access a (.steps n) :: rest → step s = engineSteps n (issue i { s with events := rest }))) ∧
  (∀ (s : State) (nbits w : Nat) (i : Instr), s.busy = false → decodeTableWord nbits w = some i →
    step (s.withFetchWord nbits w) = exec i s) ∧
  (∀ s : State, s.events = [] → step s = engineStep s)

/-- A command word written while another command runs changes BUSY_ERR only (43_control.md R119, R120). -/
def Obligations.BusyCommandIsDropped : Prop :=
  ∀ (i : Instr) (s : State), s.busy = true → exec i s = .next { s with busyErr := true }

/-- Rejection: ERR, DONE, AUTH_OK, PHASE and CMD_LAST, and nothing else, with a code from 1 to 6 (60_exceptions.md
R134). An instruction that declares a length above 31 is the word of no command: that it too is rejected, with CMD_LAST its
truncated word `encode i`, is the model's choice (log 17). -/
def Obligations.RejectionEffect : Prop :=
  (∀ (i : Instr) (s : State), s.busy = false → check i s ≠ .noError →
    1 ≤ (check i s).code ∧ (check i s).code ≤ 6 ∧
    exec i s =
      .next { s with
        cmdLast := encode i, err := check i s, done := true, authOk := false, phase := .rejected }) ∧
  ∀ (w : Word) (e : DecodeError) (g : Gap) (s : State), s.busy = false → decode w = .error e →
    accessStep (commandWrite w) g s =
      .next { s with cmdLast := w, err := .illegalCmd, done := true, authOk := false, phase := .rejected }

/-- The checks, in their order, each with the condition of its rule, written out over the registers
(60_exceptions.md R126, with the conditions of R128 to R133). -/
def Obligations.CheckOrder : Prop :=
  (∀ (w : Word) (e : DecodeError) (s : State), s.busy = false → decode w = .error e →
    ∃ t, hostStep (commandWrite w) s = .next t ∧ t.err = .illegalCmd) ∧
  (∀ (v : DuplexVariant) (k n t : Nat) (i : Instr) (s : State), i = encInstr v k n t ∨ i = decInstr v k n t →
    check i s =
      if k ≠ (if v = .aead80pq then 20 else 16) then .keyLen
      else if n ≠ 16 then .nonceLen
      else if t ≠ 16 then .tagLen
      else if ¬(fits s s.aAddr.toNat s.aLen.toNat ∧ fits s s.mAddr.toNat s.mLen.toNat ∧
          fits s s.dAddr.toNat s.mLen.toNat) then .range
      else if 0 < s.mLen.toNat ∧ s.mAddr.toNat < s.dAddr.toNat ∧ s.dAddr.toNat < s.mAddr.toNat + s.mLen.toNat then
        .overlap
      else .noError) ∧
  (∀ s : State, check .hash s =
    if fits s s.mAddr.toNat s.mLen.toNat ∧ fits s s.dAddr.toNat 32 then .noError else .range) ∧
  (∀ s : State, check .hasha s =
    if fits s s.mAddr.toNat s.mLen.toNat ∧ fits s s.dAddr.toNat 32 then .noError else .range) ∧
  (∀ s : State, check .xof s =
    if fits s s.mAddr.toNat s.mLen.toNat ∧ fits s s.dAddr.toNat s.outLen.toNat then .noError else .range) ∧
  (∀ s : State, check .xofa s =
    if fits s s.mAddr.toNat s.mLen.toNat ∧ fits s s.dAddr.toNat s.outLen.toNat then .noError else .range) ∧
  (∀ s : State, check .cxof s =
    if fits s s.aAddr.toNat s.aLen.toNat ∧ fits s s.mAddr.toNat s.mLen.toNat ∧ fits s s.dAddr.toNat s.outLen.toNat then
      .noError
    else .range) ∧
  ∀ s : State, check .wipe s = .noError

/-- Acceptance, in the step of the CMD write: the fields of 43_control.md R117, and BUSY_ERR, CTRL, the operand registers
and DMEM as they were. SEQ is the model's form of the sequencer's position (log 7). -/
def Obligations.AcceptanceEffect : Prop :=
  ∀ (w : Word) (i : Instr) (s : State), s.busy = false → decode w = .ok i → check i s = .noError →
    hostStep (commandWrite w) s =
      .next { s with
        cmdLast := w
        err := .noError
        done := false
        authOk := false
        tagOut := QuadRegs.zero
        busy := true
        phase := match i.command with
          | .digest _ => .spInit
          | .enc _ | .dec _ => .dxInit
          | .wipe => .wiping
        cur := some i.command
        seq := opsFor i.command s
        tCalc := none
        ok := none }

/-! Completion of every command (41_sponge.md, 42_duplex.md, 43_control.md R118, R122) -/

/-- HASH and HASHA complete on every readable message with the message and the 32-byte digest region in range: the
digest of the message as it stood at acceptance is written to D (41_sponge.md R90, R91, 20_memory.md R52). -/
def Obligations.HashAndHashaComplete : Prop :=
  ∀ (s : State) (M : Bytes), s.busy = false → fits s s.mAddr.toNat s.mLen.toNat →
    s.dAddr.toNat + 32 ≤ s.dmemSize.bytes → Memory.readBytes s.dmem s.mAddr.toNat s.mLen.toNat = .ok M →
    exec .hash s =
      .next { finished .hash .spDone s with
        dmem := Memory.writeBytes s.dmem s.dAddr.toNat (sponge .hash M [] 32) } ∧
    exec .hasha s =
      .next { finished .hasha .spDone s with
        dmem := Memory.writeBytes s.dmem s.dAddr.toNat (sponge .hasha M [] 32) }

/-- XOF and XOFA complete in the same way with OUT_LEN bytes of output, none when OUT_LEN = 0 (41_sponge.md R92,
R93). -/
def Obligations.XofAndXofaComplete : Prop :=
  ∀ (s : State) (M : Bytes), s.busy = false → fits s s.mAddr.toNat s.mLen.toNat →
    fits s s.dAddr.toNat s.outLen.toNat → Memory.readBytes s.dmem s.mAddr.toNat s.mLen.toNat = .ok M →
    exec .xof s =
      .next { finished .xof .spDone s with
        dmem := Memory.writeBytes s.dmem s.dAddr.toNat (sponge .xof M [] s.outLen.toNat) } ∧
    exec .xofa s =
      .next { finished .xofa .spDone s with
        dmem := Memory.writeBytes s.dmem s.dAddr.toNat (sponge .xofa M [] s.outLen.toNat) }

/-- CXOF completes with the customization string of (A_ADDR, A_LEN) (41_sponge.md R94). -/
def Obligations.CxofCompletes : Prop :=
  ∀ (s : State) (M Z : Bytes), s.busy = false → fits s s.aAddr.toNat s.aLen.toNat →
    fits s s.mAddr.toNat s.mLen.toNat → fits s s.dAddr.toNat s.outLen.toNat →
    Memory.readBytes s.dmem s.mAddr.toNat s.mLen.toNat = .ok M →
    Memory.readBytes s.dmem s.aAddr.toNat s.aLen.toNat = .ok Z →
    exec .cxof s =
      .next { finished .cxof .spDone s with
        dmem := Memory.writeBytes s.dmem s.dAddr.toNat (sponge .cxof M Z s.outLen.toNat) }

/-- ENC.128, ENC.128A and ENC.80PQ complete: ciphertext, as long as the plaintext, to D; the 16-byte tag to TAG_OUT; KEY
cleared (42_duplex.md R108, R110 to R112). -/
def Obligations.EncCommandsComplete : Prop :=
  ∀ (v : DuplexVariant) (i : Instr) (s : State) (A P : Bytes),
    i = encInstr v (if v = .aead80pq then 20 else 16) 16 16 → s.busy = false →
    fits s s.aAddr.toNat s.aLen.toNat → fits s s.mAddr.toNat s.mLen.toNat → fits s s.dAddr.toNat s.mLen.toNat →
    ¬(s.mAddr.toNat < s.dAddr.toNat ∧ s.dAddr.toNat < s.mAddr.toNat + s.mLen.toNat) →
    Memory.readBytes s.dmem s.aAddr.toNat s.aLen.toNat = .ok A →
    Memory.readBytes s.dmem s.mAddr.toNat s.mLen.toNat = .ok P →
    exec i s =
      .next { finished i .dxTagged s with
        key := KeyRegs.zero
        tagOut := quadOfBytes (encryptOf v s A P).2
        dmem := Memory.writeBytes s.dmem s.dAddr.toNat (encryptOf v s A P).1 } ∧
    (encryptOf v s A P).1.length = P.length ∧ (encryptOf v s A P).2.length = 16

/-- DEC.128, DEC.128A and DEC.80PQ complete, whether or not the tag matches: plaintext or as many zeros to D, the result in
AUTH_OK and PHASE, KEY cleared, TAG_OUT left 0 (42_duplex.md R109, R113 to R115, R103). -/
def Obligations.DecCommandsComplete : Prop :=
  ∀ (v : DuplexVariant) (i : Instr) (s : State) (A C : Bytes),
    i = decInstr v (if v = .aead80pq then 20 else 16) 16 16 → s.busy = false →
    fits s s.aAddr.toNat s.aLen.toNat → fits s s.mAddr.toNat s.mLen.toNat → fits s s.dAddr.toNat s.mLen.toNat →
    ¬(s.mAddr.toNat < s.dAddr.toNat ∧ s.dAddr.toNat < s.mAddr.toNat + s.mLen.toNat) →
    Memory.readBytes s.dmem s.aAddr.toNat s.aLen.toNat = .ok A →
    Memory.readBytes s.dmem s.mAddr.toNat s.mLen.toNat = .ok C →
    exec i s =
      .next { finished i (if (decryptOf v s A C).1 then .dxVerified else .dxFailed) s with
        authOk := (decryptOf v s A C).1
        key := KeyRegs.zero
        dmem := Memory.writeBytes s.dmem s.dAddr.toNat (decryptOf v s A C).2 } ∧
    (decryptOf v s A C).2.length = C.length ∧
    ((decryptOf v s A C).1 = false → (decryptOf v s A C).2 = zeros C.length)

/-- WIPE completes in every idle state: KEY, NONCE, TAG_IN and TAG_OUT are 0 and every DMEM byte is written and 0; the
operand registers and CTRL stay (43_control.md R122). The moment the three register groups are cleared, the completion
step, is the model's choice (log 13). -/
def Obligations.WipeCompletes : Prop :=
  ∀ s : State, s.busy = false →
    ∃ d, exec .wipe s =
        .next { finished .wipe .wiped s with
          key := KeyRegs.zero, nonce := QuadRegs.zero, tagIn := QuadRegs.zero, dmem := d } ∧
      (∀ a, a < s.dmemSize.bytes → Memory.byteAt d a = some 0) ∧
      ∀ a, s.dmemSize.bytes ≤ a → Memory.byteAt d a = Memory.byteAt s.dmem a

/-! Frames: what a command leaves unchanged whenever it answers a next state -/

/-- HASH, HASHA, XOF, XOFA and CXOF: CTRL, the address and length registers, KEY, NONCE and TAG_IN, and every byte outside
the output region stay. BUSY_ERR changes only when the word was dropped (41_sponge.md section 2, 10_state.md R27 to R30,
43_control.md R117, R120). -/
def Obligations.DigestFrame : Prop :=
  ∀ (v : SpongeVariant) (s t : State), exec (digestInstr v) s = .next t →
    t = { s with
      x := t.x, busy := t.busy, done := t.done, authOk := t.authOk, busyErr := t.busyErr, err := t.err,
      phase := t.phase, cmdLast := t.cmdLast, tagOut := t.tagOut, cur := t.cur, seq := t.seq, tCalc := t.tCalc,
      ok := t.ok, dmem := t.dmem } ∧
    (s.busy = false → t.busyErr = s.busyErr) ∧
    ∀ a, a < (outputRegion (.digest v) s).1 ∨ (outputRegion (.digest v) s).1 + (outputRegion (.digest v) s).2 ≤ a →
      Memory.byteAt t.dmem a = Memory.byteAt s.dmem a

/-- ENC.128, ENC.128A and ENC.80PQ, with any declared lengths: beside what a DIGEST command may change, KEY only
(42_duplex.md R108). -/
def Obligations.EncFrame : Prop :=
  ∀ (v : DuplexVariant) (klen nlen tlen : Nat) (s t : State), exec (encInstr v klen nlen tlen) s = .next t →
    t = { s with
      x := t.x, busy := t.busy, done := t.done, authOk := t.authOk, busyErr := t.busyErr, err := t.err,
      phase := t.phase, cmdLast := t.cmdLast, key := t.key, tagOut := t.tagOut, cur := t.cur, seq := t.seq,
      tCalc := t.tCalc, ok := t.ok, dmem := t.dmem } ∧
    (s.busy = false → t.busyErr = s.busyErr) ∧
    ∀ a, a < (outputRegion (.enc v) s).1 ∨ (outputRegion (.enc v) s).1 + (outputRegion (.enc v) s).2 ≤ a →
      Memory.byteAt t.dmem a = Memory.byteAt s.dmem a

/-- DEC.128, DEC.128A and DEC.80PQ, with any declared lengths: as ENC, and TAG_OUT never takes the computed tag, it keeps
its value or is 0 (42_duplex.md R109, 10_state.md R31). -/
def Obligations.DecFrame : Prop :=
  ∀ (v : DuplexVariant) (klen nlen tlen : Nat) (s t : State), exec (decInstr v klen nlen tlen) s = .next t →
    t = { s with
      x := t.x, busy := t.busy, done := t.done, authOk := t.authOk, busyErr := t.busyErr, err := t.err,
      phase := t.phase, cmdLast := t.cmdLast, key := t.key, tagOut := t.tagOut, cur := t.cur, seq := t.seq,
      tCalc := t.tCalc, ok := t.ok, dmem := t.dmem } ∧
    (s.busy = false → t.busyErr = s.busyErr) ∧
    (t.tagOut = s.tagOut ∨ t.tagOut = QuadRegs.zero) ∧
    ∀ a, a < (outputRegion (.dec v) s).1 ∨ (outputRegion (.dec v) s).1 + (outputRegion (.dec v) s).2 ≤ a →
      Memory.byteAt t.dmem a = Memory.byteAt s.dmem a

/-- WIPE: CTRL and the address and length registers stay, and no byte outside DMEM is touched (43_control.md R122). -/
def Obligations.WipeFrame : Prop :=
  ∀ s t : State, exec .wipe s = .next t →
    t = { s with
      x := t.x, busy := t.busy, done := t.done, authOk := t.authOk, busyErr := t.busyErr, err := t.err,
      phase := t.phase, cmdLast := t.cmdLast, key := t.key, nonce := t.nonce, tagIn := t.tagIn, tagOut := t.tagOut,
      cur := t.cur, seq := t.seq, tCalc := t.tCalc, ok := t.ok, dmem := t.dmem } ∧
    (s.busy = false → t.busyErr = s.busyErr) ∧
    ∀ a, a < (outputRegion .wipe s).1 ∨ (outputRegion .wipe s).1 + (outputRegion .wipe s).2 ≤ a →
      Memory.byteAt t.dmem a = Memory.byteAt s.dmem a

/-- The registers a command does not use do not matter to it: with other values in them it leaves the same state but for
those values (the `ignored` entries of 10_state.md R19; KEY4 for a 16-byte key, R20). -/
def Obligations.IgnoredOperandsDoNotMatter : Prop :=
  ∀ (s : State) (aAddr aLen outLen : Word) (key : KeyRegs) (nonce tagIn : QuadRegs),
    (∀ i, i = Instr.hash ∨ i = Instr.hasha →
      exec i { s with aAddr := aAddr, aLen := aLen, outLen := outLen, key := key, nonce := nonce, tagIn := tagIn } =
        mapNext (fun t =>
          { t with aAddr := aAddr, aLen := aLen, outLen := outLen, key := key, nonce := nonce, tagIn := tagIn })
          (exec i s)) ∧
    (∀ i, i = Instr.xof ∨ i = Instr.xofa →
      exec i { s with aAddr := aAddr, aLen := aLen, key := key, nonce := nonce, tagIn := tagIn } =
        mapNext (fun t => { t with aAddr := aAddr, aLen := aLen, key := key, nonce := nonce, tagIn := tagIn })
          (exec i s)) ∧
    exec .cxof { s with key := key, nonce := nonce, tagIn := tagIn } =
      mapNext (fun t => { t with key := key, nonce := nonce, tagIn := tagIn }) (exec .cxof s) ∧
    (∀ v k n l, exec (encInstr v k n l) { s with outLen := outLen, tagIn := tagIn } =
      mapNext (fun t => { t with outLen := outLen, tagIn := tagIn }) (exec (encInstr v k n l) s)) ∧
    (∀ v k n l, exec (decInstr v k n l) { s with outLen := outLen } =
      mapNext (fun t => { t with outLen := outLen }) (exec (decInstr v k n l) s)) ∧
    ∀ v (A D : Bytes), v ≠ DuplexVariant.aead80pq →
      encryptOf v { s with key := { s.key with k4 := key.k4 } } A D = encryptOf v s A D ∧
      decryptOf v { s with key := { s.key with k4 := key.k4 } } A D = decryptOf v s A D

/-! The host port (20_memory.md, 10_state.md section 5) -/

/-- ID reads 0x41534301, PARAM reads log2(DMEM_BYTES), from 8 to 15, and writes to both are ignored (10_state.md R22,
R23). -/
def Obligations.IdAndParamAreConstant : Prop :=
  ∀ (s : State) (a : Access),
    (a.kind = .read → a.offset.toNat / 4 = 0 → hostStep a s = .next { s with rdata := 0x41534301 }) ∧
    (a.kind = .read → a.offset.toNat / 4 = 1 → ∃ w : Word, hostStep a s = .next { s with rdata := w } ∧
      2 ^ (w.extractLsb' 0 5).toNat = s.dmemSize.bytes ∧ w.extractLsb' 5 27 = 0 ∧ 8 ≤ w.toNat ∧ w.toNat ≤ 15) ∧
    (a.kind = .write → a.offset.toNat / 4 ≤ 1 → s.busy = false → hostStep a s = .next s)

/-- KEY0..KEY4: every read returns 0; a write of all strobes sets all 32 bits; they reset to 0; an accepted ENC, DEC or WIPE
clears them and a rejected command leaves them (10_state.md R28). -/
def Obligations.KeyRegistersAreWriteOnly : Prop :=
  (∀ (s : State) (a : Access) (k : Fin 5), a.offset.toNat / 4 = 0x10 + k.val →
    (a.kind = .read → hostStep a s = .next { s with rdata := 0 }) ∧
    (a.kind = .write → a.strb = 0xF → s.busy = false →
      ∃ t, hostStep a s = .next t ∧ t.key.get k = a.wdata ∧ ∀ m, m ≠ k → t.key.get m = s.key.get m)) ∧
  State.reset.key = ⟨0, 0, 0, 0, 0⟩ ∧
  (∀ (i : Instr) (s t : State), s.busy = false → exec i s = .next t → (∀ v, i.command ≠ .digest v) →
    (check i s = .noError → t.key = ⟨0, 0, 0, 0, 0⟩) ∧ (check i s ≠ .noError → t.key = s.key))

/-- A host write of an operand register while BUSY = 0 replaces the bytes whose strobe is set, keeps its other bytes, and
changes nothing else; a read returns the whole register, KEY reading 0, in every state and whatever the strobes
(20_memory.md R44, 10_state.md R27 to R30). TAG_OUT0..3 are read-only: a read returns the register, in every state, and a write
while BUSY = 0 changes nothing (10_state.md R31). -/
def Obligations.OperandRegisterAccess : Prop :=
  (∀ (s : State) (a : Access) (r : Reg) (w : Word), r.operand s = some w → a.offset.toNat / 4 * 4 = r.offset →
    (a.kind = .write → s.busy = false →
      ∃ t w', hostStep a s = .next t ∧ r.operand t = some w' ∧
        (∀ j, j < 4 → w'.extractLsb' (8 * j) 8 =
          if a.strb.getLsbD j then a.wdata.extractLsb' (8 * j) 8 else w.extractLsb' (8 * j) 8) ∧
        (∀ r' : Reg, r' ≠ r → r'.operand t = r'.operand s) ∧
        t = { s with
          aAddr := t.aAddr, aLen := t.aLen, mAddr := t.mAddr, mLen := t.mLen, dAddr := t.dAddr, outLen := t.outLen,
          key := t.key, nonce := t.nonce, tagIn := t.tagIn }) ∧
    (a.kind = .read →
      hostStep a s = .next { s with rdata := match r with | .key _ => 0 | _ => w })) ∧
  ∀ (s : State) (a : Access) (k : Fin 4), a.offset.toNat / 4 * 4 = 0x080 + 4 * k.val →
    (a.kind = .read → hostStep a s = .next { s with rdata := s.tagOut.get k }) ∧
    (a.kind = .write → s.busy = false → hostStep a s = .next s)

/-- A reserved offset reads 0 and ignores a write, which sets BUSY_ERR while BUSY = 1 (10_state.md R32). -/
def Obligations.ReservedOffsets : Prop :=
  ∀ (s : State) (a : Access),
    ((0x014 ≤ a.offset.toNat ∧ a.offset.toNat ≤ 0x01F) ∨ (0x038 ≤ a.offset.toNat ∧ a.offset.toNat ≤ 0x03F) ∨
      (0x054 ≤ a.offset.toNat ∧ a.offset.toNat ≤ 0x05F) ∨ (0x090 ≤ a.offset.toNat ∧ a.offset.toNat ≤ 0x7FFF) ∨
      0x8000 + s.dmemSize.bytes ≤ a.offset.toNat) →
    (a.kind = .read → hostStep a s = .next { s with rdata := 0 }) ∧
    (a.kind = .write → s.busy = false → hostStep a s = .next s) ∧
    (a.kind = .write → s.busy = true → hostStep a s = .next { s with busyErr := true })

/-- A write of STATUS while BUSY = 0 clears DONE and BUSY_ERR where a 1 is written in a strobed byte, and changes nothing
else (10_state.md R25, 20_memory.md R44). -/
def Obligations.StatusWriteOneToClear : Prop :=
  ∀ (s : State) (a : Access), a.kind = .write → a.offset.toNat / 4 = 3 → s.busy = false →
    hostStep a s =
      .next { s with
        done := s.done && !(a.strb.getLsbD 0 && a.wdata.getLsbD 1)
        busyErr := s.busyErr && !(a.strb.getLsbD 0 && a.wdata.getLsbD 3) }

/-- The fields of STATUS as a read returns them (10_state.md R25, R34): PHASE is the held phase while BUSY = 0, and while a
command runs some non-terminal phase of its family, drawn by the model (log 5); code 0xF and ERR 7 to 15 are never
read. -/
def Obligations.StatusReadLayout : Prop :=
  ∀ (s : State) (a : Access), a.kind = .read → a.offset.toNat / 4 = 3 →
    ∃ (t : State) (p : Phase), hostStep a s = .next t ∧ t = { s with rdata := t.rdata, freeCount := t.freeCount } ∧
      t.rdata.getLsbD 0 = s.busy ∧ t.rdata.getLsbD 1 = s.done ∧ t.rdata.getLsbD 2 = s.authOk ∧
      t.rdata.getLsbD 3 = s.busyErr ∧ (t.rdata.extractLsb' 4 4).toNat = s.err.code ∧ s.err.code ≤ 6 ∧
      (t.rdata.extractLsb' 8 4).toNat = p.code ∧ p.code ≤ 14 ∧ t.rdata.extractLsb' 12 20 = 0 ∧
      (s.busy = false → p = s.phase) ∧
      (s.busy = true → ∀ c, s.cur = some c → p ∈ match c with
        | .digest _ => [Phase.spInit, .spAbsorb, .spSqueeze]
        | .enc _ | .dec _ => [Phase.dxInit, .dxAd, .dxText, .dxFinal]
        | .wipe => [Phase.wiping])

/-- CMD: a read returns CMD_LAST; a write with a strobe clear is ignored; a write with all four strobes, while BUSY = 0,
stores the word in CMD_LAST and issues it; CMD_LAST resets to 0 (10_state.md R26). -/
def Obligations.CmdRegister : Prop :=
  (∀ (s : State) (a : Access), a.offset.toNat / 4 = 4 →
    (a.kind = .read → hostStep a s = .next { s with rdata := s.cmdLast }) ∧
    (a.kind = .write → s.busy = false → a.strb ≠ 0xF → hostStep a s = .next s) ∧
    (a.kind = .write → s.busy = false → a.strb = 0xF →
      ∃ t, hostStep a s = .next t ∧ t.cmdLast = a.wdata ∧
        t = match decode a.wdata with
          | .ok i => issue i s
          | .error _ => issueIllegal a.wdata s)) ∧
  State.reset.cmdLast = 0

/-- CTRL.IRQ_EN is bit 0 of CTRL, the only bit it has; irq is IRQ_EN & DONE, so with IRQ_EN = 1 every completion and every
rejection raises it, and acceptance, a 1 written to DONE, or IRQ_EN = 0 clears it (10_state.md R24, R35,
60_exceptions.md R137). -/
def Obligations.InterruptFollowsDone : Prop :=
  (∀ (s : State) (a : Access), a.offset.toNat / 4 = 2 →
    (a.kind = .read → hostStep a s = .next { s with rdata := if s.irqEn then 1 else 0 }) ∧
    (a.kind = .write → s.busy = false →
      hostStep a s = .next { s with irqEn := if a.strb.getLsbD 0 then a.wdata.getLsbD 0 else s.irqEn })) ∧
  (∀ (i : Instr) (s t : State), s.busy = false → exec i s = .next t → irqOutput t = s.irqEn) ∧
  (∀ (i : Instr) (s : State), check i s = .noError → irqOutput (issue i s) = false) ∧
  (∀ (s : State) (a : Access), a.kind = .write → a.offset.toNat / 4 = 3 → s.busy = false → a.strb.getLsbD 0 = true →
    a.wdata.getLsbD 1 = true → ∃ t, hostStep a s = .next t ∧ irqOutput t = false) ∧
  (∀ s : State, irqOutput s = (s.irqEn && s.done)) ∧ irqOutput State.reset = false ∧ State.reset.irqEn = false

/-- A host read of the DMEM window: 0 while BUSY = 1, else the four bytes, the lowest in bits 7:0, with no side effect
(20_memory.md R42). -/
def Obligations.DmemWindowRead : Prop :=
  ∀ (s : State) (a : Access) (b : Nat), a.kind = .read → a.offset.toNat / 4 * 4 = 0x8000 + b →
    b < s.dmemSize.bytes →
    b + 3 < s.dmemSize.bytes ∧
    (s.busy = true → hostStep a s = .next { s with rdata := 0 }) ∧
    ∀ b0 b1 b2 b3 : Byte, s.busy = false → Memory.byteAt s.dmem b = some b0 →
      Memory.byteAt s.dmem (b + 1) = some b1 → Memory.byteAt s.dmem (b + 2) = some b2 →
      Memory.byteAt s.dmem (b + 3) = some b3 →
      hostStep a s =
        .next { s with
          rdata := b0.zeroExtend 32 ||| b1.zeroExtend 32 <<< 8 ||| b2.zeroExtend 32 <<< 16 |||
            b3.zeroExtend 32 <<< 24 }

/-- A host write of the DMEM window: dropped, setting BUSY_ERR, while BUSY = 1; else byte a+j takes bits 8j+7:8j where strobe j
is 1, and nothing else changes (20_memory.md R43). -/
def Obligations.DmemWindowWrite : Prop :=
  ∀ (s : State) (a : Access) (b : Nat), a.kind = .write → a.offset.toNat / 4 * 4 = 0x8000 + b →
    b < s.dmemSize.bytes →
    (s.busy = true → hostStep a s = .next { s with busyErr := true }) ∧
    (s.busy = false → ∃ t, hostStep a s = .next t ∧ t = { s with dmem := t.dmem } ∧
      (∀ j, j < 4 → Memory.byteAt t.dmem (b + j) =
        if a.strb.getLsbD j then some (a.wdata.extractLsb' (8 * j) 8) else Memory.byteAt s.dmem (b + j)) ∧
      ∀ c, c < b ∨ b + 4 ≤ c → Memory.byteAt t.dmem c = Memory.byteAt s.dmem c)

/-- A read of an unwritten byte stops the model (20_memory.md R39): the host's read of a window word, at its first unwritten
byte; an accepted command, whenever a byte of a region it reads is unwritten. -/
def Obligations.UnwrittenReadFaults : Prop :=
  (∀ (s : State) (a : Access) (b e : Nat), s.busy = false → a.kind = .read → a.offset.toNat / 4 * 4 = 0x8000 + b →
    b < s.dmemSize.bytes → b ≤ e → e < b + 4 → Memory.byteAt s.dmem e = none →
    (∀ c, b ≤ c → c < e → Memory.byteAt s.dmem c ≠ none) →
    hostStep a s = .fault (.hostReadUnwritten e)) ∧
  ∀ (i : Instr) (s : State) (r : Region) (b : Nat), s.busy = false → check i s = .noError →
    r ∈ inputRegions i.command s → r.1 ≤ b → b < r.1 + r.2 → Memory.byteAt s.dmem b = none →
    ∃ e, exec i s = .fault (.commandReadUnwritten e) ∧ Memory.byteAt s.dmem e = none

/-- While BUSY = 1 every host write, whatever its offset and strobes, sets BUSY_ERR and changes nothing else; a read of the
DMEM window returns 0, a read of STATUS shows a running phase (10_state.md R34), and every other read returns the register,
TAG_OUT and KEY reading 0 (43_control.md R120). The running phase is a draw of the model, whose counter freeCount the read of
STATUS changes (log 5). -/
def Obligations.BusyAccesses : Prop :=
  ∀ (s : State) (a : Access), s.busy = true →
    (a.kind = .write → hostStep a s = .next { s with busyErr := true }) ∧
    (a.kind = .read → 0x8000 ≤ a.offset.toNat → a.offset.toNat < 0x8000 + s.dmemSize.bytes →
      hostStep a s = .next { s with rdata := 0 }) ∧
    (a.kind = .read → a.offset.toNat / 4 * 4 = Reg.status.offset →
      ∃ (p : Phase) (n : Nat), (∀ c, s.cur = some c → p ∈ runningPhases c) ∧
        hostStep a s = .next { s with rdata := statusWord s p, freeCount := n }) ∧
    (∀ r : Reg, r ≠ .status → a.kind = .read → a.offset.toNat / 4 * 4 = r.offset →
      hostStep a s = .next { s with rdata := readReg r s } ∧
      ((∃ k, r = .key k) → readReg r s = 0) ∧ (Inv s → (∃ k, r = .tagOut k) → readReg r s = 0))

/-- A host read changes nothing but what it returns and the model's count of free values (20_memory.md R47; the count is log
5's). -/
def Obligations.ReadsHaveNoSideEffect : Prop :=
  ∀ (s t : State) (a : Access), a.kind = .read → hostStep a s = .next t →
    t = { s with rdata := t.rdata, freeCount := t.freeCount }

/-- What no host read can tell: two states that differ in x, KEY, T_CALC, OK and SEQ only answer every read alike
(10_state.md R17, R28, R33). For SEQ this is the model's choice: R33 and 60_exceptions.md R145 let STATUS.PHASE show it while
BUSY = 1, and the model draws that phase as Config.freePhase of the counter freeCount (log 5), with SEQ the list of the
positions still to be done (log 7). -/
def Obligations.ReadsHideInternalState : Prop :=
  ∀ (s : State) (a : Access) (x : PState) (key : KeyRegs) (tCalc : Option Bytes) (ok : Option Bool)
    (seq : List SeqOp), a.kind = .read →
    hostStep a { s with x := x, key := key, tCalc := tCalc, ok := ok, seq := seq } =
      mapNext (fun t => { t with x := x, key := key, tCalc := tCalc, ok := ok, seq := seq }) (hostStep a s)

/-! The sequencer (43_control.md R121, 70_reset_and_hazards.md R158) -/

/-- Whatever the host does while a command runs, and wherever its accesses fall between the sequencer's positions, the
command ends in the state its meaning gives; only the last read's value, the count of free values and BUSY_ERR
tell of the accesses (43_control.md R121, R120, 20_memory.md R52). The model's own in it: the schedule of positions between the
accesses (log 4), the count of free values (log 5), and the meaning as the whole command in one step (log 20). -/
def Obligations.InterleavedAccessesKeepTheResult : Prop :=
  ∀ (i : Instr) (s e : State) (n : Nat) (between : List (Access × Nat)) (last : Access),
    i.wellFormed = true → s.busy = false → check i s = .noError → exec i s = .next e →
    n + (between.map Prod.snd).sum ≤ (opsFor i.command s).length →
    ∃ t, runEvents
        (.access (commandWrite (encode i)) (.steps n) ::
          between.map (fun p => Event.access p.1 (.steps p.2)) ++ [.access last .completes]) s = .next t ∧
      t = { e with
        rdata := t.rdata
        freeCount := t.freeCount
        busyErr := s.busyErr || between.any (fun p => p.1.kind == .write) || last.kind == .write }

/-- An issued command that nobody disturbs ends by itself, after a number of steps that its lengths fix, in the state its
meaning gives (43_control.md R118, 70_reset_and_hazards.md R158). That a step of the machine with no event left is one
step of the sequencer is the model's choice (log 9). -/
def Obligations.IssuedCommandCompletes : Prop :=
  ∀ (i : Instr) (s : State), s.busy = false → s.events = [] → check i s = .noError →
    stepN ((opsFor i.command s).length + 1) (issue i s) = exec i s

/-- The order, place and number of a command's DMEM writes depend on its kind, variant, lengths and D_ADDR only: not on a
key, nonce, tag, text or state value, nor on the result of a DEC (42_duplex.md R104, 43_control.md R123,
70_reset_and_hazards.md R158). -/
def Obligations.WritePatternIsDataIndependent : Prop :=
  ∀ (c : Command) (s t : State), t.dmemSize = s.dmemSize → t.aLen = s.aLen → t.mLen = s.mLen →
    t.outLen = s.outLen → t.dAddr = s.dAddr →
    opsFor c t = opsFor c s ∧
    ∀ op ∈ opsFor c s, ∀ e f, opEffect c op s = .ok e → opEffect c op t = .ok f →
      f.addr = e.addr ∧ f.bytes.length = e.bytes.length

/-! Reset (70_reset_and_hazards.md) -/

/-- Reset at any time puts every register and internal state at its reset value; it leaves DMEM as it is when no command
runs, and also inside a command when no byte of the write in progress has landed; power-on does so too and every byte is
unwritten; after it the core does nothing by itself (70_reset_and_hazards.md R147 to R149). The model's own in it: that rdata,
freeCount and events are kept (log 3), and that a reset with bytes landed, at a position that reads an unwritten byte, whether
it writes (DEDUCED) or not (a DESIGN CHOICE), is a fault at such a byte (log 14). -/
def Obligations.ResetAndPowerOn : Prop :=
  (∀ (s : State) (landed : Nat), s.busy = false →
    applyEvent (.reset landed) s = .next (afterReset s.dmem s)) ∧
  (∀ s : State, applyEvent (.reset 0) s = .next (afterReset s.dmem s)) ∧
  (∀ (s : State) (landed : Nat), (∃ t, applyEvent (.reset landed) s = .next t) ∨
    (s.busy = true ∧ 0 < landed ∧
      ∃ e, applyEvent (.reset landed) s = .fault (.commandReadUnwritten e) ∧ Memory.byteAt s.dmem e = none)) ∧
  (∀ (s t : State) (landed : Nat), applyEvent (.reset landed) s = .next t →
    t = afterReset t.dmem s ∧ engineStep t = .next t ∧ irqOutput t = false ∧ t.x = ⟨0, 0, 0, 0, 0⟩ ∧
    ctrlWord t = 0 ∧ statusWord t t.phase = 0 ∧ t.phase = .idle ∧ t.cmdLast = 0 ∧ t.aAddr = 0 ∧ t.aLen = 0 ∧
    t.mAddr = 0 ∧ t.mLen = 0 ∧ t.dAddr = 0 ∧ t.outLen = 0 ∧ t.key = ⟨0, 0, 0, 0, 0⟩ ∧ t.nonce = ⟨0, 0, 0, 0⟩ ∧
    t.tagIn = ⟨0, 0, 0, 0⟩ ∧ t.tagOut = ⟨0, 0, 0, 0⟩ ∧ t.cur = none ∧ t.seq = [] ∧ t.tCalc = none ∧ t.ok = none) ∧
  ∀ s : State, ∃ t, applyEvent .powerOn s = .next t ∧ t = afterReset t.dmem s ∧
    ∀ a, Memory.byteAt t.dmem a = none

/-- A reset that aborts a command, at any position of the sequencer and inside any of its writes, leaves DMEM with a
prefix of the command's output region written and the rest as it was; every register is at its reset value
(70_reset_and_hazards.md R149). -/
def Obligations.AbortLeavesAnOutputPrefix : Prop :=
  ∀ (i : Instr) (s e : State) (n landed : Nat), s.busy = false → check i s = .noError → exec i s = .next e →
    ∃ r k, andThen (engineSteps n (issue i s)) (applyEvent (.reset landed)) = .next r ∧
      r = afterReset r.dmem s ∧ k ≤ (outputRegion i.command s).2 ∧
      ∀ a, Memory.byteAt r.dmem a =
        if (outputRegion i.command s).1 ≤ a ∧ a < (outputRegion i.command s).1 + k then Memory.byteAt e.dmem a
        else Memory.byteAt s.dmem a

/-- A DEC whose tag does not match never stores a plaintext byte: at every position of the sequencer, and after a reset at
any moment, every byte of DMEM is as it was before the command or is a zero of the output region (42_duplex.md R103,
70_reset_and_hazards.md R149). -/
def Obligations.FailedDecStoresNoPlaintext : Prop :=
  ∀ (v : DuplexVariant) (k n l : Nat) (s t : State) (A C : Bytes) (m : Nat), s.busy = false →
    check (decInstr v k n l) s = .noError →
    Memory.readBytes s.dmem s.aAddr.toNat s.aLen.toNat = .ok A →
    Memory.readBytes s.dmem s.mAddr.toNat s.mLen.toNat = .ok C →
    (decryptOf v s A C).1 = false → engineSteps m (issue (decInstr v k n l) s) = .next t →
    (∀ a, Memory.byteAt t.dmem a = Memory.byteAt s.dmem a ∨
      (s.dAddr.toNat ≤ a ∧ a < s.dAddr.toNat + s.mLen.toNat ∧ Memory.byteAt t.dmem a = some 0)) ∧
    ∀ (landed : Nat) (r : State), applyEvent (.reset landed) t = .next r →
      ∀ a, Memory.byteAt r.dmem a = Memory.byteAt s.dmem a ∨
        (s.dAddr.toNat ≤ a ∧ a < s.dAddr.toNat + s.mLen.toNat ∧ Memory.byteAt r.dmem a = some 0)

/-! The invariant -/

/-- The invariant holds after power-on and reset (10_state.md R36). -/
def Obligations.InvAtReset : Prop := Inv State.reset

/-- Every step keeps the invariant: the canonical memory inside DMEM_BYTES, x zero and nothing of a command left while BUSY = 0,
and a running command at a position of its own sequence with its flags as acceptance left them (10_state.md R18, R25, R33,
R34, 20_memory.md R37, 43_control.md R117). -/
def Obligations.StepKeepsInv : Prop :=
  ∀ s t : State, Inv s → step s = .next t → Inv t

/-! Host scripts (30_encoding.md section 7) -/

/-- `ld.key`, `ld.nonce`, `ld.tag` and `ld.mem` put exactly the bytes they name where a command reads them, and change
nothing else; a 16-byte `ld.key` writes KEY0..KEY3 only (30_encoding.md R69, 10_state.md R20, 20_memory.md R45). -/
def Obligations.LoadScriptsPlaceTheirBytes : Prop :=
  ∀ (s : State) (B : Bytes), s.busy = false →
    (B.length = 16 ∨ B.length = 20 → ∃ t, runEvents (ScriptLine.events (.ldKey B)) s = .next t ∧
      keyBytes t.key B.length = B ∧ (B.length = 16 → t.key.k4 = s.key.k4) ∧ t = { s with key := t.key }) ∧
    (B.length = 16 → ∃ t, runEvents (ScriptLine.events (.ldNonce B)) s = .next t ∧
      quadBytes t.nonce = B ∧ t = { s with nonce := t.nonce }) ∧
    (B.length = 16 → ∃ t, runEvents (ScriptLine.events (.ldTag B)) s = .next t ∧
      quadBytes t.tagIn = B ∧ t = { s with tagIn := t.tagIn }) ∧
    ∀ addr, addr % 4 = 0 → addr + B.length ≤ s.dmemSize.bytes →
      ∃ t, runEvents (ScriptLine.events (.ldMem addr B)) s = .next t ∧
        Memory.readBytes t.dmem addr B.length = .ok B ∧ t = { s with dmem := t.dmem } ∧
        ∀ a, a < addr ∨ addr + B.length ≤ a → Memory.byteAt t.dmem a = Memory.byteAt s.dmem a

/-- `poll`: one step is one read of STATUS, which shows DONE in bit 1. If DONE = 1 the poll is over; if DONE = 0 the core gets on
and the poll is the next event again, for ever on an idle core (30_encoding.md R69). The model's own in it: the schedule of the
core's progress (log 18), the list of events (log 3), and the count of free values, which a read while BUSY = 1 advances
(log 5). -/
def Obligations.PollRepeatsUntilDone : Prop :=
  ∀ (s : State) (gaps : List Gap) (rest : List Event), s.events = .poll gaps :: rest →
    (s.done = true → ∃ t, step s = .next t ∧ t.rdata.getLsbD 1 = true ∧
      t = { s with rdata := t.rdata, freeCount := t.freeCount, events := rest }) ∧
    (s.done = false → s.busy = true → ∃ r, r.rdata.getLsbD 1 = false ∧
      r = { s with rdata := r.rdata, freeCount := s.freeCount + 1, events := rest } ∧
      step s = mapNext (fun t => { t with events := .poll gaps.tail :: rest })
        (progress (gaps.headD .completes) r)) ∧
    (s.done = false → s.busy = false → ∀ n, ∃ t, stepN (n + 1) s = .next t ∧ t.rdata.getLsbD 1 = false ∧
      t = { s with rdata := t.rdata, events := .poll (gaps.drop (n + 1)) :: rest })

/-- `run`: whatever the schedule, the host reads STATUS until it shows DONE = 1 and no longer, within as many reads as the
schedule has gaps and two more, one read for a rejected command, and then the state is the one the command's meaning gives
(30_encoding.md R69, 43_control.md R121, 60_exceptions.md R134). The model's own in it: the schedule, and that a running command
completes once its gaps are used up (log 18, for the fairness of 70_reset_and_hazards.md R158), the list of events (log 3), the
count of free values (log 5), and the meaning as the whole command in one step (log 20). -/
def Obligations.RunScriptEndsWithDone : Prop :=
  ∀ (i : Instr) (s e : State) (first : Gap) (gaps : List Gap) (rest : List Event), i.wellFormed = true → s.busy = false →
    exec i s = .next e →
    ∃ n t, 2 ≤ n ∧ n ≤ gaps.length + 3 ∧ (check i s ≠ .noError → n = 2) ∧
      stepN n { s with events := ScriptLine.events (.run i first gaps) ++ rest } = .next t ∧
      t.rdata.getLsbD 1 = true ∧ t = { e with rdata := t.rdata, freeCount := t.freeCount, events := rest } ∧
      ∀ m, 2 ≤ m → m < n → ∃ u left,
        stepN m { s with events := ScriptLine.events (.run i first gaps) ++ rest } = .next u ∧
        u.rdata.getLsbD 1 = false ∧ u.events = .poll left :: rest

/-! The algorithm (40_permutation.md, 41_sponge.md, 42_duplex.md) -/

/-- p^n is a bijection on the 320-bit states (40_permutation.md R71). -/
def Obligations.PermuteIsBijective : Prop :=
  ∀ n : Nat, n ≤ 12 → Function.Bijective (fun x : PState => permute x n)

/-- pS is the 5-bit S-box on each of the 64 columns, and the S-box is a bijection on 0..31 (40_permutation.md R76,
R77). -/
def Obligations.SboxActsOnColumns : Prop :=
  (∀ (x : PState) (j : Nat), j < 64 → sboxTable[column x j]? = some (column (pS x) j)) ∧
  List.Perm sboxTable (List.range 32)

/-- pC changes bits 7:0 of x[2] only, by XOR with the round constant of 40_permutation.md R74 (R73). -/
def Obligations.ConstantAdditionBits : Prop :=
  ∀ (x : PState) (i : Nat), i < 12 →
    pC x i = { x with x2 := (pC x i).x2 } ∧
    ∀ j, (pC x i).x2.getLsbD j =
      (x.x2.getLsbD j ^^ (decide (j < 8) && (((4 + i) <<< 4) ||| (11 - i)).testBit j))

/-- pL: bit j of each word is the XOR of three bits of the same word's old value, those that ROR64 by the word's two amounts
brings to j (40_permutation.md R79, 00_scope.md R7). -/
def Obligations.DiffusionBits : Prop :=
  ∀ (x : PState) (j : Nat), j < 64 →
    let bit (w : Lane) (m n : Nat) := w.getLsbD j ^^ w.getLsbD ((j + m) % 64) ^^ w.getLsbD ((j + n) % 64)
    (pL x).x0.getLsbD j = bit x.x0 19 28 ∧ (pL x).x1.getLsbD j = bit x.x1 61 39 ∧
    (pL x).x2.getLsbD j = bit x.x2 1 6 ∧ (pL x).x3.getLsbD j = bit x.x3 10 17 ∧
    (pL x).x4.getLsbD j = bit x.x4 7 41

/-- Serialising a state and reading it back are inverse, in both byte orders (00_scope.md R9, R10). -/
def Obligations.SerialisationIsInvertible : Prop :=
  ∀ P : Profile, (∀ x : PState, deser P (ser P x) = x) ∧
    ∀ B : Bytes, B.length = 40 → ser P (deser P B) = B

/-- A block of the rate touches the rate words only: x[0] for 8 bytes, x[0] and x[1] for 16, whether it is XORed in or
overwrites them (10_state.md R15, R16, 41_sponge.md R85, 42_duplex.md R99). So does the final partial block, overwritten and
followed by the marker 0x80: its bytes and the marked byte after them change, x[0] only for fewer than 8 bytes, x[0] and x[1]
for fewer than 16; and a text block shorter than the rate does just that to the duplex state (42_duplex.md R99, R100). -/
def Obligations.RateBlocksTouchRateWordsOnly : Prop :=
  (∀ (P : Profile) (x : PState) (B : Bytes),
    (B.length = 8 → xorAt P x 0 B = { x with x0 := x.x0 ^^^ load64 P B } ∧
      setAt P x 0 B = { x with x0 := load64 P B }) ∧
    (B.length = 16 →
      xorAt P x 0 B = { x with x0 := x.x0 ^^^ load64 P (B.take 8), x1 := x.x1 ^^^ load64 P (B.drop 8) } ∧
      setAt P x 0 B = { x with x0 := load64 P (B.take 8), x1 := load64 P (B.drop 8) })) ∧
  (∀ (P : Profile) (x y : PState) (B : Bytes), y = xorAt P (setAt P x 0 B) B.length [0x80] →
    (B.length < 8 → y = { x with x0 := y.x0 }) ∧
    (B.length < 16 → y = { x with x0 := y.x0, x1 := y.x1 } ∧
      ser P y = B ++ ((ser P x).getD B.length 0 ^^^ 0x80) :: (ser P x).drop (B.length + 1))) ∧
  ∀ (v : DuplexVariant) (x : PState) (B : Bytes), B.length < (if v = .aead128a then 16 else 8) →
    absorbCipher v x B = xorAt .be (setAt .be x 0 B) B.length [0x80]

/-- Where the duplex puts IV, key and nonce, and where it injects the key: the word forms of 42_duplex.md R96 and R101. For
the 20-byte key a word takes 4 key bytes in its low half (x[2]) or its high half (x[3]). -/
def Obligations.KeyInjectionWordForms : Prop :=
  ∀ (K N : Bytes) (x : PState), N.length = 16 →
    (∀ v, v ≠ DuplexVariant.aead80pq → K.length = 16 →
      ∃ y, y = permute
          { x0 := BitVec.ofNat 64 (duplexConfig v).iv, x1 := load64BE (K.take 8), x2 := load64BE (K.drop 8),
            x3 := load64BE (N.take 8), x4 := load64BE (N.drop 8) } 12 ∧
        duplexInit v K N = { y with x3 := y.x3 ^^^ load64BE (K.take 8), x4 := y.x4 ^^^ load64BE (K.drop 8) }) ∧
    (K.length = 16 →
      finalState .aead128 K x =
        permute { x with x1 := x.x1 ^^^ load64BE (K.take 8), x2 := x.x2 ^^^ load64BE (K.drop 8) } 12 ∧
      finalState .aead128a K x =
        permute { x with x2 := x.x2 ^^^ load64BE (K.take 8), x3 := x.x3 ^^^ load64BE (K.drop 8) } 12) ∧
    (K.length = 20 →
      (∃ y, y = permute
          { x0 := 0xA0400C0600000000 ||| load64BE (zeros 4 ++ K.take 4), x1 := load64BE (slice K 4 8),
            x2 := load64BE (slice K 12 8), x3 := load64BE (N.take 8), x4 := load64BE (N.drop 8) } 12 ∧
        duplexInit .aead80pq K N =
          { y with
            x2 := y.x2 ^^^ load64BE (zeros 4 ++ K.take 4), x3 := y.x3 ^^^ load64BE (slice K 4 8),
            x4 := y.x4 ^^^ load64BE (slice K 12 8) }) ∧
      finalState .aead80pq K x =
        permute { x with
          x1 := x.x1 ^^^ load64BE (K.take 8), x2 := x.x2 ^^^ load64BE (slice K 8 8),
          x3 := x.x3 ^^^ load64BE (slice K 16 4 ++ zeros 4) } 12)

/-- Which bits of the registers are which bytes of the key, nonce and tags, and that TAG_OUT holds the tag it is given
(10_state.md R20). -/
def Obligations.RegisterLanes : Prop :=
  (∀ (k : KeyRegs) (n j : Nat) (h : j / 4 < 5), j < n →
    (keyBytes k n)[j]? = some ((k.get ⟨j / 4, h⟩).extractLsb' (8 * (j % 4)) 8)) ∧
  (∀ (q : QuadRegs) (j : Nat) (h : j / 4 < 4),
    (quadBytes q)[j]? = some ((q.get ⟨j / 4, h⟩).extractLsb' (8 * (j % 4)) 8)) ∧
  ∀ B : Bytes, B.length = 16 → quadBytes (quadOfBytes B) = B

/-- Padding: floor(|D|/r) + 1 blocks of r bytes that are, one after the other, D, the pad byte of the profile and zeros; a
full extra block when r divides |D| (41_sponge.md R83). -/
def Obligations.PaddingBlocks : Prop :=
  ∀ (P : Profile) (D : Bytes) (r : Nat), 0 < r →
    (pad P D r).length = D.length / r + 1 ∧ (∀ B ∈ pad P D r, B.length = r) ∧
    (pad P D r).flatten = D ++ (match P with | .be => 0x80 | .le => 0x01) :: zeros (r - 1 - D.length % r)

/-- A longer output extends a shorter one, and every output has the length asked for (41_sponge.md R88, R86). -/
def Obligations.SpongePrefixConsistency : Prop :=
  ∀ (v : SpongeVariant) (M Z : Bytes) (m n : Nat), m ≤ n →
    (sponge v M Z n).take m = sponge v M Z m ∧ (sponge v M Z n).length = n

/-- Decryption undoes encryption, for every variant, key, nonce, associated data and plaintext (42_duplex.md R106). -/
def Obligations.DecryptInvertsEncrypt : Prop :=
  ∀ (v : DuplexVariant) (K N A P : Bytes),
    decrypt v K N A (encrypt v K N A P).1 (encrypt v K N A P).2 = (true, P)

/-- Verification answers 1 exactly when the tags are equal (42_duplex.md R102). -/
def Obligations.VerifyTagIffEqual : Prop :=
  ∀ T T' : Bytes, T.length = 16 → T'.length = 16 → (verifyTag T' T = true ↔ T' = T)

/-- Any other tag than the right one gives zeros as long as the ciphertext (42_duplex.md R107, R105). -/
def Obligations.WrongTagGivesZeros : Prop :=
  ∀ (v : DuplexVariant) (K N A P T : Bytes), K.length = (if v = .aead80pq then 20 else 16) → T.length = 16 →
    T ≠ (encrypt v K N A P).2 → decrypt v K N A (encrypt v K N A P).1 T = (false, zeros P.length)

/-- On the machine: after an ENC of P, with the key loaded again, the tag of TAG_OUT moved to TAG_IN, the ciphertext as the
input and any output address that passes the checks, DEC ends with AUTH_OK = 1 and P in DMEM (42_duplex.md R106, R108,
R109). -/
def Obligations.MachineDecryptsWhatItEncrypts : Prop :=
  ∀ (v : DuplexVariant) (k : Nat) (s t u : State) (A P : Bytes) (out : Word),
    k = (if v = .aead80pq then 20 else 16) → s.busy = false → check (encInstr v k 16 16) s = .noError →
    Memory.readBytes s.dmem s.aAddr.toNat s.aLen.toNat = .ok A →
    Memory.readBytes s.dmem s.mAddr.toNat s.mLen.toNat = .ok P → exec (encInstr v k 16 16) s = .next t →
    s.aLen = 0 ∨ s.mLen = 0 ∨ s.aAddr.toNat + s.aLen.toNat ≤ s.dAddr.toNat ∨
      s.dAddr.toNat + s.mLen.toNat ≤ s.aAddr.toNat →
    u = { t with key := s.key, tagIn := t.tagOut, mAddr := s.dAddr, dAddr := out } →
    check (decInstr v k 16 16) u = .noError →
    ∃ w, exec (decInstr v k 16 16) u = .next w ∧ w.authOk = true ∧ w.phase = .dxVerified ∧
      Memory.readBytes w.dmem out.toNat s.mLen.toNat = .ok P
end

