-- ==== Sys2Proof/Laws/Bytes.lean ====
section
/-! SUPPORT. Lengths of byte strings, and the blocks of `pad_P` and of the text phases (41_sponge.md R83, 42_duplex.md R99). -/

namespace Sys2Proof.Machine

@[simp] theorem zeros_length (n : Nat) : (zeros n).length = n := List.length_replicate

theorem zeros_append (m n : Nat) : zeros m ++ zeros n = zeros (m + n) := List.replicate_append_replicate

@[simp] theorem store64BE_length (w : Lane) : (store64BE w).length = 8 := rfl

@[simp] theorem store64LE_length (w : Lane) : (store64LE w).length = 8 := rfl

@[simp] theorem store64_length (P : Profile) (w : Lane) : (store64 P w).length = 8 := by cases P <;> rfl

@[simp] theorem ser_length (P : Profile) (x : PState) : (ser P x).length = 40 := by simp [ser]

@[simp] theorem xorBytes_length (A B : Bytes) : (xorBytes A B).length = min A.length B.length := by simp [xorBytes]

@[simp] theorem rateBytes_length (P : Profile) (x : PState) (r : Nat) : (rateBytes P x r).length = min r 40 := by
  simp [rateBytes]

@[simp] theorem slice_length (D : Bytes) (o n : Nat) : (slice D o n).length = min n (D.length - o) := by simp [slice]

@[simp] theorem wordBytes_length (w : Word) : (wordBytes w).length = 4 := rfl

@[simp] theorem quadBytes_length (q : QuadRegs) : (quadBytes q).length = 16 := by simp [quadBytes]

@[simp] theorem keyBytes_length (k : KeyRegs) (n : Nat) : (keyBytes k n).length = min n 20 := by simp [keyBytes]

theorem keyOperand_length (v : DuplexVariant) (s : State) : (keyOperand v s).length = (duplexConfig v).keyLen := by
  cases v <;> simp [keyOperand, duplexConfig]

@[simp] theorem nonceOperand_length (s : State) : (nonceOperand s).length = 16 := by simp [nonceOperand]

@[simp] theorem tagOperand_length (s : State) : (tagOperand s).length = 16 := by simp [tagOperand]

@[simp] theorem spongeRate (v : SpongeVariant) : (spongeConfig v).rate = 8 := by cases v <;> rfl

theorem duplexRate_pos (v : DuplexVariant) : 0 < (duplexConfig v).rate := by cases v <;> decide

theorem duplexRate_le (v : DuplexVariant) : (duplexConfig v).rate ≤ 16 := by cases v <;> decide

@[simp] theorem keystream_length (v : DuplexVariant) (x : PState) (n : Nat) :
    (keystream v x n).length = min n (duplexConfig v).rate := by
  have := duplexRate_le v
  simp only [keystream, List.length_take, rateBytes_length]
  omega

theorem encryptBlock_length {v : DuplexVariant} {x : PState} {p : Bytes} (h : p.length ≤ (duplexConfig v).rate) :
    (encryptBlock v x p).length = p.length := by
  simp only [encryptBlock, xorBytes_length, keystream_length]
  omega

theorem decryptBlock_length {v : DuplexVariant} {x : PState} {c : Bytes} (h : c.length ≤ (duplexConfig v).rate) :
    (decryptBlock v x c).length = c.length := by
  simp only [decryptBlock, xorBytes_length, keystream_length]
  omega

theorem tagOf_length (v : DuplexVariant) (s : State) (y : PState) : (tagOf v (keyOperand v s) y).length = 16 := by
  have := keyOperand_length v s
  simp only [tagOf, xorBytes_length, List.length_drop, ser_length, this]
  cases v <;> rfl

/-- A slice cut to what is left of the string is the slice. -/
theorem slice_min (D : Bytes) (o r : Nat) : slice D o (min r (D.length - o)) = slice D o r := by
  simp only [slice]
  rcases Nat.le_total r (D.length - o) with h | h
  · rw [Nat.min_eq_left h]
  · rw [Nat.min_eq_right h, List.take_of_length_le (l := D.drop o) (by simp only [List.length_drop]; omega),
      List.take_of_length_le (by simp only [List.length_drop]; omega)]

/-- The blocks of R83, the final one included, as the sequencer pads them one by one. -/
theorem pad_eq_map (P : Profile) (D : Bytes) {r : Nat} (hr : 0 < r) :
    pad P D r = (List.range (blockCount r D.length)).map (fun j => paddedBlock P r (slice D (j * r) r)) := by
  have hmul : D.length / r * r ≤ D.length := Nat.div_mul_le_self _ _
  have hlt : D.length < D.length / r * r + r := by
    have := Nat.lt_div_mul_add (a := D.length) hr
    omega
  rw [blockCount, List.range_succ, List.map_append, pad]
  congr 1
  · apply List.map_congr_left
    intro j hj
    have hj' : j + 1 ≤ D.length / r := by simpa using hj
    have : (j + 1) * r ≤ D.length := Nat.le_trans (Nat.mul_le_mul_right r hj') hmul
    have h2 : (j + 1) * r = j * r + r := by ring
    simp only [paddedBlock, slice_length]
    rw [if_neg (by omega)]
  · have hs : slice D (D.length / r * r) r = D.drop (D.length / r * r) := by
      rw [slice, List.take_of_length_le (by simp only [List.length_drop]; omega)]
    simp only [List.map_cons, List.map_nil, paddedBlock, hs, List.length_drop]
    rw [if_pos (by omega)]

theorem textBlocks_eq (r : Nat) (D : Bytes) :
    textBlocks r D = (List.range (blockCount r D.length)).map (fun j => slice D (j * r) r) := rfl

/-- Absorbing a list that ends in B: every block before it is followed by p^b, B by p^a (R85). -/
theorem absorb_concat (v : SpongeVariant) (x : PState) (Bs : List Bytes) (B : Bytes) :
    absorb v x (Bs ++ [B]) = absorbLast v (Bs.foldl (absorbInner v) x) B := by
  induction Bs generalizing x with
  | nil => rfl
  | cons C Cs ih =>
    cases Cs with
    | nil => rfl
    | cons D Ds =>
      have := ih (absorbInner v x C)
      simpa [absorb] using this

end Sys2Proof.Machine
end

