-- ==== Sys2Proof/Laws/Memory.lean ====
section
/-! SUPPORT. The laws of DMEM: what a byte reads as after a write, what a region reads as, that consecutive writes are
one write (20_memory.md R49, R50), and that every write keeps the canonical form. -/

namespace Sys2Proof.Machine

@[simp] theorem cellsAt_length (a : Nat) (v : Bytes) : (cellsAt a v).length = v.length := by
  induction v generalizing a with
  | nil => rfl
  | cons b bs ih => simp [cellsAt, ih]

theorem mem_cellsAt {a : Nat} {v : Bytes} {c : Host.Cell} (h : c ∈ cellsAt a v) :
    a ≤ c.1 ∧ c.1 < a + v.length := by
  induction v generalizing a with
  | nil => simp [cellsAt] at h
  | cons b bs ih =>
    simp only [cellsAt, List.mem_cons] at h
    rcases h with rfl | h
    · simp
    · have := ih h
      simp only [List.length_cons]
      omega

theorem cellsAt_append (a : Nat) (v w : Bytes) : cellsAt a (v ++ w) = cellsAt a v ++ cellsAt (a + v.length) w := by
  induction v generalizing a with
  | nil => simp [cellsAt]
  | cons b bs ih =>
    simp only [List.cons_append, cellsAt, ih, List.length_cons]
    congr 3
    omega

theorem cellsAt_wf (a : Nat) (v : Bytes) : Memory.wf (cellsAt a v) := by
  induction v generalizing a with
  | nil => simp [cellsAt, Memory.wf]
  | cons b bs ih =>
    simp only [cellsAt, Memory.wf, List.pairwise_cons]
    refine ⟨fun c hc => ?_, ih (a + 1)⟩
    have := mem_cellsAt hc
    omega

@[simp] theorem byteAt_nil (a : Nat) : Memory.byteAt [] a = none := rfl

theorem byteAt_append (m m' : Memory) (a : Nat) :
    Memory.byteAt (m ++ m') a = (Memory.byteAt m a).or (Memory.byteAt m' a) := by
  induction m with
  | nil => simp
  | cons c m ih =>
    obtain ⟨k, b⟩ := c
    by_cases h : k = a <;> simp [Memory.byteAt, h, ih]

theorem byteAt_filter (m : Memory) (p : Nat → Bool) (a : Nat) :
    Memory.byteAt (m.filter (fun c => p c.1)) a = if p a then Memory.byteAt m a else none := by
  induction m with
  | nil => simp
  | cons c m ih =>
    obtain ⟨k, b⟩ := c
    by_cases hk : k = a
    · subst hk
      by_cases hp : p k <;> simp [Memory.byteAt, hp, ih]
    · by_cases hp : p k <;> simp [Memory.byteAt, hp, ih, hk]

theorem byteAt_cellsAt (a : Nat) (v : Bytes) (b : Nat) :
    Memory.byteAt (cellsAt a v) b = if a ≤ b then v[b - a]? else none := by
  induction v generalizing a with
  | nil => simp [cellsAt]
  | cons c cs ih =>
    by_cases h : a = b
    · subst h
      simp [cellsAt, Memory.byteAt]
    · by_cases hle : a ≤ b
      · have hs : b - a = (b - (a + 1)) + 1 := by omega
        have h1 : a + 1 ≤ b := by omega
        simp [cellsAt, Memory.byteAt, h, ih, hle, hs, h1]
      · have h1 : ¬ a + 1 ≤ b := by omega
        simp [cellsAt, Memory.byteAt, h, ih, hle, h1]

/-- What a byte reads as after a write: the written byte inside the region, the old one outside (R50). -/
theorem byteAt_writeBytes (m : Memory) (a : Nat) (v : Bytes) (b : Nat) :
    Memory.byteAt (Memory.writeBytes m a v) b =
      if a ≤ b ∧ b < a + v.length then v[b - a]? else Memory.byteAt m b := by
  simp only [Memory.writeBytes, byteAt_append, byteAt_cellsAt]
  rw [byteAt_filter m (fun k => decide (k < a)), byteAt_filter m (fun k => decide (a + v.length ≤ k))]
  by_cases h1 : b < a
  · have h2 : ¬ a ≤ b := by omega
    have h3 : ¬ a + v.length ≤ b := by omega
    simp [h1, h2, h3]
  · by_cases h2 : b < a + v.length
    · have h3 : a ≤ b := by omega
      have h4 : ¬ a + v.length ≤ b := by omega
      simp [h1, h2, h3, h4]
    · have h3 : a ≤ b := by omega
      have h4 : a + v.length ≤ b := by omega
      have h5 : v[b - a]? = none := by
        rw [List.getElem?_eq_none_iff]
        omega
      simp [h1, h2, h3, h4, h5]

theorem byteAt_writeBytes_outside {m : Memory} {a : Nat} {v : Bytes} {b : Nat}
    (h : b < a ∨ a + v.length ≤ b) :
    Memory.byteAt (Memory.writeBytes m a v) b = Memory.byteAt m b := by
  rw [byteAt_writeBytes, if_neg (by omega)]

theorem byteAt_writeBytes_inside {m : Memory} {a : Nat} {v : Bytes} {j : Nat} (h : j < v.length) :
    Memory.byteAt (Memory.writeBytes m a v) (a + j) = v[j]? := by
  rw [byteAt_writeBytes, if_pos (by omega)]
  congr 1
  omega

@[simp] theorem byteAt_writeBytes_nil (m : Memory) (a b : Nat) :
    Memory.byteAt (Memory.writeBytes m a []) b = Memory.byteAt m b :=
  byteAt_writeBytes_outside (by simp only [List.length_nil]; omega)

/-- A region reads as B exactly when each of its bytes does (R49). -/
theorem readBytes_eq_ok {m : Memory} {a n : Nat} {B : Bytes} :
    Memory.readBytes m a n = .ok B ↔ B.length = n ∧ ∀ j < n, Memory.byteAt m (a + j) = B[j]? := by
  induction n generalizing a B with
  | zero =>
    simp only [Memory.readBytes, Except.ok.injEq]
    constructor
    · rintro rfl; simp
    · rintro ⟨h, -⟩; exact (List.length_eq_zero_iff.mp h).symm
  | succ n ih =>
    cases hb : Memory.byteAt m a with
    | none =>
      simp only [Memory.readBytes, hb, reduceCtorEq, false_iff, not_and]
      intro hl hj
      have h0 := hj 0 (by omega)
      rw [Nat.add_zero, hb] at h0
      have := (List.getElem?_eq_none_iff).mp h0.symm
      omega
    | some b =>
      cases hr : Memory.readBytes m (a + 1) n with
      | error e =>
        simp only [Memory.readBytes, hb, hr, reduceCtorEq, false_iff, not_and]
        intro hl hj
        cases B with
        | nil => simp at hl
        | cons c cs =>
          have : Memory.readBytes m (a + 1) n = .ok cs := by
            rw [ih]
            refine ⟨by simpa using hl, fun j hjn => ?_⟩
            have := hj (j + 1) (by omega)
            simpa [Nat.add_assoc, Nat.add_comm 1 j] using this
          rw [this] at hr
          cases hr
      | ok bs =>
        simp only [Memory.readBytes, hb, hr, Except.ok.injEq]
        have hbs := ih.mp hr
        constructor
        · rintro rfl
          refine ⟨by simp [hbs.1], fun j hj => ?_⟩
          cases j with
          | zero => simpa using hb
          | succ j =>
            have := hbs.2 j (by omega)
            simpa [Nat.add_assoc, Nat.add_comm 1 j] using this
        · rintro ⟨hl, hj⟩
          cases B with
          | nil => simp at hl
          | cons c cs =>
            have h0 := hj 0 (by omega)
            rw [Nat.add_zero, hb] at h0
            have hc : Memory.readBytes m (a + 1) n = .ok cs := by
              rw [ih]
              refine ⟨by simpa using hl, fun j hjn => ?_⟩
              have := hj (j + 1) (by omega)
              simpa [Nat.add_assoc, Nat.add_comm 1 j] using this
            rw [hc] at hr
            simp only [Except.ok.injEq] at hr
            simp at h0
            rw [h0, hr]

theorem readBytes_length {m : Memory} {a n : Nat} {B : Bytes} (h : Memory.readBytes m a n = .ok B) :
    B.length = n := (readBytes_eq_ok.mp h).1

/-- A region that does not read stops at its first unwritten byte (R39, R49). -/
theorem readBytes_eq_error {m : Memory} {a n e : Nat} :
    Memory.readBytes m a n = .error e ↔
      a ≤ e ∧ e < a + n ∧ Memory.byteAt m e = none ∧ ∀ b, a ≤ b → b < e → Memory.byteAt m b ≠ none := by
  induction n generalizing a with
  | zero =>
    simp only [Memory.readBytes, reduceCtorEq, false_iff]
    rintro ⟨h1, h2, -⟩
    omega
  | succ n ih =>
    cases hb : Memory.byteAt m a with
    | none =>
      simp only [Memory.readBytes, hb, Except.error.injEq]
      constructor
      · rintro rfl
        exact ⟨by omega, by omega, hb, fun b h1 h2 => by omega⟩
      · rintro ⟨h1, h2, h3, h4⟩
        by_contra hne
        exact h4 a (by omega) (by omega) hb
    | some b =>
      have key : Memory.readBytes m a (n + 1) = .error e ↔ Memory.readBytes m (a + 1) n = .error e := by
        cases hr : Memory.readBytes m (a + 1) n <;> simp [Memory.readBytes, hb, hr]
      rw [key, ih]
      constructor
      · rintro ⟨h1, h2, h3, h4⟩
        refine ⟨by omega, by omega, h3, fun c hc1 hc2 => ?_⟩
        by_cases hca : c = a
        · subst hca; simp [hb]
        · exact h4 c (by omega) hc2
      · rintro ⟨h1, h2, h3, h4⟩
        have : e ≠ a := by rintro rfl; simp [hb] at h3
        exact ⟨by omega, by omega, h3, fun c hc1 hc2 => h4 c (by omega) hc2⟩

/-- Reading depends on the region's bytes only. -/
theorem readBytes_congr {m m' : Memory} {a n : Nat}
    (h : ∀ b, a ≤ b → b < a + n → Memory.byteAt m b = Memory.byteAt m' b) :
    Memory.readBytes m a n = Memory.readBytes m' a n := by
  induction n generalizing a with
  | zero => rfl
  | succ n ih =>
    have h0 := h a (by omega) (by omega)
    have h1 := ih (a := a + 1) (fun b hb1 hb2 => h b (by omega) (by omega))
    simp only [Memory.readBytes, h0, h1]

/-- A part of a region that reads. -/
theorem readBytes_slice {m : Memory} {a n : Nat} {B : Bytes} (h : Memory.readBytes m a n = .ok B)
    {o k : Nat} (hk : o + k ≤ n) : Memory.readBytes m (a + o) k = .ok (slice B o k) := by
  obtain ⟨hl, hj⟩ := readBytes_eq_ok.mp h
  rw [readBytes_eq_ok]
  refine ⟨by simp [slice, hl]; omega, fun j hjk => ?_⟩
  rw [Nat.add_assoc, hj (o + j) (by omega), slice, List.getElem?_take_of_lt hjk, List.getElem?_drop]

/-- A write elsewhere does not change what a region reads as. -/
theorem readBytes_writeBytes_disjoint {m : Memory} {a n w : Nat} {v : Bytes}
    (h : a + n ≤ w ∨ w + v.length ≤ a) :
    Memory.readBytes (Memory.writeBytes m w v) a n = Memory.readBytes m a n :=
  readBytes_congr fun b hb1 hb2 => byteAt_writeBytes_outside (by omega)

/-- A region read after it was written gives what was written. -/
theorem readBytes_writeBytes_same (m : Memory) (a : Nat) (v : Bytes) :
    Memory.readBytes (Memory.writeBytes m a v) a v.length = .ok v := by
  rw [readBytes_eq_ok]
  exact ⟨rfl, fun j hj => byteAt_writeBytes_inside hj⟩

theorem filter_lt_cellsAt {a b : Nat} {v : Bytes} (h : a + v.length ≤ b) :
    (cellsAt a v).filter (fun c => decide (c.1 < b)) = cellsAt a v := by
  rw [List.filter_eq_self]
  intro c hc
  have := mem_cellsAt hc
  simp only [decide_eq_true_eq]
  omega

theorem filter_ge_cellsAt {a b : Nat} {v : Bytes} (h : a + v.length ≤ b) :
    (cellsAt a v).filter (fun c => decide (b ≤ c.1)) = [] := by
  rw [List.filter_eq_nil_iff]
  intro c hc
  have := mem_cellsAt hc
  simp only [decide_eq_true_eq]
  omega

/-- Two consecutive writes are one write (R50). -/
theorem writeBytes_append (m : Memory) (a : Nat) (v w : Bytes) :
    Memory.writeBytes (Memory.writeBytes m a v) (a + v.length) w = Memory.writeBytes m a (v ++ w) := by
  have h1 : (m.filter (fun c => decide (c.1 < a))).filter (fun c => decide (c.1 < a + v.length)) =
      m.filter (fun c => decide (c.1 < a)) := by
    rw [List.filter_eq_self]
    intro c hc
    have := (List.mem_filter.mp hc).2
    simp only [decide_eq_true_eq] at this ⊢
    omega
  have h2 : (m.filter (fun c => decide (a + v.length ≤ c.1))).filter (fun c => decide (c.1 < a + v.length)) = [] := by
    rw [List.filter_eq_nil_iff]
    intro c hc
    have := (List.mem_filter.mp hc).2
    simp only [decide_eq_true_eq] at this ⊢
    omega
  have h3 : (m.filter (fun c => decide (c.1 < a))).filter
      (fun c => decide (a + v.length + w.length ≤ c.1)) = [] := by
    rw [List.filter_eq_nil_iff]
    intro c hc
    have := (List.mem_filter.mp hc).2
    simp only [decide_eq_true_eq] at this ⊢
    omega
  have h4 : (m.filter (fun c => decide (a + v.length ≤ c.1))).filter
      (fun c => decide (a + v.length + w.length ≤ c.1)) =
      m.filter (fun c => decide (a + v.length + w.length ≤ c.1)) := by
    rw [List.filter_filter]
    congr 1
    funext c
    by_cases h : a + v.length + w.length ≤ c.1
    · have : a + v.length ≤ c.1 := by omega
      simp [h, this]
    · simp [h]
  simp only [Memory.writeBytes, List.filter_append, h1, h2, h3, h4, filter_lt_cellsAt (Nat.le_refl _),
    filter_ge_cellsAt (show a + v.length ≤ a + v.length + w.length by omega), cellsAt_append, List.length_append,
    List.append_nil, List.nil_append, List.append_assoc, ← Nat.add_assoc]

/-- A write of nothing changes no canonical memory. -/
theorem writeBytes_nil {m : Memory} (h : Memory.wf m) (a : Nat) : Memory.writeBytes m a [] = m := by
  simp only [Memory.writeBytes, cellsAt, List.append_nil, List.length_nil, Nat.add_zero]
  induction m with
  | nil => rfl
  | cons c m ih =>
    obtain ⟨h1, h2⟩ := List.pairwise_cons.mp h
    by_cases hc : c.1 < a
    · have hc' : ¬ a ≤ c.1 := by omega
      simp [hc, hc', ih h2]
    · have hc' : a ≤ c.1 := by omega
      have hlt : m.filter (fun d => decide (d.1 < a)) = [] := by
        rw [List.filter_eq_nil_iff]
        intro d hd
        have := h1 d hd
        simp only [decide_eq_true_eq]
        omega
      have hge : m.filter (fun d => decide (a ≤ d.1)) = m := by
        rw [List.filter_eq_self]
        intro d hd
        have := h1 d hd
        simp only [decide_eq_true_eq]
        omega
      simp [hc, hc', hlt, hge]

/-- A write of nothing at address 0 changes no memory at all. -/
@[simp] theorem writeBytes_zero_nil (m : Memory) : Memory.writeBytes m 0 [] = m := by
  simp [Memory.writeBytes, cellsAt]

/-- Every write keeps the canonical form. -/
theorem writeBytes_wf {m : Memory} (h : Memory.wf m) (a : Nat) (v : Bytes) :
    Memory.wf (Memory.writeBytes m a v) := by
  simp only [Memory.writeBytes, Memory.wf, List.pairwise_append, List.mem_append]
  refine ⟨⟨h.sublist List.filter_sublist, cellsAt_wf a v, fun c hc d hd => ?_⟩,
    h.sublist List.filter_sublist, fun c hc d hd => ?_⟩
  · have h1 := (List.mem_filter.mp hc).2
    have h2 := mem_cellsAt hd
    simp only [decide_eq_true_eq] at h1
    omega
  · have h2 := (List.mem_filter.mp hd).2
    simp only [decide_eq_true_eq] at h2
    rcases hc with hc | hc
    · have h1 := (List.mem_filter.mp hc).2
      simp only [decide_eq_true_eq] at h1
      omega
    · have h1 := mem_cellsAt hc
      omega

/-- A write inside the address space keeps every cell inside it. -/
theorem writeBytes_bounded {m : Memory} {size : Nat} (h : ∀ c ∈ m, c.1 < size) {a : Nat} {v : Bytes}
    (hv : v = [] ∨ a + v.length ≤ size) : ∀ c ∈ Memory.writeBytes m a v, c.1 < size := by
  intro c hc
  simp only [Memory.writeBytes, List.mem_append] at hc
  rcases hc with (hc | hc) | hc
  · exact h c (List.mem_of_mem_filter hc)
  · rcases hv with rfl | hv
    · simp [cellsAt] at hc
    · have := mem_cellsAt hc
      omega
  · exact h c (List.mem_of_mem_filter hc)

/-- A region write is the ascending sequence of its single-byte writes (R50). -/
theorem writeBytes_eq_single_writes (m : Memory) (a : Nat) (b : Byte) (bs : Bytes) :
    Memory.writeBytes m a (b :: bs) = Memory.writeBytes (Memory.writeBytes m a [b]) (a + 1) bs := by
  have := writeBytes_append m a [b] bs
  simpa using this.symm

/-- A strobed word write keeps the canonical form (R43). -/
theorem writeStrobed_wf {m : Memory} (h : Memory.wf m) (a : Nat) (w : Word) (strb : BitVec 4) :
    Memory.wf (Memory.writeStrobed m a w strb) := by
  unfold Memory.writeStrobed
  generalize List.range 4 = js
  induction js generalizing m with
  | nil => exact h
  | cons j js ih =>
    simp only [List.foldl_cons]
    split
    · exact ih (writeBytes_wf h _ _)
    · exact ih h

/-- A strobed word write inside the address space keeps every cell inside it. -/
theorem writeStrobed_bounded {m : Memory} {size : Nat} (h : ∀ c ∈ m, c.1 < size) {a : Nat} (ha : a + 4 ≤ size)
    (w : Word) (strb : BitVec 4) : ∀ c ∈ Memory.writeStrobed m a w strb, c.1 < size := by
  unfold Memory.writeStrobed
  have hjs : ∀ j ∈ List.range 4, j < 4 := by simp
  generalize List.range 4 = js at hjs
  induction js generalizing m with
  | nil => exact h
  | cons j js ih =>
    simp only [List.foldl_cons]
    have hj := hjs j (by simp)
    have hrest : ∀ i ∈ js, i < 4 := fun i hi => hjs i (by simp [hi])
    split
    · exact ih (writeBytes_bounded h (Or.inr (by simp only [List.length_cons, List.length_nil]; omega))) hrest
    · exact ih h hrest

end Sys2Proof.Machine
end

