-- ==== Sys2Proof/Laws/State.lean ====
section
/-! SUPPORT. One lemma per field per update of State: what each shared operation leaves in each field. All true by rfl. -/

namespace Sys2Proof.Machine

section
variable (s : State)

/-! rejection (60_exceptions.md R134) -/

@[simp] theorem reject_dmemSize (code : ErrCode) : (reject code s).dmemSize = s.dmemSize := rfl
@[simp] theorem reject_x (code : ErrCode) : (reject code s).x = s.x := rfl
@[simp] theorem reject_irqEn (code : ErrCode) : (reject code s).irqEn = s.irqEn := rfl
@[simp] theorem reject_busy (code : ErrCode) : (reject code s).busy = s.busy := rfl
@[simp] theorem reject_done (code : ErrCode) : (reject code s).done = true := rfl
@[simp] theorem reject_authOk (code : ErrCode) : (reject code s).authOk = false := rfl
@[simp] theorem reject_busyErr (code : ErrCode) : (reject code s).busyErr = s.busyErr := rfl
@[simp] theorem reject_err (code : ErrCode) : (reject code s).err = code := rfl
@[simp] theorem reject_phase (code : ErrCode) : (reject code s).phase = .rejected := rfl
@[simp] theorem reject_cmdLast (code : ErrCode) : (reject code s).cmdLast = s.cmdLast := rfl
@[simp] theorem reject_aAddr (code : ErrCode) : (reject code s).aAddr = s.aAddr := rfl
@[simp] theorem reject_aLen (code : ErrCode) : (reject code s).aLen = s.aLen := rfl
@[simp] theorem reject_mAddr (code : ErrCode) : (reject code s).mAddr = s.mAddr := rfl
@[simp] theorem reject_mLen (code : ErrCode) : (reject code s).mLen = s.mLen := rfl
@[simp] theorem reject_dAddr (code : ErrCode) : (reject code s).dAddr = s.dAddr := rfl
@[simp] theorem reject_outLen (code : ErrCode) : (reject code s).outLen = s.outLen := rfl
@[simp] theorem reject_key (code : ErrCode) : (reject code s).key = s.key := rfl
@[simp] theorem reject_nonce (code : ErrCode) : (reject code s).nonce = s.nonce := rfl
@[simp] theorem reject_tagIn (code : ErrCode) : (reject code s).tagIn = s.tagIn := rfl
@[simp] theorem reject_tagOut (code : ErrCode) : (reject code s).tagOut = s.tagOut := rfl
@[simp] theorem reject_cur (code : ErrCode) : (reject code s).cur = s.cur := rfl
@[simp] theorem reject_seq (code : ErrCode) : (reject code s).seq = s.seq := rfl
@[simp] theorem reject_tCalc (code : ErrCode) : (reject code s).tCalc = s.tCalc := rfl
@[simp] theorem reject_ok (code : ErrCode) : (reject code s).ok = s.ok := rfl
@[simp] theorem reject_dmem (code : ErrCode) : (reject code s).dmem = s.dmem := rfl
@[simp] theorem reject_rdata (code : ErrCode) : (reject code s).rdata = s.rdata := rfl
@[simp] theorem reject_freeCount (code : ErrCode) : (reject code s).freeCount = s.freeCount := rfl
@[simp] theorem reject_events (code : ErrCode) : (reject code s).events = s.events := rfl

/-! acceptance (43_control.md R117) -/

@[simp] theorem accept_dmemSize (c : Command) : (accept c s).dmemSize = s.dmemSize := rfl
@[simp] theorem accept_x (c : Command) : (accept c s).x = s.x := rfl
@[simp] theorem accept_irqEn (c : Command) : (accept c s).irqEn = s.irqEn := rfl
@[simp] theorem accept_busy (c : Command) : (accept c s).busy = true := rfl
@[simp] theorem accept_done (c : Command) : (accept c s).done = false := rfl
@[simp] theorem accept_authOk (c : Command) : (accept c s).authOk = false := rfl
@[simp] theorem accept_busyErr (c : Command) : (accept c s).busyErr = s.busyErr := rfl
@[simp] theorem accept_err (c : Command) : (accept c s).err = .noError := rfl
@[simp] theorem accept_phase (c : Command) : (accept c s).phase = firstPhase c := rfl
@[simp] theorem accept_cmdLast (c : Command) : (accept c s).cmdLast = s.cmdLast := rfl
@[simp] theorem accept_aAddr (c : Command) : (accept c s).aAddr = s.aAddr := rfl
@[simp] theorem accept_aLen (c : Command) : (accept c s).aLen = s.aLen := rfl
@[simp] theorem accept_mAddr (c : Command) : (accept c s).mAddr = s.mAddr := rfl
@[simp] theorem accept_mLen (c : Command) : (accept c s).mLen = s.mLen := rfl
@[simp] theorem accept_dAddr (c : Command) : (accept c s).dAddr = s.dAddr := rfl
@[simp] theorem accept_outLen (c : Command) : (accept c s).outLen = s.outLen := rfl
@[simp] theorem accept_key (c : Command) : (accept c s).key = s.key := rfl
@[simp] theorem accept_nonce (c : Command) : (accept c s).nonce = s.nonce := rfl
@[simp] theorem accept_tagIn (c : Command) : (accept c s).tagIn = s.tagIn := rfl
@[simp] theorem accept_tagOut (c : Command) : (accept c s).tagOut = QuadRegs.zero := rfl
@[simp] theorem accept_cur (c : Command) : (accept c s).cur = some c := rfl
@[simp] theorem accept_seq (c : Command) : (accept c s).seq = opsFor c s := rfl
@[simp] theorem accept_tCalc (c : Command) : (accept c s).tCalc = none := rfl
@[simp] theorem accept_ok (c : Command) : (accept c s).ok = none := rfl
@[simp] theorem accept_dmem (c : Command) : (accept c s).dmem = s.dmem := rfl
@[simp] theorem accept_rdata (c : Command) : (accept c s).rdata = s.rdata := rfl
@[simp] theorem accept_freeCount (c : Command) : (accept c s).freeCount = s.freeCount := rfl
@[simp] theorem accept_events (c : Command) : (accept c s).events = s.events := rfl

/-! completion (43_control.md R118) -/

@[simp] theorem completeCommand_dmemSize (c : Command) : (completeCommand c s).dmemSize = s.dmemSize := rfl
@[simp] theorem completeCommand_x (c : Command) : (completeCommand c s).x = PState.zero := rfl
@[simp] theorem completeCommand_irqEn (c : Command) : (completeCommand c s).irqEn = s.irqEn := rfl
@[simp] theorem completeCommand_busy (c : Command) : (completeCommand c s).busy = false := rfl
@[simp] theorem completeCommand_done (c : Command) : (completeCommand c s).done = true := rfl
@[simp] theorem completeCommand_authOk (c : Command) : (completeCommand c s).authOk = completedAuthOk c s := rfl
@[simp] theorem completeCommand_busyErr (c : Command) : (completeCommand c s).busyErr = s.busyErr := rfl
@[simp] theorem completeCommand_err (c : Command) : (completeCommand c s).err = s.err := rfl
@[simp] theorem completeCommand_phase (c : Command) : (completeCommand c s).phase = terminalPhase c s.ok := rfl
@[simp] theorem completeCommand_cmdLast (c : Command) : (completeCommand c s).cmdLast = s.cmdLast := rfl
@[simp] theorem completeCommand_aAddr (c : Command) : (completeCommand c s).aAddr = s.aAddr := rfl
@[simp] theorem completeCommand_aLen (c : Command) : (completeCommand c s).aLen = s.aLen := rfl
@[simp] theorem completeCommand_mAddr (c : Command) : (completeCommand c s).mAddr = s.mAddr := rfl
@[simp] theorem completeCommand_mLen (c : Command) : (completeCommand c s).mLen = s.mLen := rfl
@[simp] theorem completeCommand_dAddr (c : Command) : (completeCommand c s).dAddr = s.dAddr := rfl
@[simp] theorem completeCommand_outLen (c : Command) : (completeCommand c s).outLen = s.outLen := rfl
@[simp] theorem completeCommand_key (c : Command) : (completeCommand c s).key = completedKey c s := rfl
@[simp] theorem completeCommand_nonce (c : Command) : (completeCommand c s).nonce = completedQuad c s.nonce := rfl
@[simp] theorem completeCommand_tagIn (c : Command) : (completeCommand c s).tagIn = completedQuad c s.tagIn := rfl
@[simp] theorem completeCommand_tagOut (c : Command) : (completeCommand c s).tagOut = completedTagOut c s := rfl
@[simp] theorem completeCommand_cur (c : Command) : (completeCommand c s).cur = none := rfl
@[simp] theorem completeCommand_seq (c : Command) : (completeCommand c s).seq = [] := rfl
@[simp] theorem completeCommand_tCalc (c : Command) : (completeCommand c s).tCalc = none := rfl
@[simp] theorem completeCommand_ok (c : Command) : (completeCommand c s).ok = none := rfl
@[simp] theorem completeCommand_dmem (c : Command) : (completeCommand c s).dmem = s.dmem := rfl
@[simp] theorem completeCommand_rdata (c : Command) : (completeCommand c s).rdata = s.rdata := rfl
@[simp] theorem completeCommand_freeCount (c : Command) : (completeCommand c s).freeCount = s.freeCount := rfl
@[simp] theorem completeCommand_events (c : Command) : (completeCommand c s).events = s.events := rfl

/-! a dropped write (43_control.md R120) -/

@[simp] theorem dropWrite_dmemSize : (dropWrite s).dmemSize = s.dmemSize := rfl
@[simp] theorem dropWrite_x : (dropWrite s).x = s.x := rfl
@[simp] theorem dropWrite_irqEn : (dropWrite s).irqEn = s.irqEn := rfl
@[simp] theorem dropWrite_busy : (dropWrite s).busy = s.busy := rfl
@[simp] theorem dropWrite_done : (dropWrite s).done = s.done := rfl
@[simp] theorem dropWrite_authOk : (dropWrite s).authOk = s.authOk := rfl
@[simp] theorem dropWrite_busyErr : (dropWrite s).busyErr = true := rfl
@[simp] theorem dropWrite_err : (dropWrite s).err = s.err := rfl
@[simp] theorem dropWrite_phase : (dropWrite s).phase = s.phase := rfl
@[simp] theorem dropWrite_cmdLast : (dropWrite s).cmdLast = s.cmdLast := rfl
@[simp] theorem dropWrite_aAddr : (dropWrite s).aAddr = s.aAddr := rfl
@[simp] theorem dropWrite_aLen : (dropWrite s).aLen = s.aLen := rfl
@[simp] theorem dropWrite_mAddr : (dropWrite s).mAddr = s.mAddr := rfl
@[simp] theorem dropWrite_mLen : (dropWrite s).mLen = s.mLen := rfl
@[simp] theorem dropWrite_dAddr : (dropWrite s).dAddr = s.dAddr := rfl
@[simp] theorem dropWrite_outLen : (dropWrite s).outLen = s.outLen := rfl
@[simp] theorem dropWrite_key : (dropWrite s).key = s.key := rfl
@[simp] theorem dropWrite_nonce : (dropWrite s).nonce = s.nonce := rfl
@[simp] theorem dropWrite_tagIn : (dropWrite s).tagIn = s.tagIn := rfl
@[simp] theorem dropWrite_tagOut : (dropWrite s).tagOut = s.tagOut := rfl
@[simp] theorem dropWrite_cur : (dropWrite s).cur = s.cur := rfl
@[simp] theorem dropWrite_seq : (dropWrite s).seq = s.seq := rfl
@[simp] theorem dropWrite_tCalc : (dropWrite s).tCalc = s.tCalc := rfl
@[simp] theorem dropWrite_ok : (dropWrite s).ok = s.ok := rfl
@[simp] theorem dropWrite_dmem : (dropWrite s).dmem = s.dmem := rfl
@[simp] theorem dropWrite_rdata : (dropWrite s).rdata = s.rdata := rfl
@[simp] theorem dropWrite_freeCount : (dropWrite s).freeCount = s.freeCount := rfl
@[simp] theorem dropWrite_events : (dropWrite s).events = s.events := rfl

/-! reset (70_reset_and_hazards.md R147) -/

@[simp] theorem resetRegisters_dmemSize (d : Memory) : (resetRegisters d s).dmemSize = s.dmemSize := rfl
@[simp] theorem resetRegisters_x (d : Memory) : (resetRegisters d s).x = PState.zero := rfl
@[simp] theorem resetRegisters_irqEn (d : Memory) : (resetRegisters d s).irqEn = false := rfl
@[simp] theorem resetRegisters_busy (d : Memory) : (resetRegisters d s).busy = false := rfl
@[simp] theorem resetRegisters_done (d : Memory) : (resetRegisters d s).done = false := rfl
@[simp] theorem resetRegisters_authOk (d : Memory) : (resetRegisters d s).authOk = false := rfl
@[simp] theorem resetRegisters_busyErr (d : Memory) : (resetRegisters d s).busyErr = false := rfl
@[simp] theorem resetRegisters_err (d : Memory) : (resetRegisters d s).err = .noError := rfl
@[simp] theorem resetRegisters_phase (d : Memory) : (resetRegisters d s).phase = .idle := rfl
@[simp] theorem resetRegisters_cmdLast (d : Memory) : (resetRegisters d s).cmdLast = 0 := rfl
@[simp] theorem resetRegisters_aAddr (d : Memory) : (resetRegisters d s).aAddr = 0 := rfl
@[simp] theorem resetRegisters_aLen (d : Memory) : (resetRegisters d s).aLen = 0 := rfl
@[simp] theorem resetRegisters_mAddr (d : Memory) : (resetRegisters d s).mAddr = 0 := rfl
@[simp] theorem resetRegisters_mLen (d : Memory) : (resetRegisters d s).mLen = 0 := rfl
@[simp] theorem resetRegisters_dAddr (d : Memory) : (resetRegisters d s).dAddr = 0 := rfl
@[simp] theorem resetRegisters_outLen (d : Memory) : (resetRegisters d s).outLen = 0 := rfl
@[simp] theorem resetRegisters_key (d : Memory) : (resetRegisters d s).key = KeyRegs.zero := rfl
@[simp] theorem resetRegisters_nonce (d : Memory) : (resetRegisters d s).nonce = QuadRegs.zero := rfl
@[simp] theorem resetRegisters_tagIn (d : Memory) : (resetRegisters d s).tagIn = QuadRegs.zero := rfl
@[simp] theorem resetRegisters_tagOut (d : Memory) : (resetRegisters d s).tagOut = QuadRegs.zero := rfl
@[simp] theorem resetRegisters_cur (d : Memory) : (resetRegisters d s).cur = none := rfl
@[simp] theorem resetRegisters_seq (d : Memory) : (resetRegisters d s).seq = [] := rfl
@[simp] theorem resetRegisters_tCalc (d : Memory) : (resetRegisters d s).tCalc = none := rfl
@[simp] theorem resetRegisters_ok (d : Memory) : (resetRegisters d s).ok = none := rfl
@[simp] theorem resetRegisters_dmem (d : Memory) : (resetRegisters d s).dmem = d := rfl
@[simp] theorem resetRegisters_rdata (d : Memory) : (resetRegisters d s).rdata = s.rdata := rfl
@[simp] theorem resetRegisters_freeCount (d : Memory) : (resetRegisters d s).freeCount = s.freeCount := rfl
@[simp] theorem resetRegisters_events (d : Memory) : (resetRegisters d s).events = s.events := rfl

/-! one position of the sequencer -/

@[simp] theorem applyEffect_dmemSize (op : SeqOp) (rest : List SeqOp) (e : OpEffect) : (applyEffect op rest e s).dmemSize = s.dmemSize := rfl
@[simp] theorem applyEffect_x (op : SeqOp) (rest : List SeqOp) (e : OpEffect) : (applyEffect op rest e s).x = e.x := rfl
@[simp] theorem applyEffect_irqEn (op : SeqOp) (rest : List SeqOp) (e : OpEffect) : (applyEffect op rest e s).irqEn = s.irqEn := rfl
@[simp] theorem applyEffect_busy (op : SeqOp) (rest : List SeqOp) (e : OpEffect) : (applyEffect op rest e s).busy = s.busy := rfl
@[simp] theorem applyEffect_done (op : SeqOp) (rest : List SeqOp) (e : OpEffect) : (applyEffect op rest e s).done = s.done := rfl
@[simp] theorem applyEffect_authOk (op : SeqOp) (rest : List SeqOp) (e : OpEffect) : (applyEffect op rest e s).authOk = s.authOk := rfl
@[simp] theorem applyEffect_busyErr (op : SeqOp) (rest : List SeqOp) (e : OpEffect) : (applyEffect op rest e s).busyErr = s.busyErr := rfl
@[simp] theorem applyEffect_err (op : SeqOp) (rest : List SeqOp) (e : OpEffect) : (applyEffect op rest e s).err = s.err := rfl
@[simp] theorem applyEffect_phase (op : SeqOp) (rest : List SeqOp) (e : OpEffect) : (applyEffect op rest e s).phase = op.phase := rfl
@[simp] theorem applyEffect_cmdLast (op : SeqOp) (rest : List SeqOp) (e : OpEffect) : (applyEffect op rest e s).cmdLast = s.cmdLast := rfl
@[simp] theorem applyEffect_aAddr (op : SeqOp) (rest : List SeqOp) (e : OpEffect) : (applyEffect op rest e s).aAddr = s.aAddr := rfl
@[simp] theorem applyEffect_aLen (op : SeqOp) (rest : List SeqOp) (e : OpEffect) : (applyEffect op rest e s).aLen = s.aLen := rfl
@[simp] theorem applyEffect_mAddr (op : SeqOp) (rest : List SeqOp) (e : OpEffect) : (applyEffect op rest e s).mAddr = s.mAddr := rfl
@[simp] theorem applyEffect_mLen (op : SeqOp) (rest : List SeqOp) (e : OpEffect) : (applyEffect op rest e s).mLen = s.mLen := rfl
@[simp] theorem applyEffect_dAddr (op : SeqOp) (rest : List SeqOp) (e : OpEffect) : (applyEffect op rest e s).dAddr = s.dAddr := rfl
@[simp] theorem applyEffect_outLen (op : SeqOp) (rest : List SeqOp) (e : OpEffect) : (applyEffect op rest e s).outLen = s.outLen := rfl
@[simp] theorem applyEffect_key (op : SeqOp) (rest : List SeqOp) (e : OpEffect) : (applyEffect op rest e s).key = s.key := rfl
@[simp] theorem applyEffect_nonce (op : SeqOp) (rest : List SeqOp) (e : OpEffect) : (applyEffect op rest e s).nonce = s.nonce := rfl
@[simp] theorem applyEffect_tagIn (op : SeqOp) (rest : List SeqOp) (e : OpEffect) : (applyEffect op rest e s).tagIn = s.tagIn := rfl
@[simp] theorem applyEffect_tagOut (op : SeqOp) (rest : List SeqOp) (e : OpEffect) : (applyEffect op rest e s).tagOut = s.tagOut := rfl
@[simp] theorem applyEffect_cur (op : SeqOp) (rest : List SeqOp) (e : OpEffect) : (applyEffect op rest e s).cur = s.cur := rfl
@[simp] theorem applyEffect_seq (op : SeqOp) (rest : List SeqOp) (e : OpEffect) : (applyEffect op rest e s).seq = rest := rfl
@[simp] theorem applyEffect_tCalc (op : SeqOp) (rest : List SeqOp) (e : OpEffect) : (applyEffect op rest e s).tCalc = e.tCalc := rfl
@[simp] theorem applyEffect_ok (op : SeqOp) (rest : List SeqOp) (e : OpEffect) : (applyEffect op rest e s).ok = e.ok := rfl
@[simp] theorem applyEffect_dmem (op : SeqOp) (rest : List SeqOp) (e : OpEffect) : (applyEffect op rest e s).dmem = Memory.writeBytes s.dmem e.addr e.bytes := rfl
@[simp] theorem applyEffect_rdata (op : SeqOp) (rest : List SeqOp) (e : OpEffect) : (applyEffect op rest e s).rdata = s.rdata := rfl
@[simp] theorem applyEffect_freeCount (op : SeqOp) (rest : List SeqOp) (e : OpEffect) : (applyEffect op rest e s).freeCount = s.freeCount := rfl
@[simp] theorem applyEffect_events (op : SeqOp) (rest : List SeqOp) (e : OpEffect) : (applyEffect op rest e s).events = s.events := rfl

end

end Sys2Proof.Machine
end

