-- ==== Sys2Proof/Laws/Engine.lean ====
section
/-! SUPPORT. What the sequencer does with a group of positions, and from it what the whole sequence of a command leaves
(20_memory.md R52, 41_sponge.md R87, 42_duplex.md R105). -/

namespace Sys2Proof.Machine

@[simp] theorem andThen_next (s : State) (f : State → Host.Outcome State Fault Refusal) : andThen (.next s) f = f s := rfl

@[simp] theorem andThen_fault (r : Fault) (f : State → Host.Outcome State Fault Refusal) :
    andThen (.fault r) f = .fault r := rfl

@[simp] theorem andThen_refused (r : Refusal) (f : State → Host.Outcome State Fault Refusal) :
    andThen (.refused r) f = .refused r := rfl

theorem andThen_assoc (o : Host.Outcome State Fault Refusal) (f g : State → Host.Outcome State Fault Refusal) :
    andThen (andThen o f) g = andThen o (fun s => andThen (f s) g) := by cases o <;> rfl

theorem runOps_nil (c : Command) (s : State) : runOps c [] s = .next s := rfl

theorem runOps_cons_ok {c : Command} {op : SeqOp} {rest : List SeqOp} {s : State} {e : OpEffect}
    (h : opEffect c op s = .ok e) : runOps c (op :: rest) s = runOps c rest (applyEffect op rest e s) := by
  simp [runOps, h]

theorem runOps_cons_error {c : Command} {op : SeqOp} {rest : List SeqOp} {s : State} {a : Nat}
    (h : opEffect c op s = .error a) : runOps c (op :: rest) s = .fault (.commandReadUnwritten a) := by
  simp [runOps, h]

/-- Running the sequence and completing it is the same as stepping once and doing so from there. -/
theorem runToCompletion_step {s : State} {c : Command} (hb : s.busy = true) (hc : s.cur = some c)
    {op : SeqOp} {rest : List SeqOp} (hs : s.seq = op :: rest) :
    runToCompletion s = andThen (engineStep s) runToCompletion := by
  cases he : opEffect c op s with
  | error a => simp [runToCompletion, engineStep, hb, hc, hs, runOps, he]
  | ok e => simp [runToCompletion, engineStep, hb, hc, hs, runOps, he]

/-- A position that reads block j of a region whose bytes are D reads that slice of D. -/
theorem readBlock_ok {s : State} {reg : Region} {D : Bytes} {r j : Nat}
    (h : Memory.readBytes s.dmem reg.1 reg.2 = .ok D) (hj : j * r ≤ reg.2) :
    readBlock s reg r j = .ok (slice D (j * r) r) := by
  have hl := readBytes_length h
  rw [readBlock, readBytes_slice h (o := j * r) (k := min r (reg.2 - j * r)) (by omega), ← hl, slice_min]

/-- The last block of a region begins inside it. -/
theorem block_start_le {r n j : Nat} (h : j ≤ n / r) : j * r ≤ n :=
  Nat.le_trans (Nat.mul_le_mul_right r h) (Nat.div_mul_le_self n r)

theorem applyEffect_ofState (op : SeqOp) (rest : List SeqOp) (s : State) (x : PState) :
    applyEffect op rest (OpEffect.ofState s x) s = { s with x := x, phase := op.phase, seq := rest } := by
  simp [applyEffect, OpEffect.ofState, OpEffect.same]

/-- A group of positions that change x only. -/
theorem runOps_states (c : Command) (mk : Nat → SeqOp) (f : Nat → PState → PState) (ph : Phase)
    (hph : ∀ j, (mk j).phase = ph) (rest : List SeqOp) (s : State) (k j0 : Nat)
    (h : ∀ j, j0 ≤ j → j ≤ j0 + k → ∀ x p q,
      opEffect c (mk j) { s with x := x, phase := p, seq := q } =
        .ok (OpEffect.ofState { s with x := x, phase := p, seq := q } (f j x))) :
    runOps c ((List.range' j0 (k + 1)).map mk ++ rest) s =
      runOps c rest
        { s with x := (List.range' j0 (k + 1)).foldl (fun x j => f j x) s.x, phase := ph, seq := rest } := by
  induction k generalizing j0 s with
  | zero =>
    have h0 := h j0 (Nat.le_refl _) (by omega) s.x s.phase s.seq
    have : List.range' j0 (0 + 1) = [j0] := rfl
    rw [this, List.map_cons, List.map_nil, List.cons_append, List.nil_append, runOps_cons_ok h0]
    rw [applyEffect_ofState, hph]
    rfl
  | succ k ih =>
    have h0 := h j0 (Nat.le_refl _) (by omega) s.x s.phase s.seq
    rw [List.range'_succ, List.map_cons, List.cons_append, runOps_cons_ok h0, applyEffect_ofState]
    exact ih { s with
        x := f j0 s.x, phase := (mk j0).phase, seq := (List.range' (j0 + 1) (k + 1)).map mk ++ rest } (j0 + 1)
      (fun j h1 h2 x p q => h j (by omega) (by omega) x p q)

/-- What a group of positions gives that each write some bytes and change x: the bytes, one after the other, and x. -/
def runLoop (f : Nat → PState → PState) (w : Nat → PState → Bytes) : List Nat → PState → Bytes × PState
  | [], x => ([], x)
  | j :: js, x => (w j x ++ (runLoop f w js (f j x)).1, (runLoop f w js (f j x)).2)

/-- d is the memory d0 after W was written at D, as far as reading and further writing at its end can tell. -/
structure Written (d0 : Memory) (D : Nat) (W : Bytes) (d : Memory) : Prop where
  write : ∀ V, Memory.writeBytes d (D + W.length) V = Memory.writeBytes d0 D (W ++ V)
  read : ∀ b, Memory.byteAt d b = Memory.byteAt (Memory.writeBytes d0 D W) b

theorem Written.start (d0 : Memory) (D : Nat) : Written d0 D [] d0 :=
  ⟨fun V => by simp, fun b => by simp⟩

theorem Written.made (d0 : Memory) (D : Nat) (W : Bytes) : Written d0 D W (Memory.writeBytes d0 D W) :=
  ⟨fun V => writeBytes_append d0 D W V, fun _ => rfl⟩

/-- A region away from what was written reads as before. -/
theorem Written.readBytes {d0 d : Memory} {D : Nat} {W : Bytes} (h : Written d0 D W d) {a n : Nat}
    (hd : a + n ≤ D ∨ D + W.length ≤ a) : Memory.readBytes d a n = Memory.readBytes d0 a n :=
  readBytes_congr fun b h1 h2 => by rw [h.read, byteAt_writeBytes_outside (by omega)]

/-- A group of positions that write block after block at D, D + r, ... -/
theorem runOps_writes (c : Command) (mk : Nat → SeqOp) (f : Nat → PState → PState) (w : Nat → PState → Bytes)
    (D r : Nat) (d0 : Memory) (ph : Phase) (hph : ∀ j, (mk j).phase = ph) (rest : List SeqOp) (s : State) (k j0 : Nat)
    (W : Bytes) (hW : W.length = j0 * r) (hd : Written d0 D W s.dmem)
    (h : ∀ j, j0 ≤ j → j ≤ j0 + k → ∀ x W' d p q, W'.length = j * r → Written d0 D W' d →
      opEffect c (mk j) { s with x := x, dmem := d, phase := p, seq := q } =
        .ok { x := f j x, tCalc := s.tCalc, ok := s.ok, addr := D + j * r, bytes := w j x })
    (hlen : ∀ j, j0 ≤ j → j < j0 + k → ∀ x, (w j x).length = r) :
    runOps c ((List.range' j0 (k + 1)).map mk ++ rest) s =
      runOps c rest
        { s with
          x := (runLoop f w (List.range' j0 (k + 1)) s.x).2
          dmem := Memory.writeBytes d0 D (W ++ (runLoop f w (List.range' j0 (k + 1)) s.x).1)
          phase := ph
          seq := rest } := by
  induction k generalizing j0 s W with
  | zero =>
    have h0 := h j0 (Nat.le_refl _) (by omega) s.x W s.dmem s.phase s.seq hW hd
    have : List.range' j0 (0 + 1) = [j0] := rfl
    rw [this, List.map_cons, List.map_nil, List.cons_append, List.nil_append, runOps_cons_ok h0]
    have hw := hd.write (w j0 s.x)
    rw [hW] at hw
    simp [applyEffect, hw, hph, runLoop]
  | succ k ih =>
    have h0 := h j0 (Nat.le_refl _) (by omega) s.x W s.dmem s.phase s.seq hW hd
    have hw := hd.write (w j0 s.x)
    rw [hW] at hw
    have hl : (W ++ w j0 s.x).length = (j0 + 1) * r := by
      rw [List.length_append, hW, hlen j0 (Nat.le_refl _) (by omega)]
      ring
    rw [List.range'_succ, List.map_cons, List.cons_append, runOps_cons_ok h0]
    have key := ih
      (applyEffect (mk j0) ((List.range' (j0 + 1) (k + 1)).map mk ++ rest)
        { x := f j0 s.x, tCalc := s.tCalc, ok := s.ok, addr := D + j0 * r, bytes := w j0 s.x } s)
      (j0 + 1) (W ++ w j0 s.x) hl
      (by simp only [applyEffect_dmem, hw]; exact Written.made d0 D _)
      (fun j h1 h2 x W' d p q hW' hd' => h j (by omega) (by omega) x W' d p q hW' hd')
      (fun j h1 h2 x => hlen j (by omega) (by omega) x)
    rw [key]
    simp [applyEffect, runLoop]

theorem range_eq_range' (n : Nat) : List.range n = List.range' 0 n := List.range_eq_range'

end Sys2Proof.Machine
end

