-- ==== Sys2Proof/Laws/DigestRun.lean ====
section
/-! SUPPORT. The sequence of a DIGEST command computes the sponge function of its inputs as they stand when it starts, and
writes it to D (41_sponge.md R84 to R87, 20_memory.md R52). -/

namespace Sys2Proof.Machine

/-- Blocks that other blocks follow are absorbed one by one (R85). -/
theorem absorb_append (v : SpongeVariant) (x : PState) (Bs Cs : List Bytes) (h : Cs ≠ []) :
    absorb v x (Bs ++ Cs) = absorb v (Bs.foldl (absorbInner v) x) Cs := by
  obtain ⟨init, last, rfl⟩ : ∃ init last, Cs = init ++ [last] :=
    ⟨Cs.dropLast, Cs.getLast h, (List.dropLast_append_getLast h).symm⟩
  rw [← List.append_assoc, absorb_concat, absorb_concat, List.foldl_append]

theorem run_spInit (v : SpongeVariant) (rest : List SeqOp) (s : State) :
    runOps (.digest v) (.spInit :: rest) s =
      runOps (.digest v) rest { s with x := spongeInit v, phase := .spInit, seq := rest } := by
  rw [runOps_cons_ok (e := OpEffect.ofState s (spongeInit v)) rfl, applyEffect_ofState]
  rfl

/-- CXOF's blocks before the message (R84). -/
theorem run_custom (rest : List SeqOp) (s : State) (Z : Bytes)
    (hZ : Memory.readBytes s.dmem s.aAddr.toNat s.aLen.toNat = .ok Z) :
    runOps (.digest .cxof)
        (SeqOp.spAbsorbLength :: (List.range (blockCount 8 s.aLen.toNat)).map SeqOp.spAbsorbCustom ++ rest) s =
      runOps (.digest .cxof) rest
        { s with
          x := (customBlocks .cxof Z).foldl (absorbInner .cxof) s.x, phase := .spAbsorb, seq := rest } := by
  have hl := readBytes_length hZ
  rw [List.cons_append, runOps_cons_ok (e := OpEffect.ofState s (absorbInner .cxof s.x (lengthBlock s.aLen.toNat))) rfl,
    applyEffect_ofState, blockCount, range_eq_range']
  rw [runOps_states (.digest .cxof) SeqOp.spAbsorbCustom
    (fun j x => absorbInner .cxof x (paddedBlock .le 8 (slice Z (j * 8) 8))) .spAbsorb (fun _ => rfl)]
  · simp only [customBlocks, List.foldl_cons, hl, pad_eq_map _ _ (show 0 < 8 by omega), List.foldl_map, blockCount,
      range_eq_range']
  · intro j _ hj x p q
    have hb : j * 8 ≤ s.aLen.toNat := block_start_le (by omega)
    have := readBlock_ok
      (s := { s with x := x, phase := p, seq := q }) (reg := (s.aAddr.toNat, s.aLen.toNat)) (r := 8) (j := j) hZ hb
    simp only [opEffect, digestEffect, aRegion, spongeRate, this]
    rfl

/-- The message blocks (R85): every block but the last is followed by p^b, the last by p^a. -/
theorem run_message (v : SpongeVariant) (rest : List SeqOp) (s : State) (M : Bytes)
    (hM : Memory.readBytes s.dmem s.mAddr.toNat s.mLen.toNat = .ok M) :
    runOps (.digest v) ((List.range (blockCount 8 s.mLen.toNat)).map SeqOp.spAbsorbMessage ++ rest) s =
      runOps (.digest v) rest
        { s with
          x := absorb v s.x (pad (spongeConfig v).profile M 8), phase := .spAbsorb, seq := rest } := by
  have hl := readBytes_length hM
  have hfold : ∀ x : PState,
      (List.range' 0 (s.mLen.toNat / 8 + 1)).foldl
        (fun x j =>
          if j < s.mLen.toNat / 8 then absorbInner v x (paddedBlock (spongeConfig v).profile 8 (slice M (j * 8) 8))
          else absorbLast v x (paddedBlock (spongeConfig v).profile 8 (slice M (j * 8) 8))) x =
      absorb v x (pad (spongeConfig v).profile M 8) := by
    intro x
    rw [pad_eq_map _ _ (show 0 < 8 by omega), blockCount, hl, List.range_succ, List.map_append, List.map_cons,
      List.map_nil, absorb_concat, List.foldl_map, ← range_eq_range', List.range_succ, List.foldl_append, List.foldl_cons,
      List.foldl_nil, if_neg (by omega)]
    congr 1
    apply List.foldl_ext
    intro y j hj
    rw [if_pos (by simpa using hj)]
  rw [blockCount, range_eq_range']
  rw [runOps_states (.digest v) SeqOp.spAbsorbMessage
    (fun j x =>
      if j < s.mLen.toNat / 8 then absorbInner v x (paddedBlock (spongeConfig v).profile 8 (slice M (j * 8) 8))
      else absorbLast v x (paddedBlock (spongeConfig v).profile 8 (slice M (j * 8) 8))) .spAbsorb (fun _ => rfl)]
  · rw [hfold]
  · intro j _ hj x p q
    have hb : j * 8 ≤ s.mLen.toNat := block_start_le (by omega)
    have := readBlock_ok
      (s := { s with x := x, phase := p, seq := q }) (reg := (s.mAddr.toNat, s.mLen.toNat)) (r := 8) (j := j) hM hb
    simp only [opEffect, digestEffect, mRegion, spongeRate, this]
    split <;> rfl

/-- The reads of the rate, cut to the output length, are `squeeze` (R86). -/
theorem squeeze_runLoop (v : SpongeVariant) (L : Nat) (k j0 : Nat) (hk : j0 + k = (L - 1) / 8) (x : PState) :
    (runLoop (fun j x => if (j + 1) * 8 < L then permute x (spongeConfig v).b else x)
      (fun j x => (rateBytes (spongeConfig v).profile x 8).take (L - j * 8)) (List.range' j0 (k + 1)) x).1 =
    (squeezeLoop v (k + 1) x).take (L - j0 * 8) := by
  induction k generalizing j0 x with
  | zero =>
    have : List.range' j0 (0 + 1) = [j0] := rfl
    simp [this, runLoop, squeezeLoop]
  | succ k ih =>
    have hlt : (j0 + 1) * 8 < L := by omega
    have h8 : (rateBytes (spongeConfig v).profile x 8).length = 8 := by simp
    rw [List.range'_succ, runLoop, if_pos hlt]
    rw [ih (j0 + 1) (by omega)]
    have hs : squeezeLoop v (k + 1 + 1) x =
        rateBytes (spongeConfig v).profile x 8 ++ squeezeLoop v (k + 1) (permute x (spongeConfig v).b) := by
      rw [squeezeLoop, spongeRate]
    have hcut : (rateBytes (spongeConfig v).profile x 8).take (L - j0 * 8) =
        rateBytes (spongeConfig v).profile x 8 := List.take_of_length_le (by omega)
    rw [hs, List.take_append, h8, hcut, show L - (j0 + 1) * 8 = L - j0 * 8 - 8 by omega]

/-- Squeezing writes the truncated output to D, block after block (R86). -/
theorem run_squeeze (v : SpongeVariant) (s : State) :
    ∃ xf, runOps (.digest v)
        ((List.range (squeezeReads 8 (digestLen v s))).map SeqOp.spSqueeze) s =
      .next { s with
        x := xf
        dmem := Memory.writeBytes s.dmem s.dAddr.toNat (squeeze v s.x (digestLen v s))
        phase := .spSqueeze
        seq := [] } := by
  have h := runOps_writes (.digest v) SeqOp.spSqueeze
    (fun j x => if (j + 1) * 8 < digestLen v s then permute x (spongeConfig v).b else x)
    (fun j x => (rateBytes (spongeConfig v).profile x 8).take (digestLen v s - j * 8)) s.dAddr.toNat 8 s.dmem
    .spSqueeze (fun _ => rfl) [] s ((digestLen v s - 1) / 8) 0 [] (by simp) (Written.start _ _)
    (by
      intro j _ hj x W' d p q _ _
      simp only [opEffect, digestEffect, squeezeEffect, spongeRate]
      rfl)
    (by
      intro j _ hj x
      simp only [List.length_take, rateBytes_length]
      omega)
  rw [List.append_nil, squeeze_runLoop v _ _ 0 (by omega)] at h
  generalize (runLoop _ _ _ _).2 = xf at h
  refine ⟨xf, ?_⟩
  rw [squeezeReads, range_eq_range', h, squeeze, spongeRate, squeezeReads, runOps_nil]
  simp

/-- CXOF's positions before the message; none for the other variants. -/
def customOps (v : SpongeVariant) (s : State) : List SeqOp :=
  if v = .cxof then
    SeqOp.spAbsorbLength :: (List.range (blockCount 8 s.aLen.toNat)).map SeqOp.spAbsorbCustom
  else []

theorem run_customOps (v : SpongeVariant) (s : State) (Z : Bytes)
    (hZ : v = .cxof → Memory.readBytes s.dmem s.aAddr.toNat s.aLen.toNat = .ok Z) (y : PState) (p0 : Phase)
    (rest : List SeqOp) :
    ∃ p, runOps (.digest v) (customOps v s ++ rest) { s with x := y, phase := p0, seq := customOps v s ++ rest } =
      runOps (.digest v) rest
        { s with x := (customBlocks v Z).foldl (absorbInner v) y, phase := p, seq := rest } := by
  by_cases hv : v = .cxof
  · subst hv
    refine ⟨.spAbsorb, ?_⟩
    rw [customOps, if_pos rfl]
    exact run_custom rest
      { s with
        x := y, phase := p0
        seq := SeqOp.spAbsorbLength :: (List.range (blockCount 8 s.aLen.toNat)).map SeqOp.spAbsorbCustom ++ rest }
      Z (hZ rfl)
  · refine ⟨p0, ?_⟩
    have hc : customBlocks v Z = [] := by cases v <;> first | rfl | exact absurd rfl hv
    simp [customOps, hv, hc]

/-- The whole of a DIGEST command's sequence (41_sponge.md section 2). -/
theorem run_digest (v : SpongeVariant) (s : State) (M Z : Bytes)
    (hM : Memory.readBytes s.dmem s.mAddr.toNat s.mLen.toNat = .ok M)
    (hZ : v = .cxof → Memory.readBytes s.dmem s.aAddr.toNat s.aLen.toNat = .ok Z) :
    ∃ xf, runOps (.digest v) (opsFor (.digest v) s) s =
      .next { s with
        x := xf
        dmem := Memory.writeBytes s.dmem s.dAddr.toNat (sponge v M Z (digestLen v s))
        phase := .spSqueeze
        seq := [] } := by
  have hne : pad (spongeConfig v).profile M 8 ≠ [] := by simp [pad]
  have hops : opsFor (.digest v) s = SeqOp.spInit :: (customOps v s ++
      ((List.range (blockCount 8 s.mLen.toNat)).map SeqOp.spAbsorbMessage ++
      (List.range (squeezeReads 8 (digestLen v s))).map SeqOp.spSqueeze)) := by
    simp [opsFor, digestSequence, customOps]
  rw [hops, run_spInit]
  obtain ⟨p, hp⟩ := run_customOps v s Z hZ (spongeInit v) .spInit
    ((List.range (blockCount 8 s.mLen.toNat)).map SeqOp.spAbsorbMessage ++
      (List.range (squeezeReads 8 (digestLen v s))).map SeqOp.spSqueeze)
  rw [hp, sponge, spongeRate, absorb_append v _ _ _ hne]
  generalize (customBlocks v Z).foldl (absorbInner v) (spongeInit v) = y0
  have hm := run_message v ((List.range (squeezeReads 8 (digestLen v s))).map SeqOp.spSqueeze)
    { s with
      x := y0, phase := p
      seq := (List.range (blockCount 8 s.mLen.toNat)).map SeqOp.spAbsorbMessage ++
        (List.range (squeezeReads 8 (digestLen v s))).map SeqOp.spSqueeze } M hM
  dsimp only at hm
  rw [hm]
  generalize absorb v y0 (pad (spongeConfig v).profile M 8) = y
  exact run_squeeze v
    { s with x := y, phase := .spAbsorb, seq := (List.range (squeezeReads 8 (digestLen v s))).map SeqOp.spSqueeze }

end Sys2Proof.Machine
end

