-- ==== Sys2Proof/Laws/DuplexRun.lean ====
section
/-! SUPPORT. The sequences of ENC and DEC compute Encrypt and Decrypt of their inputs as they stand when they start, and
write the text to D (42_duplex.md R105, R108, R109, 20_memory.md R52). -/

namespace Sys2Proof.Machine

/-- The positions of one pass before its text phase. -/
def startOps (p : Pass) (v : DuplexVariant) (s : State) : List SeqOp :=
  [SeqOp.dxInit p] ++
  ((if s.aLen.toNat = 0 then []
    else (List.range (blockCount (duplexConfig v).rate s.aLen.toNat)).map (SeqOp.dxAd p)) ++ [SeqOp.dxSeparate p])

/-- The positions of the text phase of one pass. -/
def textOps (p : Pass) (v : DuplexVariant) (s : State) : List SeqOp :=
  (List.range (blockCount (duplexConfig v).rate s.mLen.toNat)).map (SeqOp.dxText p)

theorem duplexPass_eq (p : Pass) (v : DuplexVariant) (s : State) :
    duplexPass p v s = startOps p v s ++ textOps p v s := by
  simp [duplexPass, startOps, textOps]

/-- A DEC or ENC position of initialisation, associated data or domain separation is `duplexStartEffect`. -/
structure SharesStart (c : Command) (v : DuplexVariant) : Prop where
  init : ∀ p s, opEffect c (.dxInit p) s = duplexStartEffect v (.dxInit p) s
  ad : ∀ p j s, opEffect c (.dxAd p j) s = duplexStartEffect v (.dxAd p j) s
  separate : ∀ p s, opEffect c (.dxSeparate p) s = duplexStartEffect v (.dxSeparate p) s

theorem enc_sharesStart (v : DuplexVariant) : SharesStart (.enc v) v := ⟨fun _ _ => rfl, fun _ _ _ => rfl, fun _ _ => rfl⟩

theorem dec_sharesStart (v : DuplexVariant) : SharesStart (.dec v) v := ⟨fun _ _ => rfl, fun _ _ _ => rfl, fun _ _ => rfl⟩

theorem phase_dxAd (p : Pass) (j : Nat) : (SeqOp.dxAd p j).phase = (SeqOp.dxAd p 0).phase := by cases p <;> rfl

theorem phase_dxText (p : Pass) (j : Nat) : (SeqOp.dxText p j).phase = (SeqOp.dxText p 0).phase := by cases p <;> rfl

theorem run_dxInit {c : Command} {v : DuplexVariant} (hc : SharesStart c v) (p : Pass) (rest : List SeqOp) (s : State)
    (hp : passRuns p s = true) :
    runOps c (.dxInit p :: rest) s =
      runOps c rest
        { s with
          x := duplexInit v (keyOperand v s) (nonceOperand s), phase := (SeqOp.dxInit p).phase, seq := rest } := by
  have h : opEffect c (.dxInit p) s = .ok (OpEffect.ofState s (duplexInit v (keyOperand v s) (nonceOperand s))) := by
    rw [hc.init, duplexStartEffect, if_pos hp]
  rw [runOps_cons_ok h, applyEffect_ofState]

theorem run_dxSeparate {c : Command} {v : DuplexVariant} (hc : SharesStart c v) (p : Pass) (rest : List SeqOp)
    (s : State) (hp : passRuns p s = true) :
    runOps c (.dxSeparate p :: rest) s =
      runOps c rest { s with x := separateDomain s.x, phase := (SeqOp.dxSeparate p).phase, seq := rest } := by
  have h : opEffect c (.dxSeparate p) s = .ok (OpEffect.ofState s (separateDomain s.x)) := by
    rw [hc.separate, duplexStartEffect, if_pos hp]
  rw [runOps_cons_ok h, applyEffect_ofState]

/-- The associated-data positions absorb the padded blocks of A (R97). -/
theorem run_dxAd {c : Command} {v : DuplexVariant} (hc : SharesStart c v) (p : Pass) (rest : List SeqOp) (s : State)
    (hp : passRuns p s = true) (A : Bytes) (hA : Memory.readBytes s.dmem s.aAddr.toNat s.aLen.toNat = .ok A) :
    ∃ ph, runOps c
        ((if s.aLen.toNat = 0 then []
          else (List.range (blockCount (duplexConfig v).rate s.aLen.toNat)).map (SeqOp.dxAd p)) ++ rest)
        { s with
          seq := (if s.aLen.toNat = 0 then []
            else (List.range (blockCount (duplexConfig v).rate s.aLen.toNat)).map (SeqOp.dxAd p)) ++ rest } =
      runOps c rest { s with x := duplexAd v s.x A, phase := ph, seq := rest } := by
  have hl := readBytes_length hA
  by_cases h0 : s.aLen.toNat = 0
  · refine ⟨s.phase, ?_⟩
    simp only [h0, if_true, List.nil_append, duplexAd, hl]
  · refine ⟨(SeqOp.dxAd p 0).phase, ?_⟩
    simp only [if_neg h0, duplexAd, hl, pad_eq_map _ _ (duplexRate_pos v), blockCount, range_eq_range', List.foldl_map]
    rw [runOps_states c (SeqOp.dxAd p)
      (fun j x => absorbAd v x
        (paddedBlock .be (duplexConfig v).rate (slice A (j * (duplexConfig v).rate) (duplexConfig v).rate)))
      (SeqOp.dxAd p 0).phase (phase_dxAd p)]
    intro j _ hj x ph q
    have hb : j * (duplexConfig v).rate ≤ s.aLen.toNat := block_start_le (by omega)
    have hr := readBlock_ok (s := { s with x := x, phase := ph, seq := q }) (reg := (s.aAddr.toNat, s.aLen.toNat)) hA hb
    have hp' : passRuns p { s with x := x, phase := ph, seq := q } = true := hp
    simp only [hc.ad, duplexStartEffect, hp', aRegion, hr]
    rfl

/-- Initialisation, associated data and domain separation of a pass that runs (R105). -/
theorem run_startOps {c : Command} {v : DuplexVariant} (hc : SharesStart c v) (p : Pass) (rest : List SeqOp) (s : State)
    (hp : passRuns p s = true) (A : Bytes) (hA : Memory.readBytes s.dmem s.aAddr.toNat s.aLen.toNat = .ok A) :
    runOps c (startOps p v s ++ rest) s =
      runOps c rest
        { s with
          x := duplexStart v (keyOperand v s) (nonceOperand s) A
          phase := (SeqOp.dxSeparate p).phase, seq := rest } := by
  rw [startOps, List.append_assoc, List.append_assoc, List.singleton_append, List.singleton_append,
    run_dxInit hc p _ s hp]
  obtain ⟨ph, h⟩ := run_dxAd hc p (.dxSeparate p :: rest)
    { s with
      x := duplexInit v (keyOperand v s) (nonceOperand s), phase := (SeqOp.dxInit p).phase } hp A hA
  have h2 := run_dxSeparate hc p rest
    { s with
      x := duplexAd v (duplexInit v (keyOperand v s) (nonceOperand s)) A, phase := ph, seq := .dxSeparate p :: rest } hp
  dsimp only at h h2
  rw [h, h2, duplexStart]

/-- Positions without effect. -/
theorem runOps_skip (c : Command) (ph : Phase) (ops rest : List SeqOp) (hne : ops ≠ []) (s : State)
    (h : ∀ op ∈ ops, op.phase = ph ∧ ∀ p q,
      opEffect c op { s with phase := p, seq := q } = .ok (OpEffect.same { s with phase := p, seq := q })) :
    runOps c (ops ++ rest) s = runOps c rest { s with phase := ph, seq := rest } := by
  induction ops generalizing s with
  | nil => exact absurd rfl hne
  | cons op ops ih =>
    obtain ⟨hph, he⟩ := h op (by simp)
    have hstep : applyEffect op (ops ++ rest) (OpEffect.same s) s = { s with phase := ph, seq := ops ++ rest } := by
      simp [applyEffect, OpEffect.same, hph]
    rw [List.cons_append, runOps_cons_ok (he s.phase s.seq), hstep]
    cases ops with
    | nil => rfl
    | cons o os =>
      exact ih (by simp) { s with phase := ph, seq := o :: os ++ rest }
        (fun op' hop => ⟨(h op' (List.mem_cons_of_mem _ hop)).1, fun p q => (h op' (List.mem_cons_of_mem _ hop)).2 p q⟩)

/-- The start positions of a second pass that does not run have no effect (R109). -/
theorem run_startOps_skipped (v : DuplexVariant) (rest : List SeqOp) (s : State) (hp : passRuns .second s = false) :
    runOps (.dec v) (startOps .second v s ++ rest) s = runOps (.dec v) rest { s with phase := .dxFinal, seq := rest } := by
  apply runOps_skip
  · simp [startOps]
  · intro op hop
    have hp' : ∀ p q, passRuns .second { s with phase := p, seq := q } = false := fun _ _ => hp
    simp only [startOps, List.mem_append, List.mem_singleton] at hop
    rcases hop with rfl | hop | rfl
    · exact ⟨rfl, fun p q => by simp only [opEffect, decEffect, duplexStartEffect, hp', Bool.false_eq_true, if_false]⟩
    · split at hop
      · simp at hop
      · obtain ⟨j, -, rfl⟩ := List.mem_map.mp hop
        exact ⟨rfl, fun p q => by simp only [opEffect, decEffect, duplexStartEffect, hp', Bool.false_eq_true, if_false]⟩
    · exact ⟨rfl, fun p q => by simp only [opEffect, decEffect, duplexStartEffect, hp', Bool.false_eq_true, if_false]⟩

theorem encryptText_eq_runLoop (v : DuplexVariant) (blk : Nat → Bytes) (js : List Nat) (x : PState) :
    encryptText v x (js.map blk) =
      runLoop (fun j x => absorbCipher v x (encryptBlock v x (blk j))) (fun j x => encryptBlock v x (blk j)) js x := by
  induction js generalizing x with
  | nil => rfl
  | cons j js ih => simp [encryptText, runLoop, ih]

theorem decryptText_eq_runLoop (v : DuplexVariant) (blk : Nat → Bytes) (js : List Nat) (x : PState) :
    decryptText v x (js.map blk) =
      runLoop (fun j x => absorbCipher v x (blk j)) (fun j x => decryptBlock v x (blk j)) js x := by
  induction js generalizing x with
  | nil => rfl
  | cons j js ih => simp [decryptText, runLoop, ih]

theorem decryptText_state (v : DuplexVariant) (blk : Nat → Bytes) (js : List Nat) (x : PState) :
    (decryptText v x (js.map blk)).2 = js.foldl (fun x j => absorbCipher v x (blk j)) x := by
  induction js generalizing x with
  | nil => rfl
  | cons j js ih => simp [decryptText, ih]

theorem zeros_runLoop (r n : Nat) (hr : 0 < r) (k j0 : Nat) (hk : j0 + k = n / r) (x : PState) :
    runLoop (fun _ x => x) (fun j _ => zeros (min r (n - j * r))) (List.range' j0 (k + 1)) x =
      (zeros (n - j0 * r), x) := by
  induction k generalizing j0 with
  | zero =>
    have hlt : n < n / r * r + r := by
      have := Nat.lt_div_mul_add (a := n) hr
      omega
    have : List.range' j0 (0 + 1) = [j0] := rfl
    have hj : j0 = n / r := by omega
    subst hj
    simp only [this, runLoop, List.append_nil]
    rw [Nat.min_eq_right (by omega)]
  | succ k ih =>
    have hle : (j0 + 1) * r ≤ n := block_start_le (by omega)
    have h2 : (j0 + 1) * r = j0 * r + r := by ring
    rw [List.range'_succ, runLoop, ih (j0 + 1) (by omega), Nat.min_eq_left (by omega), zeros_append]
    congr 2
    omega

/-- A block of M reads the same after any earlier blocks were written, whenever D does not start strictly inside M
(60_exceptions.md R133, 20_memory.md R52). -/
theorem readBlock_written {s : State} {M : Bytes} (hM : Memory.readBytes s.dmem s.mAddr.toNat s.mLen.toNat = .ok M)
    (hov : overlaps s = false) {r j : Nat} (hj : j * r ≤ s.mLen.toNat) {W' : Bytes} (hW : W'.length = j * r) {d : Memory}
    (hd : Written s.dmem s.dAddr.toNat W' d) (x : PState) (p : Phase) (q : List SeqOp) :
    readBlock { s with x := x, dmem := d, phase := p, seq := q } (s.mAddr.toNat, s.mLen.toNat) r j =
      .ok (slice M (j * r) r) := by
  have h0 := readBlock_ok (s := s) (reg := (s.mAddr.toNat, s.mLen.toNat)) (r := r) hM hj
  rw [← h0, readBlock, readBlock]
  apply hd.readBytes
  simp only [overlaps, Bool.and_eq_false_iff, decide_eq_false_iff_not] at hov
  dsimp only
  omega

theorem slice_block_length {M : Bytes} {n r j : Nat} (hl : M.length = n) (hj : (j + 1) * r ≤ n) :
    (slice M (j * r) r).length = r := by
  have h2 : (j + 1) * r = j * r + r := by ring
  simp only [slice_length]
  omega

/-- The text phase of ENC (R99, R108). -/
theorem run_encText (v : DuplexVariant) (rest : List SeqOp) (s : State) (P : Bytes)
    (hP : Memory.readBytes s.dmem s.mAddr.toNat s.mLen.toNat = .ok P) (hov : overlaps s = false) :
    runOps (.enc v) (textOps .first v s ++ rest) s =
      runOps (.enc v) rest
        { s with
          x := (encryptText v s.x (textBlocks (duplexConfig v).rate P)).2
          dmem := Memory.writeBytes s.dmem s.dAddr.toNat
            (encryptText v s.x (textBlocks (duplexConfig v).rate P)).1
          phase := .dxText
          seq := rest } := by
  have hl := readBytes_length hP
  have h := runOps_writes (.enc v) (SeqOp.dxText .first)
    (fun j x => absorbCipher v x
      (encryptBlock v x (slice P (j * (duplexConfig v).rate) (duplexConfig v).rate)))
    (fun j x => encryptBlock v x (slice P (j * (duplexConfig v).rate) (duplexConfig v).rate))
    s.dAddr.toNat (duplexConfig v).rate s.dmem .dxText (fun _ => rfl) rest s (s.mLen.toNat / (duplexConfig v).rate) 0 []
    (by simp) (Written.start _ _)
    (by
      intro j _ hj x W' d p q hW hd
      have hr := readBlock_written hP hov (r := (duplexConfig v).rate) (j := j) (block_start_le (by omega)) hW hd x p q
      simp only [opEffect, encEffect, encTextEffect, mRegion, hr]
      rfl)
    (by
      intro j _ hj x
      have hs := slice_block_length (r := (duplexConfig v).rate) hl (block_start_le (j := j + 1) (by omega))
      rw [encryptBlock_length (by omega), hs])
  rw [textOps, blockCount, range_eq_range', h, textBlocks, hl, range_eq_range', encryptText_eq_runLoop]
  simp

/-- The text phase of DEC's first pass: the state follows the ciphertext, DMEM stays (R100, R109). -/
theorem run_decVerify (v : DuplexVariant) (rest : List SeqOp) (s : State) (C : Bytes)
    (hC : Memory.readBytes s.dmem s.mAddr.toNat s.mLen.toNat = .ok C) :
    runOps (.dec v) (textOps .first v s ++ rest) s =
      runOps (.dec v) rest
        { s with
          x := (decryptText v s.x (textBlocks (duplexConfig v).rate C)).2, phase := .dxText, seq := rest } := by
  have hl := readBytes_length hC
  rw [textOps, blockCount, range_eq_range']
  rw [runOps_states (.dec v) (SeqOp.dxText .first)
    (fun j x => absorbCipher v x (slice C (j * (duplexConfig v).rate) (duplexConfig v).rate)) .dxText (fun _ => rfl)]
  · rw [textBlocks, hl, range_eq_range', decryptText_state]
  · intro j _ hj x p q
    have hb : j * (duplexConfig v).rate ≤ s.mLen.toNat := block_start_le (by omega)
    have hr := readBlock_ok (s := { s with x := x, phase := p, seq := q }) (reg := (s.mAddr.toNat, s.mLen.toNat)) hC hb
    simp only [opEffect, decEffect, decVerifyEffect, mRegion, hr]

/-- The text phase of DEC's second pass after a match: the plaintext (R100, R109). -/
theorem run_decWrite (v : DuplexVariant) (s : State) (C : Bytes)
    (hC : Memory.readBytes s.dmem s.mAddr.toNat s.mLen.toNat = .ok C) (hov : overlaps s = false)
    (hok : s.ok = some true) :
    ∃ xf, runOps (.dec v) (textOps .second v s) s =
      .next { s with
        x := xf
        dmem := Memory.writeBytes s.dmem s.dAddr.toNat
          (decryptText v s.x (textBlocks (duplexConfig v).rate C)).1
        phase := .dxFinal
        seq := [] } := by
  have hl := readBytes_length hC
  have h := runOps_writes (.dec v) (SeqOp.dxText .second)
    (fun j x => absorbCipher v x (slice C (j * (duplexConfig v).rate) (duplexConfig v).rate))
    (fun j x => decryptBlock v x (slice C (j * (duplexConfig v).rate) (duplexConfig v).rate))
    s.dAddr.toNat (duplexConfig v).rate s.dmem .dxFinal (fun _ => rfl) [] s (s.mLen.toNat / (duplexConfig v).rate) 0 []
    (by simp) (Written.start _ _)
    (by
      intro j _ hj x W' d p q hW hd
      have hr := readBlock_written hC hov (r := (duplexConfig v).rate) (j := j) (block_start_le (by omega)) hW hd x p q
      have hpass : passRuns .second { s with x := x, dmem := d, phase := p, seq := q } = true := by
        simp [passRuns, hok]
      simp only [opEffect, decEffect, decWriteEffect, mRegion, hr, hpass, if_true]
      rfl)
    (by
      intro j _ hj x
      have hs := slice_block_length (r := (duplexConfig v).rate) hl (block_start_le (j := j + 1) (by omega))
      rw [decryptBlock_length (by omega), hs])
  rw [List.append_nil, ← decryptText_eq_runLoop] at h
  rw [textOps, blockCount, range_eq_range', textBlocks, hl, range_eq_range']
  generalize decryptText v s.x _ = out at h ⊢
  refine ⟨out.2, ?_⟩
  rw [h, runOps_nil]
  simp only [List.nil_append]

/-- The text phase of DEC's second pass after a mismatch: M_LEN zeros (R103, R109). -/
theorem run_decZero (v : DuplexVariant) (s : State) (hok : passRuns .second s = false) :
    runOps (.dec v) (textOps .second v s) s =
      .next { s with
        dmem := Memory.writeBytes s.dmem s.dAddr.toNat (zeros s.mLen.toNat), phase := .dxFinal, seq := [] } := by
  have h := runOps_writes (.dec v) (SeqOp.dxText .second) (fun _ x => x)
    (fun j _ => zeros (min (duplexConfig v).rate (s.mLen.toNat - j * (duplexConfig v).rate)))
    s.dAddr.toNat (duplexConfig v).rate s.dmem .dxFinal (fun _ => rfl) [] s (s.mLen.toNat / (duplexConfig v).rate) 0 []
    (by simp) (Written.start _ _)
    (by
      intro j _ hj x W' d p q hW hd
      have hpass : passRuns .second { s with x := x, dmem := d, phase := p, seq := q } = false := hok
      simp only [opEffect, decEffect, decWriteEffect, hpass, Bool.false_eq_true, if_false]
      rfl)
    (by
      intro j _ hj x
      have hle : (j + 1) * (duplexConfig v).rate ≤ s.mLen.toNat := block_start_le (by omega)
      have h2 : (j + 1) * (duplexConfig v).rate = j * (duplexConfig v).rate + (duplexConfig v).rate := by ring
      simp only [zeros_length]
      omega)
  rw [List.append_nil, zeros_runLoop _ _ (duplexRate_pos v) _ 0 (by omega)] at h
  rw [textOps, blockCount, range_eq_range', h, runOps_nil]
  simp

/-- The whole of an ENC command's sequence (R108): Encrypt of its inputs. -/
theorem run_enc (v : DuplexVariant) (s : State) (A P : Bytes)
    (hA : Memory.readBytes s.dmem s.aAddr.toNat s.aLen.toNat = .ok A)
    (hP : Memory.readBytes s.dmem s.mAddr.toNat s.mLen.toNat = .ok P) (hov : overlaps s = false) :
    ∃ xf, runOps (.enc v) (opsFor (.enc v) s) s =
      .next { s with
        x := xf
        tCalc := some (encrypt v (keyOperand v s) (nonceOperand s) A P).2
        dmem := Memory.writeBytes s.dmem s.dAddr.toNat (encrypt v (keyOperand v s) (nonceOperand s) A P).1
        phase := .dxFinal
        seq := [] } := by
  have hops : opsFor (.enc v) s = startOps .first v s ++ (textOps .first v s ++ [SeqOp.dxFinal]) := by
    simp [opsFor, duplexPass_eq]
  rw [hops, run_startOps (enc_sharesStart v) .first _ s rfl A hA, encrypt]
  generalize duplexStart v (keyOperand v s) (nonceOperand s) A = y
  have ht := run_encText v [SeqOp.dxFinal]
    { s with x := y, phase := (SeqOp.dxSeparate .first).phase, seq := textOps .first v s ++ [SeqOp.dxFinal] } P hP hov
  have htext : textOps .first v
      { s with x := y, phase := (SeqOp.dxSeparate .first).phase, seq := textOps .first v s ++ [SeqOp.dxFinal] } =
      textOps .first v s := rfl
  rw [htext] at ht
  rw [ht]
  dsimp only
  generalize encryptText v y (textBlocks (duplexConfig v).rate P) = out
  refine ⟨finalState v (keyOperand v s) out.2, ?_⟩
  rw [runOps_cons_ok (e := finalEffect v _) rfl, runOps_nil]
  simp only [applyEffect, finalEffect, OpEffect.same, writeBytes_zero_nil]
  rfl

/-- The whole of a DEC command's sequence (R109): Decrypt of its inputs. -/
theorem run_dec (v : DuplexVariant) (s : State) (A C : Bytes)
    (hA : Memory.readBytes s.dmem s.aAddr.toNat s.aLen.toNat = .ok A)
    (hC : Memory.readBytes s.dmem s.mAddr.toNat s.mLen.toNat = .ok C) (hov : overlaps s = false) :
    ∃ xf tf, runOps (.dec v) (opsFor (.dec v) s) s =
      .next { s with
        x := xf
        tCalc := some tf
        ok := some (decrypt v (keyOperand v s) (nonceOperand s) A C (tagOperand s)).1
        dmem := Memory.writeBytes s.dmem s.dAddr.toNat
          (decrypt v (keyOperand v s) (nonceOperand s) A C (tagOperand s)).2
        phase := .dxFinal
        seq := [] } := by
  have hlC := readBytes_length hC
  have hops : opsFor (.dec v) s = startOps .first v s ++ (textOps .first v s ++
      (SeqOp.dxFinal :: (startOps .second v s ++ textOps .second v s))) := by
    simp [opsFor, duplexPass_eq]
  generalize hrest : SeqOp.dxFinal :: (startOps .second v s ++ textOps .second v s) = rest at hops
  rw [hops, run_startOps (dec_sharesStart v) .first _ s rfl A hA, decrypt]
  generalize hy : duplexStart v (keyOperand v s) (nonceOperand s) A = y
  have ht := run_decVerify v rest
    { s with x := y, phase := (SeqOp.dxSeparate .first).phase, seq := textOps .first v s ++ rest } C hC
  have htext : textOps .first v
      { s with x := y, phase := (SeqOp.dxSeparate .first).phase, seq := textOps .first v s ++ rest } =
      textOps .first v s := rfl
  rw [htext] at ht
  rw [ht, ← hrest]
  dsimp only
  rw [runOps_cons_ok rfl]
  simp only [applyEffect, finalEffect, OpEffect.same, writeBytes_zero_nil, Option.map_some]
  have hK : ∀ (x : PState) (p : Phase) (q : List SeqOp), keyOperand v { s with x := x, phase := p, seq := q } = keyOperand v s :=
    fun _ _ _ => rfl
  have hT : ∀ (x : PState) (p : Phase) (q : List SeqOp), tagOperand { s with x := x, phase := p, seq := q } = tagOperand s :=
    fun _ _ _ => rfl
  simp only [hK, hT]
  generalize hout : decryptText v y (textBlocks (duplexConfig v).rate C) = out
  generalize finalState v (keyOperand v s) out.2 = z
  generalize htag : tagOf v (keyOperand v s) z = tf
  generalize hg : verifyTag tf (tagOperand s) = good
  cases good with
  | true =>
    have h1 := run_startOps (dec_sharesStart v) .second (textOps .second v s)
      { s with
        x := z, tCalc := some tf, ok := some true, phase := SeqOp.dxFinal.phase
        seq := startOps .second v s ++ textOps .second v s } rfl A hA
    have h2 := run_decWrite v
      { s with
        x := y, tCalc := some tf, ok := some true
        phase := (SeqOp.dxSeparate .second).phase, seq := textOps .second v s } C hC hov rfl
    dsimp only at h2
    rw [hout] at h2
    obtain ⟨xf, h2⟩ := h2
    refine ⟨xf, tf, ?_⟩
    subst hy
    exact h1.trans h2
  | false =>
    have h1 := run_startOps_skipped v (textOps .second v s)
      { s with
        x := z, tCalc := some tf, ok := some false, phase := SeqOp.dxFinal.phase
        seq := startOps .second v s ++ textOps .second v s } rfl
    have h2 := run_decZero v
      { s with x := z, tCalc := some tf, ok := some false, phase := .dxFinal, seq := textOps .second v s } rfl
    refine ⟨z, tf, ?_⟩
    rw [hlC]
    exact h1.trans h2

end Sys2Proof.Machine
end

