-- ==== Sys2Proof/Laws/Issue.lean ====
section
/-! SUPPORT. What issuing a command does: dropped, rejected or accepted (43_control.md R116 to R120, 60_exceptions.md R134),
and what one position of an accepted command can change. -/

namespace Sys2Proof.Machine

/-- Every arm is the same rule over its own operands. -/
theorem exec_eq (i : Instr) (s : State) : exec i s = runCommand i s := by cases i <;> rfl

theorem check_cmdLast (i : Instr) (s : State) (w : Word) : check i { s with cmdLast := w } = check i s := by
  cases i <;> rfl

theorem opsFor_cmdLast (c : Command) (s : State) (w : Word) : opsFor c { s with cmdLast := w } = opsFor c s := by
  cases c <;> rfl

theorem issue_rejected {i : Instr} {s : State} (h : check i s ≠ .noError) :
    issue i s = reject (check i s) { s with cmdLast := encode i } := by
  unfold issue
  dsimp only
  rw [check_cmdLast]
  split
  · exact absurd ‹_› h
  · rfl

theorem issue_accepted {i : Instr} {s : State} (h : check i s = .noError) :
    issue i s = accept i.command { s with cmdLast := encode i } := by
  unfold issue
  dsimp only
  rw [check_cmdLast, h]

theorem runToCompletion_idle {s : State} (h : s.busy = false) : runToCompletion s = .next s := by
  simp [runToCompletion, h]

theorem engineStep_idle {s : State} (h : s.busy = false) : engineStep s = .next s := by
  simp [engineStep, h]

theorem engineSteps_idle {s : State} (h : s.busy = false) (n : Nat) : engineSteps n s = .next s := by
  induction n with
  | zero => rfl
  | succ n ih => rw [engineSteps, engineStep_idle h, andThen_next, ih]

theorem engineStep_done {s : State} {c : Command} (hb : s.busy = true) (hc : s.cur = some c) (hs : s.seq = []) :
    engineStep s = .next (completeCommand c s) := by
  simp [engineStep, hb, hc, hs]

theorem engineStep_ok {s : State} {c : Command} {op : SeqOp} {rest : List SeqOp} {e : OpEffect}
    (hb : s.busy = true) (hc : s.cur = some c) (hs : s.seq = op :: rest) (he : opEffect c op s = .ok e) :
    engineStep s = .next (applyEffect op rest e s) := by
  simp [engineStep, hb, hc, hs, he]

theorem engineStep_error {s : State} {c : Command} {op : SeqOp} {rest : List SeqOp} {a : Nat}
    (hb : s.busy = true) (hc : s.cur = some c) (hs : s.seq = op :: rest) (he : opEffect c op s = .error a) :
    engineStep s = .fault (.commandReadUnwritten a) := by
  simp [engineStep, hb, hc, hs, he]

/-- While another command runs (R119, R120). -/
theorem runCommand_busy {i : Instr} {s : State} (h : s.busy = true) : runCommand i s = .next (dropWrite s) := by
  simp [runCommand, h]

theorem runCommand_rejected {i : Instr} {s : State} (hb : s.busy = false) (h : check i s ≠ .noError) :
    runCommand i s = .next (reject (check i s) { s with cmdLast := encode i }) := by
  rw [runCommand, if_neg (by simp [hb]), issue_rejected h, runToCompletion_idle]
  exact hb

theorem runCommand_accepted {i : Instr} {s : State} (hb : s.busy = false) (h : check i s = .noError) :
    runCommand i s =
      andThen (runOps i.command (opsFor i.command s) (accept i.command { s with cmdLast := encode i }))
        (fun t => .next (completeCommand i.command t)) := by
  rw [runCommand, if_neg (by simp [hb]), issue_accepted h, runToCompletion, accept_busy, accept_cur, accept_seq,
    opsFor_cmdLast]

/-- Everything a command word can do, with the core's state before it. -/
theorem runCommand_cases (i : Instr) (s : State) :
    (s.busy = true ∧ runCommand i s = .next (dropWrite s)) ∨
    (s.busy = false ∧ check i s ≠ .noError ∧
      runCommand i s = .next (reject (check i s) { s with cmdLast := encode i })) ∨
    (s.busy = false ∧ check i s = .noError ∧
      runCommand i s =
        andThen (runOps i.command (opsFor i.command s) (accept i.command { s with cmdLast := encode i }))
          (fun t => .next (completeCommand i.command t))) := by
  by_cases hb : s.busy = true
  · exact .inl ⟨hb, runCommand_busy hb⟩
  · rw [Bool.not_eq_true] at hb
    by_cases hc : check i s = .noError
    · exact .inr (.inr ⟨hb, hc, runCommand_accepted hb hc⟩)
    · exact .inr (.inl ⟨hb, hc, runCommand_rejected hb hc⟩)

/-- A command that is accepted has its regions in range (60_exceptions.md R126). -/
theorem check_range {i : Instr} {s : State} (h : check i s = .noError) : regionsInRange i.command s = true := by
  unfold check at h
  split at h
  · exact absurd h ‹_›
  · split at h
    · cases h
    · simpa using ‹¬regionsInRange i.command s = false›

/-- An ENC or DEC that is accepted does not overlap (60_exceptions.md R126, R133). -/
theorem check_overlap {i : Instr} {s : State} (h : check i s = .noError) (hc : overlapChecked i.command = true) :
    overlaps s = false := by
  unfold check at h
  split at h
  · exact absurd h ‹_›
  · split at h
    · cases h
    · split at h
      · cases h
      · simpa [hc] using ‹¬(overlapChecked i.command && overlaps s) = true›

theorem check_length {i : Instr} {s : State} (h : check i s = .noError) : lengthCheck i = .noError := by
  unfold check at h
  split at h
  · exact absurd h ‹_›
  · simpa using ‹¬lengthCheck i ≠ .noError›

/-- The output region of an accepted command lies in DMEM. -/
theorem output_in_range {c : Command} {s : State} (h : regionsInRange c s = true) :
    (outputRegion c s).2 = 0 ∨ (outputRegion c s).1 + (outputRegion c s).2 ≤ s.dmemSize.bytes := by
  cases c with
  | digest v => cases v <;> simp_all [regionsInRange, regions, inRange]
  | enc v => simp_all [regionsInRange, regions, inRange]
  | dec v => simp_all [regionsInRange, regions, inRange]
  | wipe => simp [outputRegion]

/-- The sequence of a command depends on the lengths only (43_control.md R123). -/
theorem opsFor_congr {c : Command} {s t : State} (ha : t.aLen = s.aLen) (hm : t.mLen = s.mLen)
    (ho : t.outLen = s.outLen) : opsFor c t = opsFor c s := by
  cases c with
  | digest v => cases v <;> simp [opsFor, digestSequence, digestLen, ha, hm, ho]
  | enc v => simp [opsFor, duplexPass, ha, hm]
  | dec v => simp [opsFor, duplexPass, ha, hm]
  | wipe => rfl

/-- The sequencer changes these fields only. -/
theorem runOps_frame {c : Command} {ops : List SeqOp} {s t : State} (h : runOps c ops s = .next t) :
    t = { s with
      x := t.x, tCalc := t.tCalc, ok := t.ok, dmem := t.dmem, phase := t.phase, seq := t.seq } := by
  induction ops generalizing s with
  | nil => cases h; rfl
  | cons op rest ih =>
    cases he : opEffect c op s with
    | error a => rw [runOps_cons_error he] at h; cases h
    | ok e =>
      rw [runOps_cons_ok he] at h
      exact ih (s := applyEffect op rest e s) h

/-- What a position writes: nothing, or bytes of its command's output region (20_memory.md R51). -/
def EffectInside (c : Command) (s : State) (e : OpEffect) : Prop :=
  e.bytes = [] ∨
    ((outputRegion c s).1 ≤ e.addr ∧ e.addr + e.bytes.length ≤ (outputRegion c s).1 + (outputRegion c s).2)

theorem readBlock_length_le {s : State} {reg : Region} {r j : Nat} {B : Bytes} (h : readBlock s reg r j = .ok B) :
    B.length = min r (reg.2 - j * r) := readBytes_length h

theorem mem_range_blocks {r n j : Nat} (h : j ∈ List.range (blockCount r n)) : j * r ≤ n :=
  block_start_le (Nat.lt_succ_iff.mp (List.mem_range.mp h))

theorem duplexStart_writes_nothing {v : DuplexVariant} {op : SeqOp} {s : State} {e : OpEffect}
    (h : duplexStartEffect v op s = .ok e) : e.bytes = [] := by
  unfold duplexStartEffect at h
  split at h
  all_goals (repeat' (first | (cases h <;> rfl) | split at h))

/-- A text position is a position of the text. -/
theorem text_mem {p : Pass} {j : Nat} {v : DuplexVariant} {s : State} {c : Command} (hc : c = .enc v ∨ c = .dec v)
    (h : SeqOp.dxText p j ∈ opsFor c s) : j * (duplexConfig v).rate ≤ s.mLen.toNat := by
  apply mem_range_blocks
  rcases hc with rfl | rfl
  · simp only [opsFor, duplexPass] at h
    split at h <;> simp at h <;> simp [h]
  · simp only [opsFor, duplexPass] at h
    split at h <;> cases p <;> simp at h <;> simp [h]

theorem squeeze_mem {j : Nat} {v : SpongeVariant} {s : State} (h : SeqOp.spSqueeze j ∈ opsFor (.digest v) s) :
    j ≤ (digestLen v s - 1) / 8 := by
  simp only [opsFor, digestSequence, spongeRate] at h
  split at h <;> simp [squeezeReads] at h <;> omega

theorem digestEffect_inside {v : SpongeVariant} {op : SeqOp} {s : State} {e : OpEffect}
    (hop : op ∈ opsFor (.digest v) s) (h : digestEffect v op s = .ok e) : EffectInside (.digest v) s e := by
  unfold digestEffect at h
  split at h
  case h_5 j =>
    have hj := squeeze_mem hop
    cases h
    by_cases hL : digestLen v s = 0
    · left
      simp [squeezeEffect, hL]
    · right
      simp only [squeezeEffect, outputRegion, spongeRate, List.length_take, rateBytes_length]
      omega
  all_goals (left; dsimp only at h; repeat' (first | (cases h <;> rfl) | split at h))

theorem encEffect_inside {v : DuplexVariant} {op : SeqOp} {s : State} {e : OpEffect}
    (hop : op ∈ opsFor (.enc v) s) (h : encEffect v op s = .ok e) : EffectInside (.enc v) s e := by
  unfold encEffect at h
  split at h
  case h_1 p j =>
    have hj := text_mem (.inl rfl) hop
    unfold encTextEffect at h
    dsimp only at h
    split at h
    · next P hP =>
      have hl := readBlock_length_le hP
      cases h
      right
      simp only [mRegion] at hl
      simp only [outputRegion, encryptBlock, xorBytes_length, keystream_length]
      omega
    · cases h
  case h_2 => cases h; exact .inl rfl
  case h_3 => exact .inl (duplexStart_writes_nothing h)
  case h_4 => exact .inl (duplexStart_writes_nothing h)
  case h_5 => exact .inl (duplexStart_writes_nothing h)
  all_goals (cases h; exact .inl rfl)

theorem decEffect_inside {v : DuplexVariant} {op : SeqOp} {s : State} {e : OpEffect}
    (hop : op ∈ opsFor (.dec v) s) (h : decEffect v op s = .ok e) : EffectInside (.dec v) s e := by
  unfold decEffect at h
  split at h
  case h_1 j =>
    unfold decVerifyEffect at h
    split at h <;> cases h
    exact .inl rfl
  case h_2 j =>
    have hj := text_mem (.inr rfl) hop
    unfold decWriteEffect at h
    dsimp only at h
    split at h
    · split at h
      · next P hP =>
        have hl := readBlock_length_le hP
        cases h
        right
        simp only [mRegion] at hl
        simp only [outputRegion, decryptBlock, xorBytes_length, keystream_length]
        omega
      · cases h
    · cases h
      right
      simp only [outputRegion, zeros_length]
      omega
  case h_3 => cases h; exact .inl rfl
  case h_4 => exact .inl (duplexStart_writes_nothing h)
  case h_5 => exact .inl (duplexStart_writes_nothing h)
  case h_6 => exact .inl (duplexStart_writes_nothing h)
  all_goals (cases h; exact .inl rfl)

/-- A command writes inside its output region only (20_memory.md R51). -/
theorem opEffect_inside {c : Command} {op : SeqOp} {s : State} {e : OpEffect} (hop : op ∈ opsFor c s)
    (h : opEffect c op s = .ok e) : EffectInside c s e := by
  cases c with
  | digest v => exact digestEffect_inside hop h
  | enc v => exact encEffect_inside hop h
  | dec v => exact decEffect_inside hop h
  | wipe =>
    unfold opEffect wipeEffect at h
    dsimp only at h
    split at h
    · cases h
      right
      simp [outputRegion]
    all_goals (cases h; exact .inl rfl)

theorem outputRegion_applyEffect (c : Command) (op : SeqOp) (rest : List SeqOp) (e : OpEffect) (s : State) :
    outputRegion c (applyEffect op rest e s) = outputRegion c s := by cases c <;> rfl

theorem byteAt_applyEffect {c : Command} {op : SeqOp} {rest : List SeqOp} {e : OpEffect} {s : State}
    (h : EffectInside c s e) {a : Nat}
    (ha : a < (outputRegion c s).1 ∨ (outputRegion c s).1 + (outputRegion c s).2 ≤ a) :
    Memory.byteAt (applyEffect op rest e s).dmem a = Memory.byteAt s.dmem a := by
  rw [applyEffect_dmem]
  rcases h with h | h
  · rw [h, byteAt_writeBytes_nil]
  · exact byteAt_writeBytes_outside (by omega)

/-- The sequence of a command leaves every byte outside its output region (20_memory.md R52). -/
theorem runOps_byteAt {c : Command} {ops : List SeqOp} {s t : State} (hops : ∀ op ∈ ops, op ∈ opsFor c s)
    (h : runOps c ops s = .next t) {a : Nat}
    (ha : a < (outputRegion c s).1 ∨ (outputRegion c s).1 + (outputRegion c s).2 ≤ a) :
    Memory.byteAt t.dmem a = Memory.byteAt s.dmem a := by
  induction ops generalizing s with
  | nil => cases h; rfl
  | cons op rest ih =>
    cases he : opEffect c op s with
    | error b => rw [runOps_cons_error he] at h; cases h
    | ok e =>
      rw [runOps_cons_ok he] at h
      have hin := opEffect_inside (hops op (by simp)) he
      have hseq : opsFor c (applyEffect op rest e s) = opsFor c s := opsFor_congr rfl rfl rfl
      rw [ih (fun o ho => by rw [hseq]; exact hops o (by simp [ho])) h
        (by rw [outputRegion_applyEffect]; exact ha)]
      exact byteAt_applyEffect hin ha

end Sys2Proof.Machine
end

