-- ==== Sys2Proof/Laws/HostPort.lean ====
section
/-! SUPPORT. Host accesses, reset and the step: what each can do, said once (20_memory.md R40 to R47, 43_control.md R116, R120,
70_reset_and_hazards.md R147 to R149). -/

namespace Sys2Proof.Machine

/-- A strobed write of one word, byte by byte (20_memory.md R43). -/
theorem byteAt_writeStrobed (m : Memory) (a : Nat) (w : Word) (strb : BitVec 4) (b : Nat) :
    Memory.byteAt (Memory.writeStrobed m a w strb) b =
      if a ≤ b ∧ b < a + 4 ∧ strb.getLsbD (b - a) = true then some (w.extractLsb' (8 * (b - a)) 8)
      else Memory.byteAt m b := by
  have hgen : ∀ (n : Nat) (m : Memory),
      Memory.byteAt ((List.range n).foldl
        (fun m j => if strb.getLsbD j then Memory.writeBytes m (a + j) [w.extractLsb' (8 * j) 8] else m) m) b =
      if a ≤ b ∧ b < a + n ∧ strb.getLsbD (b - a) = true then some (w.extractLsb' (8 * (b - a)) 8)
      else Memory.byteAt m b := by
    intro n
    induction n with
    | zero => intro m; rw [if_neg (by omega)]; rfl
    | succ n ih =>
      intro m
      rw [List.range_succ, List.foldl_append, List.foldl_cons, List.foldl_nil]
      by_cases hb : b = a + n
      · subst hb
        have hsub : a + n - a = n := by omega
        by_cases hs : strb.getLsbD n = true
        · rw [if_pos hs, if_pos ⟨by omega, by omega, by rw [hsub]; exact hs⟩, hsub]
          have := byteAt_writeBytes_inside (m := (List.range n).foldl
            (fun m j => if strb.getLsbD j then Memory.writeBytes m (a + j) [w.extractLsb' (8 * j) 8] else m) m)
            (a := a + n) (v := [w.extractLsb' (8 * n) 8]) (j := 0) (by simp)
          simpa using this
        · rw [if_neg hs, if_neg (by rw [hsub]; exact fun h => hs h.2.2), ih, if_neg (by omega)]
      · have hout : Memory.byteAt (if strb.getLsbD n = true then
            Memory.writeBytes ((List.range n).foldl (fun m j =>
              if strb.getLsbD j then Memory.writeBytes m (a + j) [w.extractLsb' (8 * j) 8] else m) m) (a + n)
              [w.extractLsb' (8 * n) 8]
            else (List.range n).foldl (fun m j =>
              if strb.getLsbD j then Memory.writeBytes m (a + j) [w.extractLsb' (8 * j) 8] else m) m) b =
            Memory.byteAt ((List.range n).foldl (fun m j =>
              if strb.getLsbD j then Memory.writeBytes m (a + j) [w.extractLsb' (8 * j) 8] else m) m) b := by
          split
          · exact byteAt_writeBytes_outside (by simp only [List.length_cons, List.length_nil]; omega)
          · rfl
        rw [hout, ih]
        by_cases h1 : a ≤ b ∧ b < a + n ∧ strb.getLsbD (b - a) = true
        · rw [if_pos h1, if_pos ⟨h1.1, by omega, h1.2.2⟩]
        · rw [if_neg h1, if_neg (fun h2 => h1 ⟨h2.1, by omega, h2.2.2⟩)]
  exact hgen 4 m

/-- The window ends at a word boundary: DMEM_BYTES is a multiple of 4 (20_memory.md R42). -/
theorem dmemBytes_multiple (d : DmemSize) : d.bytes % 4 = 0 ∧ 256 ≤ d.bytes ∧ d.bytes ≤ 32768 := by cases d <;> decide

/-- A read issues nothing (20_memory.md R40, R47). -/
theorem accessStep_read {a : Access} (h : a.kind = .read) (g : Gap) (s : State) :
    accessStep a g s = andThen (hostRead (wordOffset a) s) (progress g) := by
  have hc : isCommandWrite a = false := by simp [isCommandWrite, h]
  simp [accessStep, hc, plainAccess, h]

/-- A write while a command runs is dropped, whatever its offset and strobes (43_control.md R120). -/
theorem accessStep_busy_write {a : Access} (h : a.kind = .write) {s : State} (hb : s.busy = true) (g : Gap) :
    accessStep a g s = progress g (dropWrite s) := by
  simp [accessStep, hb, plainAccess, h, hostWrite]

/-- A write that issues no command (20_memory.md R43, R44). -/
theorem accessStep_write {a : Access} (h : a.kind = .write) (hc : isCommandWrite a = false) (g : Gap) (s : State) :
    accessStep a g s = progress g (hostWrite (wordOffset a) a.wdata a.strb s) := by
  simp [accessStep, hc, plainAccess, h]

/-- A CMD write with all strobes while nothing runs (43_control.md R116). -/
theorem accessStep_command {a : Access} (hc : isCommandWrite a = true) {s : State} (hb : s.busy = false) (g : Gap) :
    accessStep a g s = commandAccess a.wdata g s := by
  simp [accessStep, hc, hb]

/-- All a host access can be. -/
theorem accessStep_cases (a : Access) (g : Gap) (s : State) :
    (a.kind = .read ∧ accessStep a g s = andThen (hostRead (wordOffset a) s) (progress g)) ∨
    (a.kind = .write ∧ s.busy = true ∧ accessStep a g s = progress g (dropWrite s)) ∨
    (a.kind = .write ∧ s.busy = false ∧ isCommandWrite a = true ∧ accessStep a g s = commandAccess a.wdata g s) ∨
    (a.kind = .write ∧ s.busy = false ∧ isCommandWrite a = false ∧
      accessStep a g s = progress g (hostWrite (wordOffset a) a.wdata a.strb s)) := by
  cases hk : a.kind with
  | read => exact .inl ⟨rfl, accessStep_read hk g s⟩
  | write =>
    by_cases hb : s.busy = true
    · exact .inr (.inl ⟨rfl, hb, accessStep_busy_write hk hb g⟩)
    · rw [Bool.not_eq_true] at hb
      by_cases hc : isCommandWrite a = true
      · exact .inr (.inr (.inl ⟨rfl, hb, hc, accessStep_command hc hb g⟩))
      · rw [Bool.not_eq_true] at hc
        exact .inr (.inr (.inr ⟨rfl, hb, hc, accessStep_write hk hc g s⟩))

/-- A register is never inside the DMEM window (20_memory.md R41). -/
theorem inWindow_register (s : State) (r : Reg) : inWindow s r.offset = false := by
  have h : r.offset < windowBase := by cases r <;> simp only [Reg.offset, windowBase] <;> omega
  simp [inWindow, Nat.not_le.mpr h]

/-- The map takes a register's offset to the register (10_state.md section 5). -/
theorem ofOffset_offset (r : Reg) : Reg.ofOffset r.offset = some r := by
  cases r with
  | key i => fin_cases i <;> rfl
  | nonce i => fin_cases i <;> rfl
  | tagIn i => fin_cases i <;> rfl
  | tagOut i => fin_cases i <;> rfl
  | _ => rfl

/-- A read of a register (20_memory.md R44). -/
theorem hostRead_register (r : Reg) (s : State) : hostRead r.offset s = .next (hostReadReg r s) := by
  simp [hostRead, inWindow_register, ofOffset_offset]

/-- A write of a register while nothing runs (20_memory.md R44). -/
theorem hostWrite_register (r : Reg) (v : Word) (strb : BitVec 4) {s : State} (hb : s.busy = false) :
    hostWrite r.offset v strb s = writeReg r v strb s := by
  simp [hostWrite, hb, inWindow_register, ofOffset_offset]

/-- All a reset can leave (70_reset_and_hazards.md R147, R149): reset registers, and DMEM as `abortedDmem` gives it. -/
theorem assertReset_cases (landed : Nat) (s : State) :
    (∃ d, abortedDmem landed s = .ok d ∧ assertReset landed s = .next (resetRegisters d s)) ∨
    ∃ a, abortedDmem landed s = .error a ∧ assertReset landed s = .fault (.commandReadUnwritten a) := by
  unfold assertReset
  cases abortedDmem landed s with
  | ok d => exact .inl ⟨d, rfl, rfl⟩
  | error a => exact .inr ⟨a, rfl, rfl⟩

/-- With no command running a reset keeps DMEM. -/
theorem abortedDmem_idle (landed : Nat) {s : State} (hb : s.busy = false) : abortedDmem landed s = .ok s.dmem := by
  simp [abortedDmem, hb]

/-- With no byte of the write in progress landed a reset keeps DMEM, at any position. -/
theorem abortedDmem_zero (s : State) : abortedDmem 0 s = .ok s.dmem := by
  unfold abortedDmem
  split
  · contradiction
  · rfl

/-- A position stops only at an unwritten byte (20_memory.md R39, R49). -/
theorem opEffect_error {c : Command} {op : SeqOp} {s : State} {e : Nat} (h : opEffect c op s = .error e) :
    Memory.byteAt s.dmem e = none := by
  have hread : ∀ {reg : Region} {r j : Nat}, readBlock s reg r j = .error e → Memory.byteAt s.dmem e = none :=
    fun h => (readBytes_eq_error.mp h).2.2.1
  cases c <;> cases op <;>
    simp only [opEffect, digestEffect, encEffect, decEffect, wipeEffect, duplexStartEffect, encTextEffect] at h <;>
    (try rename_i p j; cases p <;> simp only [decVerifyEffect, decWriteEffect] at h) <;>
    (repeat' split at h) <;> first | cases h; done | (cases h; exact hread ‹_›)

/-- A reset stops only inside a position that reads an unwritten byte (log 14). -/
theorem abortedDmem_error {landed : Nat} {s : State} {e : Nat} (h : abortedDmem landed s = .error e) :
    s.busy = true ∧ 0 < landed ∧ Memory.byteAt s.dmem e = none := by
  unfold abortedDmem at h
  split at h
  · split at h
    · cases h
    · cases h
      exact ⟨by assumption, Nat.succ_pos _, opEffect_error ‹_›⟩
  · cases h

/-- STATUS shows DONE in bit 1, whatever the phase (10_state.md R25). -/
theorem statusWord_done (s : State) (p : Phase) : (statusWord s p).getLsbD 1 = s.done := by
  rw [statusWord, BitVec.getLsbD_ofNat, Nat.testBit_eq_decide_div_mod_eq]
  have hbit : ∀ b : Bool, b.toNat = 0 ∧ b = false ∨ b.toNat = 1 ∧ b = true := by decide
  rcases hbit s.busy with ⟨h1, -⟩ | ⟨h1, -⟩ <;> rcases hbit s.done with ⟨h2, h⟩ | ⟨h2, h⟩ <;> simp [h1, h] <;> omega

/-- The read of a poll (30_encoding.md R69). -/
theorem plainAccess_statusRead (s : State) : plainAccess statusRead s = .next (hostReadReg .status s) :=
  hostRead_register .status s

/-- What the read of STATUS shows in bit 1. -/
theorem hostReadReg_status_done (s : State) : (hostReadReg .status s).rdata.getLsbD 1 = s.done := statusWord_done s _

/-- A poll that sees DONE = 1 is over after that read (30_encoding.md R69). -/
theorem pollStep_done (gaps : List Gap) {s : State} (h : s.done = true) :
    pollStep gaps s = .next (hostReadReg .status s) := by
  rw [pollStep, plainAccess_statusRead, andThen_next, if_pos h]

/-- A poll that sees DONE = 0 goes on after the core's progress (30_encoding.md R69). -/
theorem pollStep_again (gaps : List Gap) {s : State} (h : s.done = false) :
    pollStep gaps s = andThen (progress (gaps.headD .completes) (hostReadReg .status s))
      (fun u => .next { u with events := .poll gaps.tail :: u.events }) := by
  rw [pollStep, plainAccess_statusRead, andThen_next, if_neg (by simp [h])]

/-- All a step can be (log 3, log 9). -/
theorem step_cases (s : State) :
    (s.events = [] ∧ step s = engineStep s) ∨
    (∃ a g rest, s.events = .access a g :: rest ∧ step s = accessStep a g { s with events := rest }) ∨
    (∃ gaps rest, s.events = .poll gaps :: rest ∧ step s = pollStep gaps { s with events := rest }) ∨
    (∃ landed rest, s.events = .reset landed :: rest ∧ step s = assertReset landed { s with events := rest }) ∨
    ∃ rest, s.events = .powerOn :: rest ∧ step s = .next (powerOn { s with events := rest }) := by
  unfold step
  cases s.events with
  | nil => exact .inl ⟨rfl, rfl⟩
  | cons e rest =>
    cases e with
    | access a g => exact .inr (.inl ⟨a, g, rest, rfl, rfl⟩)
    | poll gaps => exact .inr (.inr (.inl ⟨gaps, rest, rfl, rfl⟩))
    | reset landed => exact .inr (.inr (.inr (.inl ⟨landed, rest, rfl, rfl⟩)))
    | powerOn => exact .inr (.inr (.inr (.inr ⟨rest, rfl, rfl⟩)))

end Sys2Proof.Machine
end

