-- ==== Sys2Proof/Laws/Run.lean ====
section
/-! SUPPORT. The sequencer beside the host: it does not depend on what the host may do while it runs, stepping and running on
is running, and one step of it keeps the invariant. -/

namespace Sys2Proof.Machine

/-- The fields the host changes while a command runs. -/
def withHost (r : Word) (n : Nat) (b : Bool) (s : State) : State :=
  { s with rdata := r, freeCount := n, busyErr := b }

/-- No position reads what the host can change while it runs (43_control.md R120). -/
theorem opEffect_withHost (c : Command) (op : SeqOp) (r : Word) (n : Nat) (b : Bool) (s : State) :
    opEffect c op (withHost r n b s) = opEffect c op s := by
  cases c with
  | digest v => cases op <;> rfl
  | enc v => cases op <;> rfl
  | dec v =>
    cases op
    case dxText p j => cases p <;> rfl
    all_goals rfl
  | wipe => cases op <;> rfl

/-- Nor does a step of the sequencer. -/
theorem engineStep_withHost (r : Word) (n : Nat) (b : Bool) (s : State) :
    engineStep (withHost r n b s) = mapNext (withHost r n b) (engineStep s) := by
  unfold engineStep
  have h1 : (withHost r n b s).busy = s.busy := rfl
  have h2 : (withHost r n b s).cur = s.cur := rfl
  have h3 : (withHost r n b s).seq = s.seq := rfl
  rw [h1, h2, h3]
  split
  · split
    · next c _ _ _ _ => cases c <;> rfl
    · next c _ _ op rest _ =>
      rw [opEffect_withHost]
      cases opEffect _ _ s <;> rfl
  · rfl

/-- Stepping once and then running to completion is running to completion (43_control.md R121). -/
theorem runToCompletion_engineStep (s : State) : andThen (engineStep s) runToCompletion = runToCompletion s := by
  cases hb : s.busy with
  | false => rw [engineStep_idle hb, andThen_next]
  | true =>
    cases hc : s.cur with
    | none => simp [engineStep, runToCompletion, hb, hc]
    | some c =>
      cases hs : s.seq with
      | cons op rest => exact (runToCompletion_step hb hc hs).symm
      | nil =>
        rw [engineStep_done hb hc hs, andThen_next, runToCompletion_idle rfl]
        simp [runToCompletion, hb, hc, hs, runOps]

theorem runToCompletion_engineSteps (n : Nat) (s : State) :
    andThen (engineSteps n s) runToCompletion = runToCompletion s := by
  induction n generalizing s with
  | zero => rfl
  | succ n ih =>
    rw [engineSteps, andThen_assoc, ← runToCompletion_engineStep]
    congr 1
    funext t
    exact ih t

/-- A position writes inside DMEM (60_exceptions.md R132). -/
theorem applyEffect_bounded {c : Command} {op : SeqOp} {rest : List SeqOp} {e : OpEffect} {s : State}
    (hin : EffectInside c s e) (hr : regionsInRange c s = true) (hb : ∀ cell ∈ s.dmem, cell.1 < s.dmemSize.bytes) :
    ∀ cell ∈ (applyEffect op rest e s).dmem, cell.1 < s.dmemSize.bytes := by
  rw [applyEffect_dmem]
  apply writeBytes_bounded hb
  have ho := output_in_range hr
  rcases hin with h | h
  · exact .inl h
  · by_cases h0 : e.bytes = []
    · exact .inl h0
    · right
      have : 0 < e.bytes.length := List.length_pos_of_ne_nil h0
      omega

/-- Only the final position computes T_CALC and OK (42_duplex.md R108, R109). -/
theorem opEffect_tCalc {c : Command} {op : SeqOp} {s : State} {e : OpEffect} (hne : op ≠ .dxFinal)
    (h : opEffect c op s = .ok e) : e.tCalc = s.tCalc ∧ e.ok = s.ok := by
  cases c with
  | digest v =>
    unfold opEffect digestEffect at h
    dsimp only at h
    repeat' (first | (cases h <;> exact ⟨rfl, rfl⟩) | split at h)
  | enc v =>
    unfold opEffect encEffect encTextEffect duplexStartEffect at h
    dsimp only at h
    repeat' (first | exact absurd rfl hne | (cases h <;> exact ⟨rfl, rfl⟩) | split at h)
  | dec v =>
    unfold opEffect decEffect decVerifyEffect decWriteEffect duplexStartEffect at h
    dsimp only at h
    repeat' (first | exact absurd rfl hne | (cases h <;> exact ⟨rfl, rfl⟩) | split at h)
  | wipe =>
    unfold opEffect wipeEffect at h
    dsimp only at h
    repeat' (first | (cases h <;> exact ⟨rfl, rfl⟩) | split at h)

/-- The final position leaves a 16-byte T_CALC, and DEC's leaves OK (42_duplex.md R101, R102). -/
theorem opEffect_final {c : Command} {s : State} {e : OpEffect} (hc : overlapChecked c = true)
    (h : opEffect c .dxFinal s = .ok e) :
    (∃ T, e.tCalc = some T ∧ T.length = 16) ∧ ((∃ v, c = .dec v) → e.ok.isSome = true) := by
  cases c with
  | digest v => cases hc
  | wipe => cases hc
  | enc v =>
    cases h
    exact ⟨⟨_, rfl, tagOf_length v s _⟩, fun ⟨w, hw⟩ => by cases hw⟩
  | dec v =>
    cases h
    exact ⟨⟨_, rfl, tagOf_length v s _⟩, fun _ => rfl⟩

/-- A position of a command has one of its family's running phases (10_state.md R34). -/
theorem phase_running {c : Command} {op : SeqOp} {s : State} (h : op ∈ opsFor c s) : op.phase ∈ runningPhases c := by
  cases c with
  | wipe => simp [opsFor] at h; subst h; decide
  | digest v =>
    simp only [opsFor, digestSequence, List.mem_append, List.mem_map, List.mem_singleton] at h
    rcases h with ((rfl | h) | ⟨j, -, rfl⟩) | ⟨j, -, rfl⟩
    · simp [runningPhases, SeqOp.phase]
    · split at h
      · simp only [List.mem_cons, List.mem_map] at h
        rcases h with rfl | ⟨j, -, rfl⟩ <;> simp [runningPhases, SeqOp.phase]
      · cases h
    · simp [runningPhases, SeqOp.phase]
    · simp [runningPhases, SeqOp.phase]
  | enc v =>
    simp only [opsFor, duplexPass, List.mem_append, List.mem_map, List.mem_singleton] at h
    rcases h with (((rfl | h) | rfl) | ⟨j, -, rfl⟩) | rfl
    · simp [runningPhases, SeqOp.phase]
    · split at h
      · cases h
      · obtain ⟨j, -, rfl⟩ := List.mem_map.mp h; simp [runningPhases, SeqOp.phase]
    all_goals simp [runningPhases, SeqOp.phase]
  | dec v =>
    cases op with
    | dxInit p => cases p <;> simp [runningPhases, SeqOp.phase]
    | dxAd p j => cases p <;> simp [runningPhases, SeqOp.phase]
    | dxSeparate p => cases p <;> simp [runningPhases, SeqOp.phase]
    | dxText p j => cases p <;> simp [runningPhases, SeqOp.phase]
    | dxFinal => simp [runningPhases, SeqOp.phase]
    | _ =>
      simp only [opsFor, duplexPass] at h
      split at h <;> simp at h

/-- A step of the sequencer keeps the invariant. -/
theorem engineStep_inv {s t : State} (hi : Inv s) (h : engineStep s = .next t) : Inv t := by
  cases hb : s.busy with
  | false => rw [engineStep_idle hb] at h; cases h; exact hi
  | true =>
    obtain ⟨c, hr⟩ := hi.running hb
    cases hs : s.seq with
    | nil =>
      rw [engineStep_done hb hr.cur hs] at h
      cases h
      refine ⟨hi.memoryWf, hi.memoryBounded, fun _ => ⟨rfl, rfl, rfl, rfl, rfl, ?_, ?_, ?_⟩, fun h => by cases h⟩
      · cases c <;> simp [completeCommand, terminalPhase, idlePhases]
        by_cases hok : s.ok = some true <;> simp [hok]
      · have := hr.err
        cases c <;> simp [completeCommand, terminalPhase, this]
        split <;> simp
      · have := hr.authOk
        cases c <;> simp [completeCommand, terminalPhase, completedAuthOk, this]
        cases s.ok with
        | none => simp
        | some b => cases b <;> simp
    | cons op rest =>
      cases he : opEffect c op s with
      | error a => rw [engineStep_error hb hr.cur hs he] at h; cases h
      | ok e =>
        rw [engineStep_ok hb hr.cur hs he] at h
        cases h
        have hsuf : op :: rest <:+ opsFor c s := hs ▸ hr.seq
        have hmem : op ∈ opsFor c s := hsuf.subset (by simp)
        have hin := opEffect_inside hmem he
        refine ⟨writeBytes_wf hi.memoryWf _ _, applyEffect_bounded hin hr.range hi.memoryBounded,
          fun hf => ?_, fun _ => ⟨c, ?_⟩⟩
        · rw [applyEffect_busy, hb] at hf; cases hf
        · refine ⟨hr.cur, hr.done, hr.err, hr.authOk, hr.tagOut, phase_running hmem, ?_, ?_, ?_, ?_, ?_⟩
          · have := hr.range; cases c with
            | digest v => cases v <;> exact this
            | enc v => exact this
            | dec v => exact this
            | wipe => exact this
          · exact fun h => hr.overlap h
          · have : opsFor c (applyEffect op rest e s) = opsFor c s := opsFor_congr rfl rfl rfl
            rw [this, applyEffect_seq]
            exact (List.suffix_cons op rest).trans hsuf
          · intro hc hf
            rw [applyEffect_tCalc]
            by_cases hop : op = .dxFinal
            · subst hop; exact (opEffect_final hc he).1
            · rw [(opEffect_tCalc hop he).1]
              exact hr.tag hc (by rw [hs]; simp only [List.mem_cons, not_or]; exact ⟨fun h => hop h.symm, hf⟩)
          · rintro ⟨v, rfl⟩ hf
            rw [applyEffect_ok]
            by_cases hop : op = .dxFinal
            · subst hop; exact (opEffect_final rfl he).2 ⟨v, rfl⟩
            · rw [(opEffect_tCalc hop he).2]
              exact hr.ok ⟨v, rfl⟩ (by rw [hs]; simp only [List.mem_cons, not_or]; exact ⟨fun h => hop h.symm, hf⟩)

end Sys2Proof.Machine
end

