-- ==== Sys2Proof/Laws/Invariant.lean ====
section
/-! SUPPORT. What each part of a step does to the invariant `Inv`: positions, the issue of a command, a host write, a reset. -/

namespace Sys2Proof.Machine

/-- A word of the DMEM window, as bounds (20_memory.md R40). -/
theorem inWindow_iff (s : State) (o : Nat) : inWindow s o = true ↔ 0x8000 ≤ o ∧ o < 0x8000 + s.dmemSize.bytes := by
  rw [inWindow, Bool.and_eq_true, decide_eq_true_eq, decide_eq_true_eq, windowBase]

/-- A read changes the model's rdata and draw counter only. -/
theorem hostRead_eq {o : Nat} {s t : State} (h : hostRead o s = .next t) :
    t = { s with rdata := t.rdata, freeCount := t.freeCount } := by
  unfold hostRead hostReadDmem at h
  repeat' (first | (cases h <;> rfl) | split at h)
  cases h
  unfold hostReadReg countDraw
  split <;> rfl

/-- A write to anything but CMD while idle keeps the invariant (20_memory.md R43, 10_state.md section 5). -/
theorem hostWrite_inv {a : Access} {s : State} (hi : Inv s) (hb : s.busy = false) :
    Inv (hostWrite (wordOffset a) a.wdata a.strb s) := by
  have hid := hi.idle hb
  unfold hostWrite
  rw [if_neg (by simp [hb])]
  split
  · rename_i hw
    refine ⟨writeStrobed_wf hi.memoryWf _ _ _, ?_, fun _ => ⟨hid.x, hid.cur, hid.seq, hid.tCalc, hid.ok, hid.phase, hid.err, hid.authOk⟩, fun h => absurd h (by simp [hb])⟩
    have := dmemBytes_multiple s.dmemSize
    have hw := (inWindow_iff s _).mp hw
    simp only [wordOffset] at hw
    exact writeStrobed_bounded hi.memoryBounded (by simp only [wordOffset, windowBase]; omega) _ _
  · split
    · rename_i r _
      cases r <;> simp only [writeReg, writeCtrl, writeStatus] <;> (try split) <;>
       first | exact hi | exact ⟨hi.memoryWf, hi.memoryBounded, fun _ => ⟨hid.x, hid.cur, hid.seq, hid.tCalc, hid.ok, hid.phase, hid.err, hid.authOk⟩, fun h => absurd h (by simp [hb])⟩
    · exact hi

/-- What an access that is not taken leaves, or a read, keeps the invariant: only the host's side changes. -/
theorem inv_of_host_fields {s t : State} (hi : Inv s) (ht : t = { s with rdata := t.rdata, freeCount := t.freeCount, events := t.events, busyErr := t.busyErr }) : Inv t := by
  rw [ht]
  refine ⟨hi.memoryWf, hi.memoryBounded, fun h => ?_, fun h => ?_⟩
  · obtain ⟨a,b,c,d,e,f,g,h⟩ := hi.idle h; exact ⟨a,b,c,d,e,f,g,h⟩
  · obtain ⟨c, hr⟩ := hi.running h
    refine ⟨c, hr.cur, hr.done, hr.err, hr.authOk, hr.tagOut, hr.phase, ?_, hr.overlap, ?_, hr.tag, hr.ok⟩
    · have := hr.range; cases c with
      | digest v => cases v <;> exact this
      | _ => exact this
    · have := hr.seq; cases c <;> exact this

/-- Any number of positions keeps the invariant. -/
theorem engineSteps_inv {n} {s t : State} (hi : Inv s) (h : engineSteps n s = .next t) : Inv t := by
  induction n generalizing s with
  | zero => cases h; exact hi
  | succ n ih =>
    rw [engineSteps] at h
    cases he : engineStep s with
    | next u => rw [he] at h; exact ih (engineStep_inv hi he) h
    | fault r => rw [he] at h; cases h
    | refused r => rw [he] at h; cases h

/-- Running to completion is some number of positions. -/
theorem runToCompletion_steps (s : State) : ∃ n, runToCompletion s = engineSteps n s := by
  have key : ∀ (ops : List SeqOp) (s : State), s.seq = ops → runToCompletion s = engineSteps (ops.length + 1) s := by
    intro ops
    induction ops with
    | nil =>
      intro s hs
      simp only [engineSteps, List.length_nil]
      cases hb : s.busy with
      | false => simp [runToCompletion, engineStep, hb]
      | true => cases hc : s.cur <;> simp [runToCompletion, engineStep, hb, hc, hs, runOps]
    | cons op rest ih =>
      intro s hs
      rw [List.length_cons, engineSteps, ← runToCompletion_engineStep]
      cases hb : s.busy with
      | false =>
        rw [engineStep_idle hb, andThen_next, andThen_next, runToCompletion_idle hb, engineSteps_idle hb]
      | true =>
        cases hc : s.cur with
        | none =>
          have h1 : engineStep s = .next s := by simp [engineStep, hb, hc]
          have h2 : ∀ n, engineSteps n s = .next s := by
            intro n; induction n with
            | zero => rfl
            | succ n ih => rw [engineSteps, h1, andThen_next, ih]
          rw [h1, andThen_next, andThen_next, h2]; simp [runToCompletion, hb, hc]
        | some c =>
          cases he : opEffect c op s with
          | error a => rw [engineStep_error hb hc hs he]; rfl
          | ok e => rw [engineStep_ok hb hc hs he, andThen_next, andThen_next]; exact ih _ rfl
  exact ⟨_, key _ s rfl⟩

/-- A CMD write of a legal word while idle keeps the invariant, accepted or rejected (43_control.md R114 to R116). -/
theorem issue_inv {i : Instr} {s : State} (hi : Inv s) (hb : s.busy = false) : Inv (issue i s) := by
  have hid := hi.idle hb
  by_cases hc : check i s = .noError
  · rw [issue_accepted hc]
    refine ⟨hi.memoryWf, hi.memoryBounded, (fun h => by cases h), fun _ => ⟨i.command, rfl, rfl, rfl, rfl, rfl, ?_, ?_, ?_, ?_, ?_, ?_⟩⟩
    · cases i <;> simp [accept, Instr.command, runningPhases, firstPhase]
    · have := check_range hc
      cases i <;> exact this
    · exact fun h => check_overlap hc h
    · have : opsFor i.command (accept i.command { s with cmdLast := encode i }) = opsFor i.command { s with cmdLast := encode i } := opsFor_congr rfl rfl rfl
      rw [this]; exact List.suffix_refl _
    · intro ho hf; exfalso; apply hf
      rw [accept_seq]
      cases i <;> simp [Instr.command, opsFor] <;> cases ho
    · rintro ⟨v, hv⟩ hf; exfalso; apply hf
      rw [accept_seq, hv]; simp [opsFor]
  · rw [issue_rejected hc]
    refine ⟨hi.memoryWf, hi.memoryBounded, fun _ => ⟨hid.x, hid.cur, hid.seq, hid.tCalc, hid.ok, by simp [reject, idlePhases], ?_, by simp [reject]⟩, fun h => ?_⟩
    · simp [reject, hc]
    · exact absurd h (by simp [hb])

/-- What the core does after an access keeps the invariant. -/
theorem progress_inv {g} {s t : State} (hi : Inv s) (h : progress g s = .next t) : Inv t := by
  cases g with
  | steps n => exact engineSteps_inv hi h
  | completes => obtain ⟨n, hn⟩ := runToCompletion_steps s; rw [progress, hn] at h; exact engineSteps_inv hi h

/-- The sequencer never touches what the outside does next (log 3). -/
theorem engineSteps_events {n} {s t : State} (h : engineSteps n s = .next t) : t.events = s.events := by
  induction n generalizing s with
  | zero => cases h; rfl
  | succ n ih =>
    rw [engineSteps] at h
    cases he : engineStep s with
    | next u =>
      rw [he] at h
      rw [ih h]
      unfold engineStep at he
      repeat' split at he
      all_goals first | (cases he; rfl) | injection he
    | fault r => rw [he] at h; cases h
    | refused r => rw [he] at h; cases h

/-- The core's progress never touches what the outside does next (log 3). -/
theorem progress_events {g} {s t : State} (h : progress g s = .next t) : t.events = s.events := by
  cases g with
  | steps n => exact engineSteps_events h
  | completes =>
    obtain ⟨n, hn⟩ := runToCompletion_steps s
    rw [progress, hn] at h
    exact engineSteps_events h

/-- One read of a poll, and the core's progress after it, keep the invariant. -/
theorem pollStep_inv {gaps : List Gap} {s t : State} (hi : Inv s) (h : pollStep gaps s = .next t) : Inv t := by
  have hr : Inv (hostReadReg .status s) := by
    refine inv_of_host_fields hi ?_
    unfold hostReadReg countDraw
    split <;> rfl
  cases hd : s.done with
  | true => rw [pollStep_done gaps hd] at h; cases h; exact hr
  | false =>
    rw [pollStep_again gaps hd] at h
    cases hp : progress (gaps.headD .completes) (hostReadReg .status s) with
    | next u => rw [hp] at h; cases h; exact inv_of_host_fields (progress_inv hr hp) rfl
    | fault r => rw [hp] at h; cases h
    | refused r => rw [hp] at h; cases h

/-- Every register at its reset value meets the invariant (70_reset_and_hazards.md R148). -/
theorem resetRegisters_inv {d : Memory} {s : State} (h1 : Memory.wf d) (h2 : ∀ c ∈ d, c.1 < s.dmemSize.bytes) : Inv (resetRegisters d s) :=
  ⟨h1, h2, fun _ => ⟨rfl, rfl, rfl, rfl, rfl, by simp [idlePhases, resetRegisters, State.reset], by simp [resetRegisters, State.reset], by simp [resetRegisters, State.reset]⟩, fun h => by cases h⟩

end Sys2Proof.Machine
end

