-- ==== Sys2Proof/Laws/PerInstr.lean ====
section
/-! SUPPORT. Per instruction: the word of every command, with any declared lengths, matches the row of the opcode map its
mnemonic has (30_encoding.md R64), so no encoding strays into another row. -/

namespace Sys2Proof.Laws

/-- The masked bits of a packed word do not depend on its free fields (R58). -/
theorem packWord_masked (op var klen nlen tlen : Nat) (hop : op < 16) (hvar : var < 8) :
    packWord op var klen nlen tlen &&& 0xE0E0E0FF = BitVec.ofNat 32 (op + 16 * var) := by
  apply BitVec.eq_of_getLsbD_eq
  intro j hj
  simp only [packWord, BitVec.getLsbD_and, BitVec.getLsbD_ofNat, Nat.testBit_eq_decide_div_mod_eq]
  interval_cases j <;> simp <;> omega

end Sys2Proof.Laws

namespace Sys2Proof.Laws.EncodesItsRow

/-- `(w & mask) = match` for the word of i and the row of i. -/
def Statement (i : Instr) : Prop := encode i &&& i.command.rowMask = i.command.rowMatch

theorem hash : Statement .hash := rfl
theorem hasha : Statement .hasha := rfl
theorem xof : Statement .xof := rfl
theorem xofa : Statement .xofa := rfl
theorem cxof : Statement .cxof := rfl
theorem enc128 (klen nlen tlen : Nat) : Statement (.enc128 klen nlen tlen) :=
  packWord_masked 2 5 klen nlen tlen (by decide) (by decide)
theorem enc128a (klen nlen tlen : Nat) : Statement (.enc128a klen nlen tlen) :=
  packWord_masked 2 6 klen nlen tlen (by decide) (by decide)
theorem enc80pq (klen nlen tlen : Nat) : Statement (.enc80pq klen nlen tlen) :=
  packWord_masked 2 7 klen nlen tlen (by decide) (by decide)
theorem dec128 (klen nlen tlen : Nat) : Statement (.dec128 klen nlen tlen) :=
  packWord_masked 3 5 klen nlen tlen (by decide) (by decide)
theorem dec128a (klen nlen tlen : Nat) : Statement (.dec128a klen nlen tlen) :=
  packWord_masked 3 6 klen nlen tlen (by decide) (by decide)
theorem dec80pq (klen nlen tlen : Nat) : Statement (.dec80pq klen nlen tlen) :=
  packWord_masked 3 7 klen nlen tlen (by decide) (by decide)
theorem wipe : Statement .wipe := rfl

end Sys2Proof.Laws.EncodesItsRow
end

