-- ==== Sys2Proof/Tests/Slice0.lean ====
section
/-! SUPPORT. Tests: expected values are the spec's (95_test_vectors.md and the examples of the rules), each command on one
small state; and for every statement with hypotheses a state and operands that meet them. -/

namespace Sys2Proof.Tests

-- One kernel evaluation at a time: each would run on a thread of its own.
set_option Elab.async false

open Sys2Proof Sys2Proof.Machine

/-! Well-formedness: a length that does not fit its 5 bits is refused (30_encoding.md R58) -/

theorem test_wellFormed_refuses_long_klen :
    [Instr.enc128 32 16 16, .enc128a 32 16 16, .enc80pq 32 16 16, .dec128 32 16 16, .dec128a 32 16 16,
      .dec80pq 32 16 16].all (fun i => !i.wellFormed) = true := by decide

theorem test_wellFormed_refuses_long_nlen :
    [Instr.enc128 16 32 16, .enc128a 16 32 16, .enc80pq 20 32 16, .dec128 16 32 16, .dec128a 16 32 16,
      .dec80pq 20 32 16].all (fun i => !i.wellFormed) = true := by decide

theorem test_wellFormed_refuses_long_tlen :
    [Instr.enc128 16 16 32, .enc128a 16 16 32, .enc80pq 20 16 32, .dec128 16 16 32, .dec128a 16 16 32,
      .dec80pq 20 16 32].all (fun i => !i.wellFormed) = true := by decide

theorem test_wellFormed_accepts :
    [Instr.hash, .hasha, .xof, .xofa, .cxof, .wipe, .enc128 31 0 31, .enc128a 0 31 0, .enc80pq 20 16 16,
      .dec128 31 31 31, .dec128a 0 0 0, .dec80pq 20 16 16].all Instr.wellFormed = true := by decide

/-! Decoding: words written bit by bit from the format of 30_encoding.md R58, as TLEN, NLEN, KLEN and VAR:OP bytes -/

theorem test_decode_hash : decode 0b00000000_00000000_00000000_0_000_0001 = .ok .hash := by decide
theorem test_decode_hasha : decode 0b00000000_00000000_00000000_0_001_0001 = .ok .hasha := by decide
theorem test_decode_xof : decode 0b00000000_00000000_00000000_0_010_0001 = .ok .xof := by decide
theorem test_decode_xofa : decode 0b00000000_00000000_00000000_0_011_0001 = .ok .xofa := by decide
theorem test_decode_cxof : decode 0b00000000_00000000_00000000_0_100_0001 = .ok .cxof := by decide
theorem test_decode_enc128 : decode 0b000_10001_000_10000_000_10010_0_101_0010 = .ok (.enc128 18 16 17) := by decide
theorem test_decode_enc128a : decode 0b000_11111_000_00001_000_00100_0_110_0010 = .ok (.enc128a 4 1 31) := by decide
theorem test_decode_enc80pq : decode 0b000_10000_000_10000_000_10100_0_111_0010 = .ok (.enc80pq 20 16 16) := by decide
theorem test_decode_dec128 : decode 0b000_00010_000_01000_000_00001_0_101_0011 = .ok (.dec128 1 8 2) := by decide
theorem test_decode_dec128a : decode 0b000_10000_000_10000_000_10000_0_110_0011 = .ok (.dec128a 16 16 16) := by decide
theorem test_decode_dec80pq : decode 0b000_00000_000_11111_000_00000_0_111_0011 = .ok (.dec80pq 0 31 0) := by decide
theorem test_decode_wipe : decode 0b00000000_00000000_00000000_0_000_0100 = .ok .wipe := by decide

/-- Words of 30_encoding.md R65, one or more of each kind, at the ends of the ranges. -/
theorem test_decode_refuses :
    [(0x00000000 : Word), 0x00000005, 0x0000000F, 0x00000051, 0x00000071, 0x00000002, 0x00000042, 0x00000003,
      0x00000043, 0x00000014, 0x00000074, 0x00000081, 0x00002001, 0x00008001, 0x00200001, 0x00800001, 0x20000001,
      0x80000001, 0x00000101, 0x00010001, 0x01000001, 0x00000104, 0x00100004, 0x10000004, 0x101010D2, 0x90101052].all
      (fun w => (decode w).isOk == false) = true := by decide

/-! Small states -/

/-- n bytes of a number, the most significant first, as 95_test_vectors.md prints byte strings. -/
def hex (n v : Nat) : Bytes := (List.range n).map (fun j => BitVec.ofNat 8 (v / 256 ^ (n - 1 - j)))

/-- n bytes 00, 01, 02, ... -/
def counting (n : Nat) : Bytes := (List.range n).map (BitVec.ofNat 8)

/-- A 256-byte DMEM that holds A at 0, M at 32, and sixteen bytes FF at 64, where D starts; the rest unwritten. The key
is 00, 01, ..., the nonce 00, 01, ..., 0F. -/
def fixture (A M : Bytes) (outLen : Word) : State :=
  { State.reset with
    dmemSize := .b256
    dmem := cellsAt 0 A ++ cellsAt 32 M ++ cellsAt 64 (List.replicate 16 0xFF)
    aAddr := 0, aLen := BitVec.ofNat 32 A.length, mAddr := 32, mLen := BitVec.ofNat 32 M.length
    dAddr := 64, outLen := outLen
    key := ⟨0x03020100, 0x07060504, 0x0B0A0908, 0x0F0E0D0C, 0x13121110⟩
    nonce := ⟨0x03020100, 0x07060504, 0x0B0A0908, 0x0F0E0D0C⟩ }

/-- The n bytes at D after i has run on s. -/
def output (i : Instr) (s : State) (n : Nat) : Option Bytes :=
  match exec i s with
  | .next t => (Memory.readBytes t.dmem t.dAddr.toNat n).toOption
  | _ => none

/-- The tag bytes after i has run on s. -/
def tagAfter (i : Instr) (s : State) : Option Bytes :=
  match exec i s with
  | .next t => some (quadBytes t.tagOut)
  | _ => none

/-- STATUS after i has run on s. -/
def statusAfter (i : Instr) (s : State) : Option Word :=
  match exec i s with
  | .next t => some (statusWord t (visiblePhase t))
  | _ => none

/-! DIGEST: 95_test_vectors.md section 2.3 -/

theorem test_hash_8_bytes :
    output .hash (fixture [] (counting 8) 0) 32 =
      some (hex 32 0xF4C6A44B29915D3D57CF928A18EC6226BB8DD6C1136ACD24965F7E7780CD69CF) := by decide +kernel

theorem test_hash_status : statusAfter .hash (fixture [] (hex 3 0x616263) 0) = some 0x402 := by decide +kernel

theorem test_hasha_9_bytes :
    output .hasha (fixture [] (counting 9) 0) 32 =
      some (hex 32 0x7D3E9E36B5865A874DBC7F9373FB184FA722A94DD3EE04612B5363C949B5089B) := by decide +kernel

theorem test_xof_33_bytes :
    output .xof (fixture [] (hex 3 0x616263) 33) 33 =
      some (hex 33 0xC90213A9E93B192C1D47F8AA20545F6F86686527896CB8D6530BBAE9554E6DC59B) := by decide +kernel

theorem test_xof_no_output :
    output .xof (fixture [] (hex 3 0x616263) 0) 16 = some (List.replicate 16 0xFF) := by decide +kernel

theorem test_xofa_16_bytes :
    output .xofa (fixture [] (counting 8) 16) 16 = some (hex 16 0x91C72F6273B6ED444BF560F2FAC99E8F) := by
  decide +kernel

theorem test_cxof_with_customization :
    output .cxof (fixture (hex 2 0x6162) (hex 3 0x616263) 16) 16 =
      some (hex 16 0x739EE90F99A3E14F47207DE57B647094) := by decide +kernel

theorem test_cxof_empty :
    output .cxof (fixture [] [] 8) 8 = some (hex 8 0x4F50159EF70BB3DA) := by decide +kernel

/-! ENC and DEC: 95_test_vectors.md section 2.4, 2.5 -/

theorem test_enc128 :
    output (.enc128 16 16 16) (fixture (counting 3) (counting 15) 0) 15 =
      some (hex 15 0xF19D28E0F222B3BFCA11E151534C5C) ∧
    tagAfter (.enc128 16 16 16) (fixture (counting 3) (counting 15) 0) =
      some (hex 16 0x86B17754667730F952C0762C2D036649) := by decide +kernel

theorem test_enc128a :
    output (.enc128a 16 16 16) (fixture (counting 17) (counting 17) 0) 17 =
      some (hex 17 0xBC26A071C86E16AD251FD2AD8D3139F43B) ∧
    tagAfter (.enc128a 16 16 16) (fixture (counting 17) (counting 17) 0) =
      some (hex 16 0x1D71C0094E2B77150642B91FDB91FCB2) := by decide +kernel

theorem test_enc80pq :
    output (.enc80pq 20 16 16) (fixture (counting 16) (counting 16) 0) 16 =
      some (hex 16 0x1DB9005057CFC7DCC273A6722B8BE1BC) ∧
    tagAfter (.enc80pq 20 16 16) (fixture (counting 16) (counting 16) 0) =
      some (hex 16 0xDAB849111CFD590F480F66BE1D393841) := by decide +kernel

theorem test_enc80pq_wrong_key_length :
    statusAfter (.enc80pq 16 16 16) (fixture (counting 16) (counting 16) 0) = some 0xE22 := by decide +kernel

/-- The tag of AEAD-128 with AD and PT 00..07. -/
def tag128 : QuadRegs := quadOfBytes (hex 16 0xE897E5F141B2E4A2DAD326085A79408A)

theorem test_dec128_match :
    output (.dec128 16 16 16) { fixture (counting 8) (hex 8 0x69FFEE6F5505A489) 0 with tagIn := tag128 } 8 =
      some (counting 8) ∧
    statusAfter (.dec128 16 16 16) { fixture (counting 8) (hex 8 0x69FFEE6F5505A489) 0 with tagIn := tag128 } =
      some 0xA06 := by decide +kernel

theorem test_dec128_mismatch :
    output (.dec128 16 16 16) { fixture (counting 8) (hex 8 0xE9FFEE6F5505A489) 0 with tagIn := tag128 } 9 =
      some (zeros 8 ++ [0xFF]) ∧
    statusAfter (.dec128 16 16 16) { fixture (counting 8) (hex 8 0xE9FFEE6F5505A489) 0 with tagIn := tag128 } =
      some 0xB02 := by decide +kernel

theorem test_dec128a :
    output (.dec128a 16 16 16)
      { fixture [] (hex 1 0x6E) 0 with tagIn := quadOfBytes (hex 16 0x652B55BFDC8CAD2EC43815B1666B1A3A) } 1 =
      some [0] ∧
    statusAfter (.dec128a 16 16 16)
      { fixture [] (hex 1 0x6E) 0 with tagIn := quadOfBytes (hex 16 0x652B55BFDC8CAD2EC43815B1666B1A3A) } =
      some 0xA06 := by decide +kernel

theorem test_dec80pq :
    output (.dec80pq 20 16 16)
      { fixture [] (hex 1 0x28) 0 with tagIn := quadOfBytes (hex 16 0xAA80FFF4CA3AF32F60EBCAF63A4CCAB7) } 1 =
      some [0] ∧
    statusAfter (.dec80pq 20 16 16)
      { fixture [] (hex 1 0x28) 0 with tagIn := quadOfBytes (hex 16 0xAB80FFF4CA3AF32F60EBCAF63A4CCAB7) } =
      some 0xB02 := by decide +kernel

/-! WIPE: 43_control.md R122 -/

theorem test_wipe :
    statusAfter .wipe (fixture (counting 8) (counting 8) 5) = some 0xD02 ∧
    output .wipe (fixture (counting 8) (counting 8) 5) 192 = some (zeros 192) := by decide +kernel

/-! The permutation: 40_permutation.md section 6 -/

theorem test_permute_12 :
    permute PState.zero 12 =
      ⟨0x78EA7AE5CFEBB108, 0x9B9BFB8513B560F7, 0x6937F83E03D11A50, 0x3FE53F36F2C1178C, 0x045D648E4DEF12C9⟩ := by
  decide +kernel

theorem test_round_constants :
    (List.range 12).map roundConstant = [0x4B, 0x5A, 0x69, 0x78, 0x87, 0x96, 0xA5, 0xB4, 0xC3, 0xD2, 0xE1, 0xF0] := by
  decide

/-- p^8 from the state of 95_test_vectors.md section 2.3's trace is not the count-up order: b = 12 there. -/
theorem test_hash_squeeze_round :
    permute ⟨0xD37FE9F1D10DBCFA, 0x2C435DBB0AB9B7BA, 0x06A00C9D62BAE728, 0xA89D0E014837E0EB, 0xB4A55834C1F7727E⟩ 12 =
      ⟨0xD8408A6804DBE911, 0xE2BDBB3A403CDFC6, 0x416333B07A73C932, 0x24A2801D07E42845, 0xACF7B0C2CD217BBF⟩ := by
  decide +kernel

/-! The host port: 95_test_vectors.md section 2.7 -/

/-- What the last read of a list of events returns. -/
def lastRead (es : List Event) (s : State) : Option Word :=
  match runEvents es s with
  | .next t => some t.rdata
  | _ => none

/-- `wr`, all strobes. -/
def wr (o : Nat) (v : Word) : Event := quickly (writeAccess (.raw o) v 0xF)

/-- `rd`. -/
def rd (o : Nat) : Event := quickly (readAccess (.raw o))

theorem test_host_strobed_length :
    lastRead [wr 0x024 0xFFFFFFFF, quickly (writeAccess (.raw 0x024) 0x0000AB00 0b0010), rd 0x024] State.reset =
      some 0xFFFFABFF := by decide +kernel

theorem test_host_illegal_word_status :
    lastRead [wr 0x010 0, rd 0x00C] State.reset = some 0xE12 ∧
    lastRead [wr 0x010 0, quickly (writeAccess (.raw 0x00C) 2 0b0010), rd 0x00C] State.reset = some 0xE12 ∧
    lastRead [wr 0x010 0, wr 0x00C 2, rd 0x00C] State.reset = some 0xE10 := by decide +kernel

theorem test_host_busy_write_is_lost :
    lastRead [wr 0x010 1, wr 0x020 5, rd 0x8000, .access (readAccess (.raw 0x010)) .completes, rd 0x00C] State.reset =
      some 0x40A ∧
    lastRead [wr 0x010 1, wr 0x020 5, rd 0x8000] State.reset = some 0 ∧
    lastRead [wr 0x010 1, wr 0x020 5, .access (readAccess (.raw 0x010)) .completes, rd 0x020] State.reset = some 0 ∧
    lastRead [wr 0x010 1, .access (readAccess (.raw 0x010)) .completes, rd 0x8000] State.reset = some 0x14BC4673 := by
  decide +kernel

theorem test_host_unaligned_offset :
    lastRead [wr 0x8006 0x11223344, rd 0x8007] State.reset = some 0x11223344 := by decide +kernel

/-- The first words of 95_test_vectors.md program P3: ENC.80PQ with k=16 is rejected, the key stays, STATUS 0xE22. -/
theorem test_script_rejected_length :
    lastRead (scriptEvents [.ldKey (counting 20), .cmd (.enc80pq 16 16 16), .rd (.reg .status)]) State.reset =
      some 0xE22 := by decide +kernel

/-- The state after n steps with these events: value last read, and how many events are left. -/
def afterSteps (n : Nat) (es : List Event) (s : State) : Option (Word × Nat) :=
  match stepN n { s with events := es } with
  | .next t => some (t.rdata, t.events.length)
  | _ => none

/-- R69: one read for a rejected command; reads until DONE = 1 for an accepted one, here after two that show DONE = 0; no end
on an idle core with DONE = 0. -/
theorem test_script_poll :
    afterSteps 2 (scriptEvents [.run (.enc80pq 16 16 16) (.steps 0) [.steps 1, .steps 1]]) State.reset = some (0xE22, 0) ∧
    afterSteps 4 (scriptEvents [.run .wipe (.steps 0) [.steps 1]]) State.reset = some (0xD02, 0) ∧
    (afterSteps 3 (scriptEvents [.run .wipe (.steps 0) [.steps 1]]) State.reset).map Prod.snd = some 1 ∧
    afterSteps 2 (scriptEvents [.run .wipe .completes []]) State.reset = some (0xD02, 0) ∧
    afterSteps 5 (scriptEvents [.poll [.completes]]) State.reset = some (0, 1) := by
  decide +kernel

/-! Witnesses: for every statement with hypotheses, values that meet them -/

/-- The outcome is a next state. -/
def isNext : Host.Outcome State Fault Refusal → Bool
  | .next _ => true
  | .fault _ => false
  | .refused _ => false

theorem exists_of_isNext {o : Host.Outcome State Fault Refusal} (h : isNext o = true) : ∃ t, o = .next t := by
  cases o with
  | next t => exact ⟨t, rfl⟩
  | fault _ => cases h
  | refused _ => cases h

/-- A state every command accepts, with associated data, a message of two blocks and room for the output. -/
def sample : State := fixture (counting 3) (counting 9) 5

/-- HASH, just accepted. -/
def running : State := issue .hash sample

/-- A host access. -/
def access (k : AccessKind) (o : Nat) : Access :=
  { kind := k, offset := BitVec.ofNat 16 o, wdata := 0xFFFFFFFF, strb := 0xF }

theorem witness_DecodeEncodeRoundTrip : ∃ i : Instr, i.wellFormed = true := ⟨.enc128 31 0 16, by decide⟩

theorem witness_DecodedWordReencodes : ∃ w i, decode w = .ok i := ⟨0x1F00105F - 0xD, .enc128 16 0 31, by decide⟩

theorem witness_IllegalWordsAreRejected : ∃ (w : Word) (s : State), s.busy = false ∧ ∃ e, decode w = .error e :=
  ⟨0x00000101, sample, by decide, .nonzeroLength, by decide⟩

theorem witness_StepRunsDecodedCommand_access : ∃ (s : State) (a : Access) (i : Instr) (rest : List Event),
    s.busy = false ∧ a.kind = .write ∧ a.offset.toNat / 4 = 4 ∧ a.strb = 0xF ∧ decode a.wdata = .ok i ∧
    s.events = .access a .completes :: rest :=
  ⟨{ sample with events := [.access { commandWrite 0x21 with offset := 0x013 } .completes] },
    { commandWrite 0x21 with offset := 0x013 }, .xof, [], by decide⟩

theorem witness_StepRunsDecodedCommand_steps : ∃ (s : State) (a : Access) (i : Instr) (rest : List Event) (n : Nat),
    s.busy = false ∧ a.kind = .write ∧ a.offset.toNat / 4 = 4 ∧ a.strb = 0xF ∧ decode a.wdata = .ok i ∧
    s.events = .access a (.steps n) :: rest :=
  ⟨{ sample with events := [.access (commandWrite 0x21) (.steps 2)] }, commandWrite 0x21, .xof, [], 2, by decide⟩

theorem witness_StepRunsDecodedCommand_fetch : ∃ (s : State) (nbits w : Nat) (i : Instr),
    s.busy = false ∧ decodeTableWord nbits w = some i := ⟨State.reset, 32, 0x10101472, .enc80pq 20 16 16, by decide⟩

theorem witness_StepRunsDecodedCommand_idle : ∃ s : State, s.events = [] := ⟨State.reset, rfl⟩

theorem witness_BusyCommandIsDropped : ∃ s : State, s.busy = true := ⟨running, by decide +kernel⟩

theorem witness_RejectionEffect : ∃ (i : Instr) (s : State), s.busy = false ∧ check i s ≠ .noError :=
  ⟨.enc128 16 16 15, sample, by decide +kernel⟩

theorem witness_CheckOrder : ∃ (v : DuplexVariant) (k n t : Nat) (i : Instr),
    i = encInstr v k n t ∨ i = decInstr v k n t := ⟨.aead80pq, 20, 16, 16, .dec80pq 20 16 16, .inr rfl⟩

/-- Each check of R126 is the first to fail somewhere, and none fails on the sample. -/
theorem witness_CheckOrder_codes :
    check (.enc128 20 15 15) { sample with dAddr := 33, aLen := 300 } = .keyLen ∧
    check (.enc128 16 15 15) { sample with dAddr := 33, aLen := 300 } = .nonceLen ∧
    check (.enc128 16 16 15) { sample with dAddr := 33, aLen := 300 } = .tagLen ∧
    check (.enc128 16 16 16) { sample with dAddr := 33, aLen := 300 } = .range ∧
    check (.enc128 16 16 16) { sample with dAddr := 33 } = .overlap ∧
    check (.enc128 16 16 16) { sample with dAddr := 32 } = .noError ∧
    check (.enc128 16 16 16) { sample with dAddr := 40 } = .overlap ∧
    check (.enc128 16 16 16) { sample with dAddr := 41 } = .noError ∧
    check .xof { sample with mAddr := 0xFFFFFFFF, mLen := 2 } = .range ∧
    check .xof { sample with mAddr := 0xFFFFFFFF, mLen := 0 } = .noError ∧
    check .hash { sample with dAddr := 224 } = .noError ∧ check .hash { sample with dAddr := 225 } = .range := by
  decide +kernel

theorem witness_AcceptanceEffect : ∃ (w : Word) (i : Instr) (s : State),
    s.busy = false ∧ decode w = .ok i ∧ check i s = .noError := ⟨0x10101053, .dec128 16 16 16, sample, by decide +kernel⟩

theorem witness_HashAndHashaComplete : ∃ (s : State) (M : Bytes), s.busy = false ∧ fits s s.mAddr.toNat s.mLen.toNat ∧
    s.dAddr.toNat + 32 ≤ s.dmemSize.bytes ∧ Memory.readBytes s.dmem s.mAddr.toNat s.mLen.toNat = .ok M :=
  ⟨{ sample with dAddr := 224 }, counting 9, by decide +kernel⟩

theorem witness_XofAndXofaComplete : ∃ (s : State) (M : Bytes), s.busy = false ∧ fits s s.mAddr.toNat s.mLen.toNat ∧
    fits s s.dAddr.toNat s.outLen.toNat ∧ Memory.readBytes s.dmem s.mAddr.toNat s.mLen.toNat = .ok M :=
  ⟨sample, counting 9, by decide +kernel⟩

theorem witness_CxofCompletes : ∃ (s : State) (M Z : Bytes), s.busy = false ∧ fits s s.aAddr.toNat s.aLen.toNat ∧
    fits s s.mAddr.toNat s.mLen.toNat ∧ fits s s.dAddr.toNat s.outLen.toNat ∧
    Memory.readBytes s.dmem s.mAddr.toNat s.mLen.toNat = .ok M ∧
    Memory.readBytes s.dmem s.aAddr.toNat s.aLen.toNat = .ok Z :=
  ⟨sample, counting 9, counting 3, by decide +kernel⟩

theorem witness_EncCommandsComplete : ∃ (v : DuplexVariant) (i : Instr) (s : State) (A P : Bytes),
    i = encInstr v (if v = .aead80pq then 20 else 16) 16 16 ∧ s.busy = false ∧
    fits s s.aAddr.toNat s.aLen.toNat ∧ fits s s.mAddr.toNat s.mLen.toNat ∧ fits s s.dAddr.toNat s.mLen.toNat ∧
    ¬(s.mAddr.toNat < s.dAddr.toNat ∧ s.dAddr.toNat < s.mAddr.toNat + s.mLen.toNat) ∧
    Memory.readBytes s.dmem s.aAddr.toNat s.aLen.toNat = .ok A ∧
    Memory.readBytes s.dmem s.mAddr.toNat s.mLen.toNat = .ok P :=
  ⟨.aead80pq, .enc80pq 20 16 16, { sample with dAddr := 32 }, counting 3, counting 9, by decide +kernel⟩

theorem witness_DecCommandsComplete : ∃ (v : DuplexVariant) (i : Instr) (s : State) (A C : Bytes),
    i = decInstr v (if v = .aead80pq then 20 else 16) 16 16 ∧ s.busy = false ∧
    fits s s.aAddr.toNat s.aLen.toNat ∧ fits s s.mAddr.toNat s.mLen.toNat ∧ fits s s.dAddr.toNat s.mLen.toNat ∧
    ¬(s.mAddr.toNat < s.dAddr.toNat ∧ s.dAddr.toNat < s.mAddr.toNat + s.mLen.toNat) ∧
    Memory.readBytes s.dmem s.aAddr.toNat s.aLen.toNat = .ok A ∧
    Memory.readBytes s.dmem s.mAddr.toNat s.mLen.toNat = .ok C :=
  ⟨.aead128a, .dec128a 16 16 16, sample, counting 3, counting 9, by decide +kernel⟩

/-- Both results of a DEC occur: `test_dec128_match` and `test_dec128_mismatch` run them. -/
theorem witness_DecCommandsComplete_mismatch :
    (decryptOf .aead128 sample (counting 3) (counting 9)).1 = false := by decide +kernel

theorem witness_WipeCompletes : ∃ (s : State) (a b : Nat), s.busy = false ∧ a < s.dmemSize.bytes ∧ s.dmemSize.bytes ≤ b :=
  ⟨sample, 255, 256, by decide +kernel⟩

theorem witness_DigestFrame : ∀ v, ∃ t, exec (digestInstr v) sample = .next t := by
  intro v
  apply exists_of_isNext
  cases v <;> decide +kernel

theorem witness_EncFrame : ∀ v, ∃ t, exec (encInstr v (if v = .aead80pq then 20 else 16) 16 16) sample = .next t := by
  intro v
  apply exists_of_isNext
  cases v <;> decide +kernel

theorem witness_DecFrame : ∀ v, ∃ t, exec (decInstr v (if v = .aead80pq then 20 else 16) 16 16) sample = .next t := by
  intro v
  apply exists_of_isNext
  cases v <;> decide +kernel

theorem witness_WipeFrame : ∃ t, exec .wipe sample = .next t := exists_of_isNext (by decide +kernel)

/-- Addresses at the edges of an output region, for the frames. -/
theorem witness_frames_address :
    (outputRegion (.digest .hash) sample = (64, 32)) ∧ (outputRegion (.enc .aead128) sample = (64, 9)) ∧
    (outputRegion (.digest .xof) sample = (64, 5)) ∧ (outputRegion .wipe sample = (0, 256)) := by decide +kernel

theorem witness_IgnoredOperandsDoNotMatter : ∃ v, v ≠ DuplexVariant.aead80pq := ⟨.aead128, by decide⟩

theorem witness_IdAndParamAreConstant : ∃ (s : State) (a b c d : Access),
    a.kind = .read ∧ a.offset.toNat / 4 = 0 ∧ b.kind = .read ∧ b.offset.toNat / 4 = 1 ∧
    c.kind = .write ∧ c.offset.toNat / 4 ≤ 1 ∧ d.kind = .write ∧ d.offset.toNat / 4 ≤ 1 ∧ s.busy = false :=
  ⟨sample, access .read 3, access .read 7, access .write 0, access .write 7, by decide +kernel⟩

theorem witness_KeyRegistersAreWriteOnly : ∃ (s : State) (a b : Access), a.offset.toNat / 4 = 0x10 + (0 : Fin 5).val ∧
    a.kind = .read ∧ b.offset.toNat / 4 = 0x10 + (4 : Fin 5).val ∧ b.kind = .write ∧ b.strb = 0xF ∧ s.busy = false :=
  ⟨sample, access .read 0x040, access .write 0x053, by decide +kernel⟩

theorem witness_KeyRegistersAreWriteOnly_commands :
    (∃ t, exec (.dec128 16 16 16) sample = .next t) ∧ check (.dec128 16 16 16) sample = .noError ∧
    (∃ t, exec (.dec128 20 16 16) sample = .next t) ∧ check (.dec128 20 16 16) sample ≠ .noError ∧
    sample.busy = false ∧ ∀ v, (Instr.dec128 16 16 16).command ≠ .digest v :=
  ⟨exists_of_isNext (by decide +kernel), by decide +kernel, exists_of_isNext (by decide +kernel), by decide +kernel,
    by decide +kernel, fun v h => by cases h⟩

theorem witness_OperandRegisterAccess : ∃ (s : State) (a b c : Access) (r : Reg) (w : Word),
    r.operand s = some w ∧ a.offset.toNat / 4 * 4 = r.offset ∧ a.kind = .write ∧ s.busy = false ∧
    b.offset.toNat / 4 * 4 = r.offset ∧ b.kind = .read ∧ c.kind = .write ∧ c.offset.toNat / 4 * 4 = r.offset :=
  ⟨sample, { access .write 0x07F with strb := 0b0110 }, access .read 0x07C, access .write 0x07D, .tagIn 3, 0,
    by decide +kernel⟩

theorem witness_OperandRegisterAccess_key : ∃ (s : State) (a : Access) (w : Word),
    (Reg.key 4).operand s = some w ∧ a.offset.toNat / 4 * 4 = (Reg.key 4).offset ∧ a.kind = .read :=
  ⟨sample, access .read 0x050, 0x13121110, by decide +kernel⟩

theorem witness_OperandRegisterAccess_tagOut : ∃ (s : State) (a b : Access), a.offset.toNat / 4 * 4 = 0x080 + 4 * (0 : Fin 4).val ∧
    a.kind = .read ∧ b.offset.toNat / 4 * 4 = 0x080 + 4 * (3 : Fin 4).val ∧ b.kind = .write ∧ s.busy = false :=
  ⟨sample, access .read 0x083, access .write 0x08F, by decide +kernel⟩

/-- Both ends of every reserved range, in a 256-byte build: reads, writes while idle, writes while busy. -/
theorem witness_ReservedOffsets :
    ([0x014, 0x01F, 0x038, 0x03F, 0x054, 0x05F, 0x090, 0x7FFF, 0x8100, 0xFFFF] : List Nat).all (fun o =>
      ((0x014 ≤ o && o ≤ 0x01F) || (0x038 ≤ o && o ≤ 0x03F) || (0x054 ≤ o && o ≤ 0x05F) || (0x090 ≤ o && o ≤ 0x7FFF) ||
        0x8000 + sample.dmemSize.bytes ≤ o) && (access .write o).offset.toNat == o) = true ∧
    sample.busy = false ∧ running.busy = true := by decide +kernel

theorem witness_StatusWriteOneToClear : ∃ (s : State) (a : Access),
    a.kind = .write ∧ a.offset.toNat / 4 = 3 ∧ s.busy = false := ⟨sample, access .write 0x00F, by decide +kernel⟩

theorem witness_StatusReadLayout : ∃ (s t : State) (a : Access), a.kind = .read ∧ a.offset.toNat / 4 = 3 ∧
    s.busy = false ∧ t.busy = true ∧ t.cur = some (.digest .hash) :=
  ⟨sample, running, access .read 0x00C, by decide +kernel⟩

theorem witness_CmdRegister : ∃ (s : State) (a b c d : Access), a.offset.toNat / 4 = 4 ∧ a.kind = .read ∧
    b.offset.toNat / 4 = 4 ∧ b.kind = .write ∧ b.strb ≠ 0xF ∧ c.offset.toNat / 4 = 4 ∧ c.kind = .write ∧ c.strb = 0xF ∧
    (decode c.wdata).isOk = true ∧ d.offset.toNat / 4 = 4 ∧ d.kind = .write ∧ d.strb = 0xF ∧
    (decode d.wdata).isOk = false ∧ s.busy = false :=
  ⟨sample, access .read 0x010, { access .write 0x010 with strb := 0b0111 }, commandWrite 4, access .write 0x013,
    by decide +kernel⟩

theorem witness_InterruptFollowsDone : ∃ (s : State) (i : Instr) (a b c : Access), a.offset.toNat / 4 = 2 ∧
    a.kind = .read ∧ b.offset.toNat / 4 = 2 ∧ b.kind = .write ∧ s.busy = false ∧ check i s = .noError ∧
    c.kind = .write ∧ c.offset.toNat / 4 = 3 ∧ c.strb.getLsbD 0 = true ∧ c.wdata.getLsbD 1 = true ∧ s.irqEn = false :=
  ⟨sample, .xof, access .read 0x008, access .write 0x00B, access .write 0x00C, by decide +kernel⟩

theorem witness_DmemWindowRead : ∃ (s t u : State) (a c : Access), a.kind = .read ∧
    a.offset.toNat / 4 * 4 = 0x8000 + 64 ∧ 64 < s.dmemSize.bytes ∧ t.busy = true ∧ s.busy = false ∧
    Memory.byteAt s.dmem 64 = some 0xFF ∧ Memory.byteAt s.dmem 65 = some 0xFF ∧ Memory.byteAt s.dmem 66 = some 0xFF ∧
    Memory.byteAt s.dmem 67 = some 0xFF ∧ c.kind = .read ∧ c.offset.toNat / 4 * 4 = 0x8000 + 252 ∧
    252 < u.dmemSize.bytes :=
  ⟨sample, running, sample, access .read 0x8043, access .read 0x80FF, by decide +kernel⟩

theorem witness_DmemWindowWrite : ∃ (s t : State) (a c : Access), a.kind = .write ∧
    a.offset.toNat / 4 * 4 = 0x8000 + 0 ∧ 0 < s.dmemSize.bytes ∧ c.kind = .write ∧
    c.offset.toNat / 4 * 4 = 0x8000 + 252 ∧ 252 < s.dmemSize.bytes ∧ s.busy = false ∧ t.busy = true :=
  ⟨sample, running, access .write 0x8000, access .write 0x80FF, by decide +kernel⟩

theorem witness_UnwrittenReadFaults_host : ∃ (s : State) (a : Access) (b e : Nat), s.busy = false ∧ a.kind = .read ∧
    a.offset.toNat / 4 * 4 = 0x8000 + b ∧ b < s.dmemSize.bytes ∧ b ≤ e ∧ e < b + 4 ∧ Memory.byteAt s.dmem e = none ∧
    ∀ c, b ≤ c → c < e → Memory.byteAt s.dmem c ≠ none :=
  ⟨sample, access .read 0x8000, 0, 3, by decide +kernel, by decide +kernel, by decide +kernel, by decide +kernel,
    by decide +kernel, by decide +kernel, by decide +kernel, fun c _ hc => by interval_cases c <;> decide +kernel⟩

theorem witness_UnwrittenReadFaults_command : ∃ (i : Instr) (s : State) (r : Region) (b : Nat), s.busy = false ∧
    check i s = .noError ∧ r ∈ inputRegions i.command s ∧ r.1 ≤ b ∧ b < r.1 + r.2 ∧ Memory.byteAt s.dmem b = none :=
  ⟨.enc128 16 16 16, { sample with mLen := 10 }, (32, 10), 41, by decide +kernel⟩

theorem witness_BusyAccesses : ∃ (s : State) (a b c d : Access) (r : Reg), s.busy = true ∧ a.kind = .write ∧
    b.kind = .read ∧ 0x8000 ≤ b.offset.toNat ∧ b.offset.toNat < 0x8000 + s.dmemSize.bytes ∧ c.kind = .read ∧
    c.offset.toNat / 4 * 4 = Reg.status.offset ∧ r ≠ .status ∧ d.kind = .read ∧ d.offset.toNat / 4 * 4 = r.offset :=
  ⟨running, access .write 0xFFFF, access .read 0x80FF, access .read 0x00E, access .read 0x08C, .tagOut 3,
    by decide +kernel⟩

theorem witness_ReadsHaveNoSideEffect : ∃ (s t : State) (a : Access), a.kind = .read ∧ hostStep a s = .next t := by
  obtain ⟨t, ht⟩ := exists_of_isNext (o := hostStep (access .read 0x00C) running) (by decide +kernel)
  exact ⟨running, t, access .read 0x00C, rfl, ht⟩

theorem witness_ReadsHideInternalState : ∃ a : Access, a.kind = .read := ⟨access .read 0x040, rfl⟩

theorem witness_InterleavedAccessesKeepTheResult :
    ∃ (i : Instr) (s e : State) (n : Nat) (between : List (Access × Nat)),
      i.wellFormed = true ∧ s.busy = false ∧ check i s = .noError ∧ exec i s = .next e ∧
      n + (between.map Prod.snd).sum ≤ (opsFor i.command s).length := by
  obtain ⟨e, he⟩ := exists_of_isNext (o := exec .cxof sample) (by decide +kernel)
  exact ⟨.cxof, sample, e, 2, [(access .write 0x8000, 1), (access .read 0x00C, 2)], by decide, by decide +kernel,
    by decide +kernel, he, by decide +kernel⟩

theorem witness_IssuedCommandCompletes : ∃ (i : Instr) (s : State), s.busy = false ∧ s.events = [] ∧
    check i s = .noError := ⟨.dec80pq 20 16 16, sample, by decide +kernel⟩

/-- Two states of one length each that differ in every datum, one DEC position that writes in both. -/
theorem witness_WritePatternIsDataIndependent : ∃ (c : Command) (s t : State) (op : SeqOp),
    t.dmemSize = s.dmemSize ∧ t.aLen = s.aLen ∧ t.mLen = s.mLen ∧ t.outLen = s.outLen ∧ t.dAddr = s.dAddr ∧
    op ∈ opsFor c s ∧ (opEffect c op s).isOk = true ∧ (opEffect c op t).isOk = true ∧ s.ok ≠ t.ok :=
  ⟨.dec .aead128, { sample with ok := some true }, { sample with ok := some false, key := KeyRegs.zero, x := ⟨1, 2, 3, 4, 5⟩ },
    .dxText .second 1, by decide +kernel⟩

theorem witness_ResetAndPowerOn : (∃ s : State, s.busy = false) ∧
    ∃ s t : State, applyEvent (.reset 3) s = .next t ∧ s.busy = true := by
  obtain ⟨t, ht⟩ := exists_of_isNext (o := applyEvent (.reset 3) running) (by decide +kernel)
  exact ⟨⟨sample, by decide +kernel⟩, running, t, ht, by decide +kernel⟩

/-- The case of log 14 occurs: a running ENC at a text position whose block is unwritten. -/
theorem witness_ResetAndPowerOn_fault :
    ∃ s : State, s.busy = true ∧ applyEvent (.reset 1) s = .fault (.commandReadUnwritten 32) :=
  ⟨{ sample with busy := true, cur := some (.enc .aead128), seq := [.dxText .first 0], dmem := [] },
    by decide +kernel, by rfl⟩

theorem witness_AbortLeavesAnOutputPrefix : ∃ (i : Instr) (s e : State), s.busy = false ∧ check i s = .noError ∧
    exec i s = .next e := by
  obtain ⟨e, he⟩ := exists_of_isNext (o := exec (.enc128 16 16 16) sample) (by decide +kernel)
  exact ⟨.enc128 16 16 16, sample, e, by decide +kernel, by decide +kernel, he⟩

theorem witness_FailedDecStoresNoPlaintext : ∃ (v : DuplexVariant) (k n l : Nat) (s t r : State) (A C : Bytes)
    (m landed : Nat), s.busy = false ∧ check (decInstr v k n l) s = .noError ∧
    Memory.readBytes s.dmem s.aAddr.toNat s.aLen.toNat = .ok A ∧
    Memory.readBytes s.dmem s.mAddr.toNat s.mLen.toNat = .ok C ∧ (decryptOf v s A C).1 = false ∧
    engineSteps m (issue (decInstr v k n l) s) = .next t ∧ applyEvent (.reset landed) t = .next r := by
  obtain ⟨r, hr⟩ := exists_of_isNext
    (o := andThen (engineSteps 11 (issue (.dec128 16 16 16) sample)) (applyEvent (.reset 5))) (by decide +kernel)
  obtain ⟨t, ht⟩ := exists_of_isNext (o := engineSteps 11 (issue (.dec128 16 16 16) sample)) (by decide +kernel)
  rw [ht] at hr
  exact ⟨.aead128, 16, 16, 16, sample, t, r, counting 3, counting 9, 11, 5, by decide +kernel, by decide +kernel,
    by decide +kernel, by decide +kernel, by decide +kernel, ht, hr⟩

theorem witness_Inv_idle : Inv State.reset :=
  ⟨by decide, by decide, fun _ => ⟨rfl, rfl, rfl, rfl, rfl, by decide, by decide, by decide⟩, fun h => by cases h⟩

theorem witness_Inv_running : Inv running ∧ running.busy = true :=
  ⟨⟨by decide +kernel, by decide +kernel, fun h => absurd h (by decide +kernel),
    fun _ => ⟨.digest .hash, by decide +kernel, by decide +kernel, by decide +kernel, by decide +kernel, by decide +kernel,
      by decide +kernel, by decide +kernel, by decide +kernel, List.suffix_refl _, (fun h => by cases h),
      (fun ⟨v, h⟩ => by cases h)⟩⟩, by decide +kernel⟩

theorem witness_StepKeepsInv : ∃ s t : State, Inv s ∧ step s = .next t ∧ s.busy = true := by
  obtain ⟨t, ht⟩ := exists_of_isNext (o := step running) (by decide +kernel)
  exact ⟨running, t, witness_Inv_running.1, ht, witness_Inv_running.2⟩

theorem witness_LoadScriptsPlaceTheirBytes : ∃ (s : State) (B B' : Bytes) (addr : Nat), s.busy = false ∧ B.length = 16 ∧
    B'.length = 20 ∧ addr % 4 = 0 ∧ addr + B'.length ≤ s.dmemSize.bytes :=
  ⟨sample, counting 16, counting 20, 236, by decide +kernel⟩

theorem witness_PollRepeatsUntilDone : ∃ (s t u : State) (gaps : List Gap), s.events = [.poll gaps] ∧ s.done = true ∧
    t.events = [.poll gaps] ∧ t.done = false ∧ t.busy = true ∧ u.events = [.poll gaps] ∧ u.done = false ∧ u.busy = false :=
  ⟨{ sample with events := [.poll [.steps 1]], done := true }, { running with events := [.poll [.steps 1]] },
    { sample with events := [.poll [.steps 1]], done := false }, [.steps 1], by decide +kernel⟩

/-- An accepted command, and a rejected one. -/
theorem witness_RunScriptEndsWithDone : ∃ (i j : Instr) (s e f : State), i.wellFormed = true ∧ j.wellFormed = true ∧
    s.busy = false ∧ exec i s = .next e ∧ exec j s = .next f ∧ check i s = .noError ∧ check j s ≠ .noError := by
  obtain ⟨e, he⟩ := exists_of_isNext (o := exec (.enc128a 16 16 16) sample) (by decide +kernel)
  obtain ⟨f, hf⟩ := exists_of_isNext (o := exec (.enc128a 20 16 16) sample) (by decide +kernel)
  exact ⟨.enc128a 16 16 16, .enc128a 20 16 16, sample, e, f, by decide, by decide, by decide +kernel, he, hf,
    by decide +kernel, by decide +kernel⟩

theorem witness_PermuteIsBijective : ∃ n : Nat, n ≤ 12 := ⟨12, by decide⟩

theorem witness_SboxActsOnColumns : ∃ j : Nat, j < 64 := ⟨63, by decide⟩

theorem witness_ConstantAdditionBits : ∃ i : Nat, i < 12 := ⟨11, by decide⟩

theorem witness_DiffusionBits : ∃ j : Nat, j < 64 := ⟨63, by decide⟩

theorem witness_SerialisationIsInvertible : ∃ B : Bytes, B.length = 40 := ⟨counting 40, by decide⟩

theorem witness_RateBlocksTouchRateWordsOnly : ∃ B C : Bytes, B.length = 8 ∧ C.length = 16 :=
  ⟨counting 8, counting 16, by decide⟩

/-- The shortest and longest final partial blocks of both rates. -/
theorem witness_RateBlocksTouchRateWordsOnly_partial : ∃ (A B C D : Bytes) (v w : DuplexVariant),
    A.length = 0 ∧ B.length = 7 ∧ C.length = 8 ∧ D.length = 15 ∧ B.length < (if v = .aead128a then 16 else 8) ∧
    D.length < (if w = .aead128a then 16 else 8) :=
  ⟨[], counting 7, counting 8, counting 15, .aead80pq, .aead128a, by decide⟩

theorem witness_KeyInjectionWordForms : ∃ K K' N : Bytes, K.length = 16 ∧ K'.length = 20 ∧ N.length = 16 :=
  ⟨counting 16, counting 20, counting 16, by decide⟩

theorem witness_RegisterLanes : ∃ (j k n : Nat) (B : Bytes), j / 4 < 5 ∧ j < n ∧ k / 4 < 4 ∧ B.length = 16 :=
  ⟨19, 15, 20, counting 16, by decide⟩

theorem witness_PaddingBlocks : ∃ r : Nat, 0 < r := ⟨8, by decide⟩

theorem witness_SpongePrefixConsistency : ∃ m n : Nat, m ≤ n := ⟨0, 33, by decide⟩

theorem witness_VerifyTagIffEqual : ∃ T T' : Bytes, T.length = 16 ∧ T'.length = 16 := ⟨counting 16, zeros 16, by decide⟩

theorem witness_WrongTagGivesZeros : ∃ (v : DuplexVariant) (K N A P T : Bytes),
    K.length = (if v = .aead80pq then 20 else 16) ∧ T.length = 16 ∧ T ≠ (encrypt v K N A P).2 :=
  ⟨.aead128, counting 16, counting 16, [], [0], zeros 16, by decide +kernel⟩

theorem witness_MachineDecryptsWhatItEncrypts : ∃ (v : DuplexVariant) (k : Nat) (s t u : State) (A P : Bytes) (out : Word),
    k = (if v = .aead80pq then 20 else 16) ∧ s.busy = false ∧ check (encInstr v k 16 16) s = .noError ∧
    Memory.readBytes s.dmem s.aAddr.toNat s.aLen.toNat = .ok A ∧
    Memory.readBytes s.dmem s.mAddr.toNat s.mLen.toNat = .ok P ∧ exec (encInstr v k 16 16) s = .next t ∧
    (s.aLen = 0 ∨ s.mLen = 0 ∨ s.aAddr.toNat + s.aLen.toNat ≤ s.dAddr.toNat ∨
      s.dAddr.toNat + s.mLen.toNat ≤ s.aAddr.toNat) ∧
    u = { t with key := s.key, tagIn := t.tagOut, mAddr := s.dAddr, dAddr := out } ∧
    check (decInstr v k 16 16) u = .noError := by
  have hnext : isNext (match exec (.enc80pq 20 16 16) sample with
      | .next t => if check (.dec80pq 20 16 16)
          { t with key := sample.key, tagIn := t.tagOut, mAddr := sample.dAddr, dAddr := 128 } = .noError then
          .next t else .fault (.hostReadUnwritten 0)
      | o => o) = true := by decide +kernel
  obtain ⟨t, ht⟩ := exists_of_isNext (o := exec (.enc80pq 20 16 16) sample) (by decide +kernel)
  rw [ht] at hnext
  dsimp only at hnext
  have hcheck : check (.dec80pq 20 16 16)
      { t with key := sample.key, tagIn := t.tagOut, mAddr := sample.dAddr, dAddr := 128 } = .noError := by
    by_contra hne
    rw [if_neg hne] at hnext
    cases hnext
  exact ⟨.aead80pq, 20, sample, t, _, counting 3, counting 9, 128, by decide, by decide +kernel, by decide +kernel,
    by decide +kernel, by decide +kernel, ht, by decide +kernel, rfl, hcheck⟩

end Sys2Proof.Tests
end

section
/-! Settling O50: `store64` and `load64` are inverse in both byte orders (00_scope.md R9), and so are `ser` and `deser` (R10).
A little-endian word is the number whose base-256 digits are its bytes; the big-endian case is the little-endian one on the
reversed bytes. -/

namespace Sys2Proof.Machine

/-! Words (R9) -/

theorem byteOf_toNat (w : Lane) (j : Nat) : (byteOf w j).toNat = w.toNat / 2 ^ (8 * j) % 256 := by
  simp [byteOf, Nat.shiftRight_eq_div_pow]

theorem load64BE_eq_load64LE_reverse (B : Bytes) : load64BE B = load64LE B.reverse := by
  simp only [load64BE, load64LE, List.foldr_reverse, Nat.add_comm]

theorem store64BE_eq_reverse_store64LE (w : Lane) : store64BE w = (store64LE w).reverse := rfl

theorem lt_of_mem_map_toNat {B : Bytes} {d : Nat} (h : d ∈ B.map BitVec.toNat) : d < 256 := by
  obtain ⟨b, -, rfl⟩ := List.mem_map.mp h
  exact b.isLt

theorem load64LE_toNat {B : Bytes} (h : B.length = 8) :
    (load64LE B).toNat = Nat.ofDigits 256 (B.map BitVec.toNat) := by
  have hlt : Nat.ofDigits 256 (B.map BitVec.toNat) < 256 ^ (B.map BitVec.toNat).length :=
    Nat.ofDigits_lt_base_pow_length (by decide) fun _ => lt_of_mem_map_toNat
  rw [List.length_map, h] at hlt
  have hfold : B.foldr (fun b n => b.toNat + 256 * n) 0 = Nat.ofDigits 256 (B.map BitVec.toNat) := by
    rw [Nat.ofDigits_eq_foldr, List.foldr_map]
    rfl
  rw [load64LE, hfold, BitVec.toNat_ofNat]
  exact Nat.mod_eq_of_lt hlt

theorem load64LE_injective {B C : Bytes} (hB : B.length = 8) (hC : C.length = 8) (h : load64LE B = load64LE C) : B = C := by
  have hdigits : B.map BitVec.toNat = C.map BitVec.toNat :=
    Nat.ofDigits_inj_of_len_eq (b := 256) (by decide) (by simp [hB, hC]) (fun _ => lt_of_mem_map_toNat)
      (fun _ => lt_of_mem_map_toNat) (by rw [← load64LE_toNat hB, ← load64LE_toNat hC, h])
  exact List.map_injective_iff.mpr (fun _ _ => BitVec.eq_of_toNat_eq) hdigits

theorem load64LE_store64LE (w : Lane) : load64LE (store64LE w) = w := by
  apply BitVec.eq_of_toNat_eq
  rw [load64LE_toNat (store64LE_length w)]
  simp only [store64LE, List.map_cons, List.map_nil, byteOf_toNat, Nat.ofDigits_cons, Nat.ofDigits_nil]
  have := w.isLt
  omega

theorem store64LE_load64LE {B : Bytes} (h : B.length = 8) : store64LE (load64LE B) = B :=
  load64LE_injective (store64LE_length _) h (load64LE_store64LE _)

@[simp] theorem load64_store64 (P : Profile) (w : Lane) : load64 P (store64 P w) = w := by
  cases P with
  | be =>
    change load64BE (store64BE w) = w
    rw [load64BE_eq_load64LE_reverse, store64BE_eq_reverse_store64LE, List.reverse_reverse, load64LE_store64LE]
  | le => exact load64LE_store64LE w

theorem store64_load64 (P : Profile) {B : Bytes} (h : B.length = 8) : store64 P (load64 P B) = B := by
  cases P with
  | be =>
    change store64BE (load64BE B) = B
    rw [load64BE_eq_load64LE_reverse, store64BE_eq_reverse_store64LE, store64LE_load64LE (by simpa using h),
      List.reverse_reverse]
  | le => exact store64LE_load64LE h

/-! The state (R10) -/

@[simp] theorem deser_ser (P : Profile) (x : PState) : deser P (ser P x) = x := by
  simp [deser, ser, List.drop_append, List.drop_eq_nil_of_le, List.take_of_length_le]

theorem take_append_drop_add (B : Bytes) (o n : Nat) : (B.drop o).take n ++ B.drop (o + n) = B.drop o := by
  rw [← List.drop_drop, List.take_append_drop]

theorem ser_deser (P : Profile) {B : Bytes} (h : B.length = 40) : ser P (deser P B) = B := by
  have hlast : (B.drop 32).take 8 = B.drop 32 := List.take_of_length_le (by simp [h])
  calc ser P (deser P B)
      = B.take 8 ++ ((B.drop 8).take 8 ++ ((B.drop 16).take 8 ++ ((B.drop 24).take 8 ++ (B.drop 32).take 8))) := by
        simp [ser, deser, store64_load64, h]
    _ = B := by
        rw [hlast, take_append_drop_add B 24 8, take_append_drop_add B 16 8, take_append_drop_add B 8 8,
          List.take_append_drop]

/-- Settles O50, from the word-level inverses `load64_store64` and `store64_load64`. -/
theorem serialisationIsInvertible : Obligations.SerialisationIsInvertible :=
  fun P => ⟨deser_ser P, fun _ => ser_deser P⟩

end Sys2Proof.Machine
end

section
/-! Settling O42 and O43: the invariant holds at reset, and every event of the outside and every advance of the core keeps
it (10_state.md R18, R36, 20_memory.md R37, 43_control.md R117). The rules of Sys2Proof/Laws/Invariant.lean are put together
along `step_cases` and `accessStep_cases`. -/

namespace Sys2Proof.Machine

theorem andThen_eq_next {o : Host.Outcome State Fault Refusal} {f : State → Host.Outcome State Fault Refusal}
    {t : State} : andThen o f = .next t ↔ ∃ u, o = .next u ∧ f u = .next t := by
  cases o <;> simp

/-- The command that an idle core takes runs as far as the schedule says, to its completion too (43_control.md R116,
R121). -/
theorem commandAccess_ok {w : Word} {i : Instr} {s : State} (hd : decode w = .ok i) (hb : s.busy = false) (g : Gap) :
    commandAccess w g s = progress g (issue i s) := by
  rw [commandAccess, hd]
  cases g with
  | steps n => rfl
  | completes =>
    change exec i s = runToCompletion (issue i s)
    rw [exec_eq, runCommand, if_neg (by simp [hb])]

theorem commandAccess_error {w : Word} {e : DecodeError} (hd : decode w = .error e) (g : Gap) (s : State) :
    commandAccess w g s = .next (issueIllegal w s) := by
  rw [commandAccess, hd]

/-! Every event keeps the invariant -/

theorem inv_with_events {s : State} (hi : Inv s) (es : List Event) : Inv { s with events := es } :=
  inv_of_host_fields hi rfl

theorem hostRead_inv {o : Nat} {s t : State} (hi : Inv s) (h : hostRead o s = .next t) : Inv t := by
  have ht := hostRead_eq h
  exact inv_of_host_fields hi (by rw [ht])

/-- The word of no command is rejected: an error with PHASE = REJECTED, and the core as idle as it was (60_exceptions.md
R127). -/
theorem issueIllegal_inv {s : State} (hi : Inv s) (hb : s.busy = false) (w : Word) : Inv (issueIllegal w s) := by
  obtain ⟨hx, hcur, hseq, htCalc, hok, -, -, -⟩ := hi.idle hb
  have hidle : IdleClean (issueIllegal w s) :=
    ⟨hx, hcur, hseq, htCalc, hok, by simp [issueIllegal, idlePhases], by simp [issueIllegal], by simp [issueIllegal]⟩
  exact ⟨hi.memoryWf, hi.memoryBounded, fun _ => hidle, fun h => absurd (hb.symm.trans h) (by decide)⟩

theorem commandAccess_inv {w : Word} {g : Gap} {s t : State} (hi : Inv s) (hb : s.busy = false)
    (h : commandAccess w g s = .next t) : Inv t := by
  cases hd : decode w with
  | error e =>
    rw [commandAccess_error hd] at h
    cases h
    exact issueIllegal_inv hi hb w
  | ok i =>
    rw [commandAccess_ok hd hb] at h
    exact progress_inv (issue_inv hi hb) h

theorem accessStep_inv {a : Access} {g : Gap} {s t : State} (hi : Inv s) (h : accessStep a g s = .next t) : Inv t := by
  rcases accessStep_cases a g s with ⟨-, he⟩ | ⟨-, -, he⟩ | ⟨-, hb, -, he⟩ | ⟨-, hb, -, he⟩
  · rw [he, andThen_eq_next] at h
    obtain ⟨u, hu, hp⟩ := h
    exact progress_inv (hostRead_inv hi hu) hp
  · exact progress_inv (inv_of_host_fields (t := dropWrite s) hi rfl) (he ▸ h)
  · exact commandAccess_inv hi hb (he ▸ h)
  · exact progress_inv (hostWrite_inv hi hb) (he ▸ h)

/-- A beginning of what a position writes lies in the output region too (70_reset_and_hazards.md R149). -/
theorem EffectInside.take {c : Command} {s : State} {e : OpEffect} (h : EffectInside c s e) (n : Nat) :
    EffectInside c s { e with bytes := e.bytes.take n } := by
  rcases h with h | ⟨hlo, hhi⟩
  · exact .inl (by simp [h])
  · exact .inr ⟨hlo, by simp only [List.length_take]; omega⟩

/-- The DMEM that a reset leaves is canonical and inside DMEM_BYTES (70_reset_and_hazards.md R149). -/
theorem abortedDmem_inv {landed : Nat} {s : State} {d : Memory} (hi : Inv s) (h : abortedDmem landed s = .ok d) :
    Memory.wf d ∧ ∀ cell ∈ d, cell.1 < s.dmemSize.bytes := by
  unfold abortedDmem at h
  split at h
  case h_1 c op rest n hb hcur hseq =>
    obtain ⟨c', hr⟩ := hi.running hb
    obtain rfl : c = c' := Option.some.inj (hcur.symm.trans hr.cur)
    have hmem : op ∈ opsFor c s := hr.seq.subset (by simp [hseq])
    split at h
    case h_1 e he =>
      cases h
      have hinside := (opEffect_inside hmem he).take (n + 1)
      exact ⟨writeBytes_wf hi.memoryWf _ _,
        applyEffect_bounded (op := op) (rest := rest) hinside hr.range hi.memoryBounded⟩
    case h_2 => cases h
  case h_2 =>
    cases h
    exact ⟨hi.memoryWf, hi.memoryBounded⟩

theorem assertReset_inv {landed : Nat} {s t : State} (hi : Inv s) (h : assertReset landed s = .next t) : Inv t := by
  rcases assertReset_cases landed s with ⟨d, hd, he⟩ | ⟨e, -, he⟩ <;> rw [he] at h <;> cases h
  obtain ⟨hwf, hbounded⟩ := abortedDmem_inv hi hd
  exact resetRegisters_inv hwf hbounded

theorem powerOn_inv (s : State) : Inv (powerOn s) := resetRegisters_inv List.Pairwise.nil (by simp)

/-- Settles O43, along the cases of a step. -/
theorem stepKeepsInv : Obligations.StepKeepsInv := by
  intro s t hi h
  rcases step_cases s with ⟨-, he⟩ | ⟨a, g, rest, -, he⟩ | ⟨gaps, rest, -, he⟩ | ⟨landed, rest, -, he⟩ |
    ⟨rest, -, he⟩ <;> rw [he] at h
  · exact engineStep_inv hi h
  · exact accessStep_inv (inv_with_events hi rest) h
  · exact pollStep_inv (inv_with_events hi rest) h
  · exact assertReset_inv (inv_with_events hi rest) h
  · cases h
    exact powerOn_inv _

/-- Settles O42: the reset state is power-on applied to itself. -/
theorem invAtReset : Obligations.InvAtReset := powerOn_inv State.reset

end Sys2Proof.Machine
end

section
/-! Settling O53: the byte lanes of the registers (10_state.md R20, 20_memory.md R45). `wordBytes` and `wordOfBytes` are
inverse. -/

namespace Sys2Proof.Machine

theorem wordOfBytes_toNat (a b c d : Byte) :
    (wordOfBytes [a, b, c, d]).toNat = a.toNat + 256 * b.toNat + 256 ^ 2 * c.toNat + 256 ^ 3 * d.toNat := by
  simp only [wordOfBytes, List.foldr_cons, List.foldr_nil, BitVec.toNat_ofNat]
  omega

theorem wordOfBytes_wordBytes (w : Word) : wordOfBytes (wordBytes w) = w := by
  apply BitVec.eq_of_toNat_eq
  simp only [wordBytes, wordOfBytes_toNat, BitVec.extractLsb'_toNat, Nat.shiftRight_eq_div_pow]
  omega

theorem wordBytes_wordOfBytes {B : Bytes} (h : B.length = 4) : wordBytes (wordOfBytes B) = B := by
  match B, h with
  | [a, b, c, d], _ =>
    have hn := wordOfBytes_toNat a b c d
    simp only [wordBytes, List.cons.injEq, and_true]
    refine ⟨?_, ?_, ?_, ?_⟩ <;> apply BitVec.eq_of_toNat_eq <;>
      simp only [BitVec.extractLsb'_toNat, Nat.shiftRight_eq_div_pow, hn] <;> omega

theorem quadBytes_quadOfBytes {B : Bytes} (h : B.length = 16) : quadBytes (quadOfBytes B) = B := by
  have hlast : (B.drop 12).take 4 = B.drop 12 := List.take_of_length_le (by simp [h])
  calc quadBytes (quadOfBytes B)
      = B.take 4 ++ ((B.drop 4).take 4 ++ ((B.drop 8).take 4 ++ (B.drop 12).take 4)) := by
        simp [quadBytes, quadOfBytes, slice, wordBytes_wordOfBytes, h]
    _ = B := by
        rw [hlast, take_append_drop_add B 8 4, take_append_drop_add B 4 4, List.take_append_drop]

theorem getElem?_quadBytes (q : QuadRegs) {j : Nat} (h : j / 4 < 4) :
    (quadBytes q)[j]? = some ((q.get ⟨j / 4, h⟩).extractLsb' (8 * (j % 4)) 8) := by
  have hj : j < 16 := by omega
  interval_cases j <;> rfl

theorem getElem?_keyBytes (k : KeyRegs) {n j : Nat} (h : j / 4 < 5) (hn : j < n) :
    (keyBytes k n)[j]? = some ((k.get ⟨j / 4, h⟩).extractLsb' (8 * (j % 4)) 8) := by
  have hj : j < 20 := by omega
  rw [keyBytes, List.getElem?_take_of_lt hn]
  interval_cases j <;> rfl

/-- Settles O53, lane by lane. -/
theorem registerLanes : Obligations.RegisterLanes :=
  ⟨fun k _ _ h hn => getElem?_keyBytes k h hn, fun q _ h => getElem?_quadBytes q h, fun _ => quadBytes_quadOfBytes⟩

end Sys2Proof.Machine
end

section
/-! Host accesses of registers, said once: which register an access reaches, what a read of it answers and what a write of
it leaves (20_memory.md R40, R44, 10_state.md section 5, R32). -/

namespace Sys2Proof.Machine

theorem wordOffset_of_index {a : Access} {n : Nat} (h : a.offset.toNat / 4 = n) : wordOffset a = n * 4 := by
  rw [wordOffset, h]

theorem Reg.offset_injective {r r' : Reg} (h : r.offset = r'.offset) : r = r' :=
  Option.some.inj ((ofOffset_offset r).symm.trans (h ▸ ofOffset_offset r'))

theorem Reg.offset_of_ofOffset {o : Nat} {r : Reg} (h : Reg.ofOffset o = some r) : r.offset = o := by
  unfold Reg.ofOffset at h
  split at h <;> cases h <;> rfl

/-- The registers lie in four blocks of the map (10_state.md section 5). -/
theorem Reg.offset_ranges (r : Reg) : r.offset ≤ 0x010 ∨ (0x020 ≤ r.offset ∧ r.offset ≤ 0x034) ∨
    (0x040 ≤ r.offset ∧ r.offset ≤ 0x050) ∨ (0x060 ≤ r.offset ∧ r.offset ≤ 0x08C) := by
  cases r <;> simp only [Reg.offset] <;> omega

theorem isCommandWrite_iff (a : Access) :
    isCommandWrite a = true ↔ a.kind = .write ∧ wordOffset a = 0x010 ∧ a.strb = 0xF := by
  simp [isCommandWrite, and_assoc]

/-- After an access of `hostStep` the core does not advance. -/
theorem hostStep_read {a : Access} (hk : a.kind = .read) (s : State) : hostStep a s = hostRead (wordOffset a) s := by
  rw [hostStep, accessStep_read hk]
  cases hostRead (wordOffset a) s <;> rfl

theorem hostStep_write {a : Access} (hk : a.kind = .write) (hc : ¬ (wordOffset a = 0x010 ∧ a.strb = 0xF)) (s : State) :
    hostStep a s = .next (hostWrite (wordOffset a) a.wdata a.strb s) := by
  have hfalse : isCommandWrite a = false := by
    rw [← Bool.not_eq_true, isCommandWrite_iff]
    exact fun h => hc h.2
  rw [hostStep, accessStep_write hk hfalse]
  rfl

/-- A read of any register but STATUS changes nothing but what it returns. -/
theorem hostReadReg_eq {r : Reg} (hr : r ≠ .status) (s : State) :
    hostReadReg r s = { s with rdata := readReg r s } := by
  simp [hostReadReg, countDraw, hr]

theorem hostStep_read_register {a : Access} {r : Reg} (hk : a.kind = .read) (ho : wordOffset a = r.offset)
    (hr : r ≠ .status) (s : State) : hostStep a s = .next { s with rdata := readReg r s } := by
  rw [hostStep_read hk, ho, hostRead_register, hostReadReg_eq hr]

theorem hostStep_write_register {a : Access} {r : Reg} {s : State} (hk : a.kind = .write) (ho : wordOffset a = r.offset)
    (hc : r = .cmd → a.strb ≠ 0xF) (hb : s.busy = false) : hostStep a s = .next (writeReg r a.wdata a.strb s) := by
  rw [hostStep_write hk, ho, hostWrite_register _ _ _ hb]
  rintro ⟨h, hs⟩
  exact hc (Reg.offset_injective (ho.symm.trans h : r.offset = Reg.cmd.offset)) hs

theorem mergeStrobes_all (old v : Word) : mergeStrobes old v 0xF = v := wordOfBytes_wordBytes v

theorem KeyRegs.get_set_same (k : KeyRegs) (i : Fin 5) (w : Word) : (k.set i w).get i = w := by
  fin_cases i <;> rfl

theorem KeyRegs.get_set_of_ne (k : KeyRegs) {i m : Fin 5} (h : m ≠ i) (w : Word) : (k.set i w).get m = k.get m := by
  fin_cases i <;> fin_cases m <;> first | rfl | exact absurd rfl h

/-- What the whole of a command leaves a core that was idle: the rejection, or the completion of its sequence. -/
theorem exec_next_cases {i : Instr} {s t : State} (hb : s.busy = false) (h : exec i s = .next t) :
    (check i s ≠ .noError ∧ t = reject (check i s) { s with cmdLast := encode i }) ∨
    (check i s = .noError ∧ ∃ u,
      runOps i.command (opsFor i.command s) (accept i.command { s with cmdLast := encode i }) = .next u ∧
      t = completeCommand i.command u) := by
  rw [exec_eq] at h
  by_cases hc : check i s = .noError
  · rw [runCommand_accepted hb hc, andThen_eq_next] at h
    obtain ⟨u, hu, ht⟩ := h
    cases ht
    exact .inr ⟨hc, u, hu, rfl⟩
  · rw [runCommand_rejected hb hc] at h
    cases h
    exact .inl ⟨hc, rfl⟩

end Sys2Proof.Machine
end

section
/-! The command word (30_encoding.md): a word that decodes is the word of its command, so CMD_LAST of a legal word
is that word. -/

namespace Sys2Proof.Machine

theorem reservedSet_eq_false {w : Word} : reservedSet w = false ↔
    field w 7 1 = 0 ∧ field w 13 3 = 0 ∧ field w 21 3 = 0 ∧ field w 29 3 = 0 := by
  simp [reservedSet, and_assoc]

/-- A word without a reserved bit is made of its five fields (30_encoding.md R58). -/
theorem packWord_fields {w : Word} (h : reservedSet w = false) :
    packWord (opField w) (varField w) (klenField w) (nlenField w) (tlenField w) = w := by
  obtain ⟨h1, h2, h3, h4⟩ := reservedSet_eq_false.mp h
  have hw := w.isLt
  apply BitVec.eq_of_toNat_eq
  simp only [field] at h1 h2 h3 h4
  simp only [packWord, BitVec.toNat_ofNat, opField, varField, klenField, nlenField, tlenField, field]
  omega

theorem encode_of_fixedRow {i j : Instr} {w : Word} {op var : Nat} (h : fixedRow i w = .ok j)
    (hi : encode i = packWord op var 0 0 0) :
    encode j = packWord op var (klenField w) (nlenField w) (tlenField w) := by
  unfold fixedRow at h
  split at h
  · next hlen =>
    obtain ⟨hk, hn, ht⟩ := hlen
    cases h
    rw [hi, hk, hn, ht]
  · cases h

theorem encode_of_freeRow {mk : Nat → Nat → Nat → Instr} {j : Instr} {w : Word} {op var : Nat}
    (h : freeRow mk w = .ok j) (hmk : ∀ k n t, encode (mk k n t) = packWord op var k n t) :
    encode j = packWord op var (klenField w) (nlenField w) (tlenField w) := by
  cases h
  exact hmk _ _ _

theorem encode_of_decodeDigest {w : Word} {i : Instr} (h : decodeDigest w = .ok i) :
    encode i = packWord 1 (varField w) (klenField w) (nlenField w) (tlenField w) := by
  unfold decodeDigest at h
  split at h
  case h_6 => cases h
  all_goals next hvar => rw [hvar]; exact encode_of_fixedRow h rfl

theorem encode_of_decodeEncrypt {w : Word} {i : Instr} (h : decodeEncrypt w = .ok i) :
    encode i = packWord 2 (varField w) (klenField w) (nlenField w) (tlenField w) := by
  unfold decodeEncrypt at h
  split at h
  case h_4 => cases h
  all_goals next hvar => rw [hvar]; exact encode_of_freeRow h fun _ _ _ => rfl

theorem encode_of_decodeDecrypt {w : Word} {i : Instr} (h : decodeDecrypt w = .ok i) :
    encode i = packWord 3 (varField w) (klenField w) (nlenField w) (tlenField w) := by
  unfold decodeDecrypt at h
  split at h
  case h_4 => cases h
  all_goals next hvar => rw [hvar]; exact encode_of_freeRow h fun _ _ _ => rfl

theorem encode_of_decodeWipe {w : Word} {i : Instr} (h : decodeWipe w = .ok i) :
    encode i = packWord 4 (varField w) (klenField w) (nlenField w) (tlenField w) := by
  unfold decodeWipe at h
  split at h
  · next hvar => rw [hvar]; exact encode_of_fixedRow h rfl
  · cases h

/-- Decoding drops no bit of the word (30_encoding.md R66). -/
theorem encode_of_decode {w : Word} {i : Instr} (h : decode w = .ok i) : encode i = w := by
  unfold decode at h
  split at h
  · cases h
  · next hrsv =>
    rw [Bool.not_eq_true] at hrsv
    refine Eq.trans ?_ (packWord_fields hrsv)
    split at h
    case h_1 hop => rw [hop]; exact encode_of_decodeDigest h
    case h_2 hop => rw [hop]; exact encode_of_decodeEncrypt h
    case h_3 hop => rw [hop]; exact encode_of_decodeDecrypt h
    case h_4 hop => rw [hop]; exact encode_of_decodeWipe h
    case h_5 => cases h

end Sys2Proof.Machine
end

section
/-! Settling O22, O23, O25, O26, O28 and O29: the registers ID, PARAM, KEY, STATUS, CMD and CTRL, the reserved offsets and
the interrupt level (10_state.md R22 to R28, R32, R35). -/

namespace Sys2Proof.Machine

/-! ID and PARAM (R22, R23) -/

theorem paramWord_fields (s : State) : 2 ^ ((paramWord s).extractLsb' 0 5).toNat = s.dmemSize.bytes ∧
    (paramWord s).extractLsb' 5 27 = 0 ∧ 8 ≤ (paramWord s).toNat ∧ (paramWord s).toNat ≤ 15 := by
  unfold paramWord
  cases s.dmemSize <;> decide

/-- Settles O22. -/
theorem idAndParamAreConstant : Obligations.IdAndParamAreConstant := by
  intro s a
  refine ⟨fun hk ho => ?_, fun hk ho => ?_, fun hk ho hb => ?_⟩
  · exact hostStep_read_register (r := .id) hk (wordOffset_of_index ho) nofun s
  · exact ⟨paramWord s, hostStep_read_register (r := .param) hk (wordOffset_of_index ho) nofun s, paramWord_fields s⟩
  · have ho' : a.offset.toNat / 4 = 0 ∨ a.offset.toNat / 4 = 1 := by omega
    rcases ho' with ho | ho
    · exact hostStep_write_register (r := .id) hk (wordOffset_of_index ho) nofun hb
    · exact hostStep_write_register (r := .param) hk (wordOffset_of_index ho) nofun hb

/-! KEY0..KEY4 (R28) -/

theorem completedKey_of_not_digest {c : Command} (hc : ∀ v, c ≠ .digest v) (s : State) :
    completedKey c s = KeyRegs.zero := by
  cases c with
  | digest v => exact absurd rfl (hc v)
  | _ => rfl

/-- Settles O23. -/
theorem keyRegistersAreWriteOnly : Obligations.KeyRegistersAreWriteOnly := by
  refine ⟨fun s a k ho => ?_, rfl, fun i s t hb h hdigest => ?_⟩
  · have ho' : wordOffset a = (Reg.key k).offset := by
      rw [wordOffset_of_index ho, Reg.offset]
      omega
    refine ⟨fun hk => hostStep_read_register hk ho' nofun s, fun hk hs hb => ?_⟩
    refine ⟨_, hostStep_write_register hk ho' nofun hb, ?_, fun m hm => KeyRegs.get_set_of_ne _ hm _⟩
    rw [hs, writeReg, KeyRegs.get_set_same, mergeStrobes_all]
  · rcases exec_next_cases hb h with ⟨hc, rfl⟩ | ⟨hc, u, -, rfl⟩
    · exact ⟨fun h => absurd h hc, fun _ => rfl⟩
    · exact ⟨fun _ => completedKey_of_not_digest hdigest u, fun h => absurd hc h⟩

/-! Reserved offsets (R32) -/

theorem hostStep_reserved {a : Access} {s : State} (hw : inWindow s (wordOffset a) = false)
    (ho : Reg.ofOffset (wordOffset a) = none) :
    (a.kind = .read → hostStep a s = .next { s with rdata := 0 }) ∧
    (a.kind = .write → s.busy = false → hostStep a s = .next s) ∧
    (a.kind = .write → s.busy = true → hostStep a s = .next { s with busyErr := true }) := by
  have hcmd : ¬ (wordOffset a = 0x010 ∧ a.strb = 0xF) := by
    rintro ⟨h, -⟩
    rw [h] at ho
    cases ho
  refine ⟨fun hk => ?_, fun hk hb => ?_, fun hk hb => ?_⟩
  · rw [hostStep_read hk]
    simp [hostRead, hw, ho]
  · rw [hostStep_write hk hcmd]
    simp [hostWrite, hb, hw, ho]
  · rw [hostStep_write hk hcmd]
    simp [hostWrite, hb, dropWrite]

/-- Settles O25: no register's offset is in a gap of the map, and DMEM_BYTES is a multiple of 4. -/
theorem reservedOffsets : Obligations.ReservedOffsets := by
  intro s a hgap
  have hbytes := dmemBytes_multiple s.dmemSize
  apply hostStep_reserved
  · rw [← Bool.not_eq_true, inWindow_iff, wordOffset]
    omega
  · rw [Option.eq_none_iff_forall_ne_some]
    intro r hr
    have hoff := Reg.offset_of_ofOffset hr
    have hranges := r.offset_ranges
    rw [wordOffset] at hoff
    omega

/-! STATUS (R25) -/

/-- Settles O26. -/
theorem statusWriteOneToClear : Obligations.StatusWriteOneToClear := by
  intro s a hk ho hb
  rw [hostStep_write_register (r := .status) hk (wordOffset_of_index ho) nofun hb, writeReg, writeStatus]
  cases a.strb.getLsbD 0 <;> simp

/-! CMD (R26) -/

theorem issue_cmdLast (i : Instr) (s : State) : (issue i s).cmdLast = encode i := by
  by_cases hc : check i s = .noError
  · rw [issue_accepted hc, accept_cmdLast]
  · rw [issue_rejected hc, reject_cmdLast]

theorem hostStep_command {a : Access} {s : State} (hk : a.kind = .write) (ho : wordOffset a = 0x010) (hs : a.strb = 0xF)
    (hb : s.busy = false) :
    hostStep a s = .next (match decode a.wdata with | .ok i => issue i s | .error _ => issueIllegal a.wdata s) := by
  rw [hostStep, accessStep_command ((isCommandWrite_iff a).mpr ⟨hk, ho, hs⟩) hb]
  cases hd : decode a.wdata with
  | ok i => rw [commandAccess_ok hd hb]; rfl
  | error e => rw [commandAccess_error hd]

/-- Settles O28. -/
theorem cmdRegister : Obligations.CmdRegister := by
  refine ⟨fun s a ho => ?_, rfl⟩
  have ho' : wordOffset a = Reg.cmd.offset := wordOffset_of_index ho
  refine ⟨fun hk => hostStep_read_register hk ho' nofun s,
    fun hk hb hs => hostStep_write_register hk ho' (fun _ => hs) hb,
    fun hk hb hs => ⟨_, hostStep_command hk ho' hs hb, ?_, rfl⟩⟩
  cases hd : decode a.wdata with
  | ok i => exact (issue_cmdLast i s).trans (encode_of_decode hd)
  | error e => rfl

/-! CTRL and the interrupt (R24, R35) -/

theorem runOps_irqEn {c : Command} {ops : List SeqOp} {s t : State} (h : runOps c ops s = .next t) :
    t.irqEn = s.irqEn := by
  rw [runOps_frame h]

theorem ctrlWord_eq (s : State) : ctrlWord s = if s.irqEn then 1 else 0 := by
  unfold ctrlWord
  cases s.irqEn <;> rfl

theorem writeCtrl_eq (v : Word) (strb : BitVec 4) (s : State) :
    writeCtrl v strb s = { s with irqEn := if strb.getLsbD 0 then v.getLsbD 0 else s.irqEn } := by
  unfold writeCtrl
  split <;> rfl

/-- A command ends, in completion or in rejection, with DONE = 1 and IRQ_EN as it was (R35). -/
theorem irqOutput_exec {i : Instr} {s t : State} (hb : s.busy = false) (h : exec i s = .next t) :
    irqOutput t = s.irqEn := by
  rcases exec_next_cases hb h with ⟨-, rfl⟩ | ⟨-, u, hu, rfl⟩
  · simp [irqOutput]
  · simp [irqOutput, runOps_irqEn hu]

/-- Settles O29. -/
theorem interruptFollowsDone : Obligations.InterruptFollowsDone := by
  refine ⟨fun s a ho => ⟨fun hk => ?_, fun hk hb => ?_⟩, fun i s t hb h => irqOutput_exec hb h, fun i s hc => ?_,
    fun s a hk ho hb hs hv => ⟨_, statusWriteOneToClear s a hk ho hb, ?_⟩, fun _ => rfl, rfl, rfl⟩
  · rw [hostStep_read_register (r := .ctrl) hk (wordOffset_of_index ho) nofun, readReg, ctrlWord_eq]
  · rw [hostStep_write_register (r := .ctrl) hk (wordOffset_of_index ho) nofun hb, writeReg, writeCtrl_eq]
  · simp [issue_accepted hc, irqOutput]
  · simp [irqOutput, hs, hv]

end Sys2Proof.Machine
end

section
/-! Settling O27 and O35: what a read of STATUS returns (10_state.md R25, R34), and that no read depends on the state that
the host cannot see (R17, R28, R33). -/

namespace Sys2Proof.Machine

/-! The fields of STATUS -/

theorem ErrCode.code_le (e : ErrCode) : e.code ≤ 6 := by cases e <;> decide

theorem Phase.code_le (p : Phase) : p.code ≤ 14 := by cases p <;> decide

/-- Every field of STATUS fits its bits (R25). -/
theorem statusFields_le (s : State) (p : Phase) : s.busy.toNat ≤ 1 ∧ s.done.toNat ≤ 1 ∧ s.authOk.toNat ≤ 1 ∧
    s.busyErr.toNat ≤ 1 ∧ s.err.code ≤ 6 ∧ p.code ≤ 14 :=
  ⟨s.busy.toNat_le, s.done.toNat_le, s.authOk.toNat_le, s.busyErr.toNat_le, s.err.code_le, p.code_le⟩

theorem statusWord_toNat (s : State) (p : Phase) : (statusWord s p).toNat =
    s.busy.toNat + 2 * s.done.toNat + 4 * s.authOk.toNat + 8 * s.busyErr.toNat + 16 * s.err.code + 256 * p.code := by
  have := statusFields_le s p
  rw [statusWord, BitVec.toNat_ofNat]
  omega

theorem getLsbD_eq_of_toNat {w : Word} {i : Nat} {b : Bool} (h : w.toNat / 2 ^ i % 2 = b.toNat) : w.getLsbD i = b := by
  rw [BitVec.getLsbD, Nat.testBit_eq_decide_div_mod_eq, h]
  cases b <;> rfl

/-- The bits of STATUS (R25). -/
theorem statusWord_fields (s : State) (p : Phase) :
    (statusWord s p).getLsbD 0 = s.busy ∧ (statusWord s p).getLsbD 1 = s.done ∧ (statusWord s p).getLsbD 2 = s.authOk ∧
    (statusWord s p).getLsbD 3 = s.busyErr ∧ ((statusWord s p).extractLsb' 4 4).toNat = s.err.code ∧
    ((statusWord s p).extractLsb' 8 4).toNat = p.code ∧ (statusWord s p).extractLsb' 12 20 = 0 := by
  have := statusFields_le s p
  have hn := statusWord_toNat s p
  refine ⟨getLsbD_eq_of_toNat ?_, statusWord_done s p, getLsbD_eq_of_toNat ?_, getLsbD_eq_of_toNat ?_, ?_, ?_,
    BitVec.eq_of_toNat_eq (y := 0#20) ?_⟩
  all_goals
    simp only [BitVec.extractLsb'_toNat, Nat.shiftRight_eq_div_pow, BitVec.toNat_zero, hn]
    omega

theorem visiblePhase_idle {s : State} (hb : s.busy = false) : visiblePhase s = s.phase := by
  simp [visiblePhase, hb]

/-- While a command runs the draw is one of its family's running phases, whatever the free value (R34). -/
theorem visiblePhase_mem {s : State} {c : Command} (hb : s.busy = true) (hc : s.cur = some c) :
    visiblePhase s ∈ runningPhases c := by
  have hpos : 0 < (runningPhases c).length := by cases c <;> exact Nat.succ_pos _
  simp only [visiblePhase, hb, hc, List.getD_eq_getElem _ _ (Nat.mod_lt (Config.freePhase s.freeCount) hpos)]
  exact List.getElem_mem _

theorem hostReadReg_frame (r : Reg) (s : State) :
    hostReadReg r s = { s with rdata := readReg r s, freeCount := (hostReadReg r s).freeCount } := by
  unfold hostReadReg countDraw
  split <;> rfl

/-- Settles O27. -/
theorem statusReadLayout : Obligations.StatusReadLayout := by
  intro s a hk ho
  obtain ⟨hbusy, hdone, hauth, hberr, herr, hphase, hzero⟩ := statusWord_fields s (visiblePhase s)
  refine ⟨hostReadReg .status s, visiblePhase s, ?_, hostReadReg_frame .status s, hbusy, hdone, hauth, hberr, herr,
    s.err.code_le, hphase, (visiblePhase s).code_le, hzero, visiblePhase_idle, fun hb c hc => ?_⟩
  · rw [hostStep_read hk, wordOffset_of_index ho]
    exact hostRead_register .status s
  · have hmem := visiblePhase_mem hb hc
    cases c <;> exact hmem

/-! What no read shows -/

/-- The state the host cannot read (R17, R28, R33), with other values in it. -/
def withHidden (x : PState) (key : KeyRegs) (tCalc : Option Bytes) (ok : Option Bool) (seq : List SeqOp) (s : State) :
    State :=
  { s with x := x, key := key, tCalc := tCalc, ok := ok, seq := seq }

section
variable (x : PState) (key : KeyRegs) (tCalc : Option Bytes) (ok : Option Bool) (seq : List SeqOp) (s : State)

theorem readReg_withHidden (r : Reg) : readReg r (withHidden x key tCalc ok seq s) = readReg r s := by
  cases r <;> rfl

theorem hostReadReg_withHidden (r : Reg) :
    hostReadReg r (withHidden x key tCalc ok seq s) = withHidden x key tCalc ok seq (hostReadReg r s) := by
  have hdraw : countDraw r (withHidden x key tCalc ok seq s) = withHidden x key tCalc ok seq (countDraw r s) := by
    unfold countDraw
    rw [show (withHidden x key tCalc ok seq s).busy = s.busy from rfl]
    split <;> rfl
  rw [hostReadReg, readReg_withHidden, hdraw]
  rfl

theorem hostReadDmem_withHidden (a : Nat) : hostReadDmem a (withHidden x key tCalc ok seq s) =
    mapNext (withHidden x key tCalc ok seq) (hostReadDmem a s) := by
  unfold hostReadDmem
  rw [show (withHidden x key tCalc ok seq s).busy = s.busy from rfl,
    show (withHidden x key tCalc ok seq s).dmem = s.dmem from rfl]
  cases s.busy with
  | true => rfl
  | false => cases Memory.readBytes s.dmem a 4 <;> rfl

theorem hostRead_withHidden (o : Nat) : hostRead o (withHidden x key tCalc ok seq s) =
    mapNext (withHidden x key tCalc ok seq) (hostRead o s) := by
  unfold hostRead
  rw [show inWindow (withHidden x key tCalc ok seq s) o = inWindow s o from rfl, hostReadDmem_withHidden]
  split
  · rfl
  · cases Reg.ofOffset o with
    | none => rfl
    | some r => exact congrArg Host.Outcome.next (hostReadReg_withHidden x key tCalc ok seq s r)

end

/-- Settles O35. -/
theorem readsHideInternalState : Obligations.ReadsHideInternalState := by
  intro s a x key tCalc ok seq hk
  rw [hostStep_read hk, hostStep_read hk]
  exact hostRead_withHidden x key tCalc ok seq s (wordOffset a)

end Sys2Proof.Machine
end

section
/-! Settling O21: a command gives the same outcome with other values in the registers it ignores (10_state.md R19, R20).
Such a change of registers commutes with every part of a command that does not read them, and so with the whole command. -/

namespace Sys2Proof.Machine

/-- A change of operand registers, each on its own; those not named keep their values. -/
structure OperandChange where
  aAddr : Word → Word := id
  aLen : Word → Word := id
  outLen : Word → Word := id
  key : KeyRegs → KeyRegs := id
  nonce : QuadRegs → QuadRegs := id
  tagIn : QuadRegs → QuadRegs := id

/-- The state with its operand registers changed. -/
def OperandChange.apply (f : OperandChange) (s : State) : State :=
  { s with
    aAddr := f.aAddr s.aAddr, aLen := f.aLen s.aLen, outLen := f.outLen s.outLen, key := f.key s.key,
    nonce := f.nonce s.nonce, tagIn := f.tagIn s.tagIn }

/-- The instruction reads none of the registers that f changes: not in its checks, its sequence, a position of that
sequence, or its completion (R19). -/
structure OperandChange.IgnoredBy (f : OperandChange) (i : Instr) : Prop where
  check : ∀ s, Machine.check i (f.apply s) = Machine.check i s
  opsFor : ∀ s, Machine.opsFor i.command (f.apply s) = Machine.opsFor i.command s
  opEffect : ∀ s, ∀ op ∈ Machine.opsFor i.command s, Machine.opEffect i.command op (f.apply s) =
    Machine.opEffect i.command op s
  complete : ∀ s, completeCommand i.command (f.apply s) = f.apply (completeCommand i.command s)

theorem accept_ignored {i : Instr} {f : OperandChange} (h : f.IgnoredBy i) (s : State) :
    accept i.command (f.apply s) = f.apply (accept i.command s) := by
  simp only [accept, h.opsFor]
  rfl

theorem runOps_ignored {i : Instr} {f : OperandChange} (h : f.IgnoredBy i) {ops : List SeqOp} {s : State}
    (hops : ∀ op ∈ ops, op ∈ opsFor i.command s) :
    runOps i.command ops (f.apply s) = mapNext f.apply (runOps i.command ops s) := by
  induction ops generalizing s with
  | nil => rfl
  | cons op rest ih =>
    have hop := h.opEffect s op (hops op (by simp))
    cases he : opEffect i.command op s with
    | error a =>
      rw [runOps_cons_error he, runOps_cons_error (hop.trans he)]
      rfl
    | ok e =>
      rw [runOps_cons_ok he, runOps_cons_ok (hop.trans he)]
      have hseq : opsFor i.command (applyEffect op rest e s) = opsFor i.command s := opsFor_congr rfl rfl rfl
      exact ih (s := applyEffect op rest e s) fun o ho => hseq ▸ hops o (by simp [ho])

/-- A change of registers that the instruction ignores passes through its whole meaning. -/
theorem exec_ignored {i : Instr} {f : OperandChange} (h : f.IgnoredBy i) (s : State) :
    exec i (f.apply s) = mapNext f.apply (exec i s) := by
  have hcheck := h.check s
  rw [exec_eq, exec_eq]
  rcases runCommand_cases i s with ⟨hb, he⟩ | ⟨hb, hc, he⟩ | ⟨hb, hc, he⟩ <;> rw [he]
  · exact runCommand_busy hb
  · rw [runCommand_rejected (s := f.apply s) hb (hcheck.symm ▸ hc), hcheck]
    rfl
  · have hacc : accept i.command { f.apply s with cmdLast := encode i } =
        f.apply (accept i.command { s with cmdLast := encode i }) := accept_ignored h { s with cmdLast := encode i }
    have hrun := runOps_ignored h (ops := opsFor i.command s) (s := accept i.command { s with cmdLast := encode i })
      fun op hop => (opsFor_congr rfl rfl rfl : opsFor i.command (accept i.command _) = opsFor i.command s) ▸ hop
    rw [runCommand_accepted (s := f.apply s) hb (hcheck.trans hc), h.opsFor, hacc, hrun]
    simp only [mapNext, andThen_assoc, andThen_next, h.complete]

/-! The ignored registers of each row (R19) -/

/-- Only CXOF has positions that read A_ADDR or A_LEN (41_sponge.md R84). -/
theorem not_custom_of_mem {v : SpongeVariant} {op : SeqOp} {s : State} (hv : v ≠ .cxof)
    (h : op ∈ opsFor (.digest v) s) : op ≠ .spAbsorbLength ∧ ∀ j, op ≠ .spAbsorbCustom j := by
  simp only [opsFor, digestSequence, if_neg hv, List.append_nil, List.mem_append, List.mem_map, List.mem_singleton] at h
  rcases h with (rfl | ⟨j, -, rfl⟩) | ⟨j, -, rfl⟩ <;> exact ⟨nofun, nofun⟩

/-- Of these registers, a position of a DIGEST command other than CXOF reads OUT_LEN alone. -/
theorem digestEffect_ignored {v : SpongeVariant} {op : SeqOp} {f : OperandChange} {s : State} (hv : v ≠ .cxof)
    (hlen : digestLen v (f.apply s) = digestLen v s) (hop : op ∈ opsFor (.digest v) s) :
    digestEffect v op (f.apply s) = digestEffect v op s := by
  obtain ⟨hlength, hcustom⟩ := not_custom_of_mem hv hop
  cases op with
  | spAbsorbLength => exact absurd rfl hlength
  | spAbsorbCustom j => exact absurd rfl (hcustom j)
  | spSqueeze j =>
    simp only [digestEffect, squeezeEffect, hlen]
    rfl
  | _ => rfl

section
variable (aAddr aLen outLen : Word) (key : KeyRegs) (nonce tagIn : QuadRegs)

/-- The operands HASH and HASHA ignore. -/
def hashIgnored : OperandChange :=
  { aAddr := fun _ => aAddr, aLen := fun _ => aLen, outLen := fun _ => outLen, key := fun _ => key,
    nonce := fun _ => nonce, tagIn := fun _ => tagIn }

/-- The operands XOF and XOFA ignore. -/
def xofIgnored : OperandChange :=
  { aAddr := fun _ => aAddr, aLen := fun _ => aLen, key := fun _ => key, nonce := fun _ => nonce,
    tagIn := fun _ => tagIn }

/-- The operands CXOF ignores. -/
def cxofIgnored : OperandChange := { key := fun _ => key, nonce := fun _ => nonce, tagIn := fun _ => tagIn }

/-- The operands ENC ignores. -/
def encIgnored : OperandChange := { outLen := fun _ => outLen, tagIn := fun _ => tagIn }

/-- The operands DEC ignores. -/
def decIgnored : OperandChange := { outLen := fun _ => outLen }

theorem hash_ignores : (hashIgnored aAddr aLen outLen key nonce tagIn).IgnoredBy .hash :=
  ⟨fun _ => rfl, fun _ => rfl, fun _ _ => digestEffect_ignored nofun rfl, fun _ => rfl⟩

theorem hasha_ignores : (hashIgnored aAddr aLen outLen key nonce tagIn).IgnoredBy .hasha :=
  ⟨fun _ => rfl, fun _ => rfl, fun _ _ => digestEffect_ignored nofun rfl, fun _ => rfl⟩

theorem xof_ignores : (xofIgnored aAddr aLen key nonce tagIn).IgnoredBy .xof :=
  ⟨fun _ => rfl, fun _ => rfl, fun _ _ => digestEffect_ignored nofun rfl, fun _ => rfl⟩

theorem xofa_ignores : (xofIgnored aAddr aLen key nonce tagIn).IgnoredBy .xofa :=
  ⟨fun _ => rfl, fun _ => rfl, fun _ _ => digestEffect_ignored nofun rfl, fun _ => rfl⟩

theorem cxof_ignores : (cxofIgnored key nonce tagIn).IgnoredBy .cxof where
  check _ := rfl
  opsFor _ := rfl
  opEffect _ op _ := by cases op <;> rfl
  complete _ := rfl

theorem enc_ignores (v : DuplexVariant) (k n l : Nat) : (encIgnored outLen tagIn).IgnoredBy (encInstr v k n l) where
  check _ := by cases v <;> rfl
  opsFor _ := by cases v <;> rfl
  opEffect _ op _ := by cases v <;> cases op <;> rfl
  complete _ := by cases v <;> rfl

theorem decEffect_ignored (v : DuplexVariant) (op : SeqOp) (s : State) :
    decEffect v op ((decIgnored outLen).apply s) = decEffect v op s := by
  cases op with
  | dxText p j => cases p <;> rfl
  | _ => rfl

theorem dec_ignores (v : DuplexVariant) (k n l : Nat) : (decIgnored outLen).IgnoredBy (decInstr v k n l) where
  check _ := by cases v <;> rfl
  opsFor _ := by cases v <;> rfl
  opEffect s op _ := by cases v <;> exact decEffect_ignored outLen _ op s
  complete _ := by cases v <;> rfl

end

/-- The first 16 key bytes are those of KEY0..KEY3 (R20). -/
theorem keyOperand_key4 {v : DuplexVariant} (hv : v ≠ .aead80pq) (s : State) (w : Word) :
    keyOperand v { s with key := { s.key with k4 := w } } = keyOperand v s := by
  cases v with
  | aead80pq => exact absurd rfl hv
  | _ => rfl

/-- Settles O21. -/
theorem ignoredOperandsDoNotMatter : Obligations.IgnoredOperandsDoNotMatter := by
  intro s aAddr aLen outLen key nonce tagIn
  refine ⟨?_, ?_, exec_ignored (cxof_ignores key nonce tagIn) s,
    fun v k n l => exec_ignored (enc_ignores outLen tagIn v k n l) s,
    fun v k n l => exec_ignored (dec_ignores outLen v k n l) s, fun v A D hv => ?_⟩
  · rintro i (rfl | rfl)
    · exact exec_ignored (hash_ignores aAddr aLen outLen key nonce tagIn) s
    · exact exec_ignored (hasha_ignores aAddr aLen outLen key nonce tagIn) s
  · rintro i (rfl | rfl)
    · exact exec_ignored (xof_ignores aAddr aLen key nonce tagIn) s
    · exact exec_ignored (xofa_ignores aAddr aLen key nonce tagIn) s
  · rw [encryptOf, decryptOf, keyOperand_key4 hv]
    exact ⟨rfl, rfl⟩

end Sys2Proof.Machine
end

section
/-! Settling O51: which words of the state a block of the rate touches (10_state.md R15, R16, 41_sponge.md R85, 42_duplex.md
R99, R100). `xorAt` and `setAt` are read off the 40 bytes that `ser` gives, and `deser_ser` takes them back to the words. -/

namespace Sys2Proof.Machine

/-! XOR of byte strings -/

theorem xorBytes_append {A A' : Bytes} (h : A.length = A'.length) (B B' : Bytes) :
    xorBytes (A ++ B) (A' ++ B') = xorBytes A A' ++ xorBytes B B' := List.zipWith_append h

theorem xorBytes_zeros (A : Bytes) : xorBytes A (zeros A.length) = A := by
  induction A with
  | nil => rfl
  | cons a A ih =>
    have ha : a ^^^ 0 = a := BitVec.xor_zero
    exact congrArg₂ List.cons ha ih

/-- XOR with one byte among zeros changes the byte in its place. -/
theorem xorBytes_mark (B T : Bytes) (b m : Byte) :
    xorBytes (B ++ b :: T) (zeros B.length ++ [m] ++ zeros T.length) = B ++ (b ^^^ m) :: T := by
  rw [List.append_assoc, xorBytes_append (by simp), xorBytes_zeros]
  exact congrArg (B ++ _ :: ·) (xorBytes_zeros T)

theorem byteOf_xor (v w : Lane) (j : Nat) : byteOf (v ^^^ w) j = byteOf v j ^^^ byteOf w j := BitVec.extractLsb'_xor

theorem store64_xor (P : Profile) (v w : Lane) : store64 P (v ^^^ w) = xorBytes (store64 P v) (store64 P w) := by
  cases P <;> simp [store64, store64BE, store64LE, xorBytes, byteOf_xor]

theorem xorBytes_store64 (P : Profile) (w : Lane) {B : Bytes} (h : B.length = 8) :
    xorBytes (store64 P w) B = store64 P (w ^^^ load64 P B) := by
  rw [store64_xor, store64_load64 P h]

/-! The state as the bytes of x[0], of x[1] and the rest -/

/-- The bytes after those of x[0] and x[1]. -/
def capacityBytes (P : Profile) (x : PState) : Bytes := store64 P x.x2 ++ (store64 P x.x3 ++ store64 P x.x4)

theorem capacityBytes_length (P : Profile) (x : PState) : (capacityBytes P x).length = 24 := by simp [capacityBytes]

theorem ser_eq (P : Profile) (x : PState) : ser P x = store64 P x.x0 ++ (store64 P x.x1 ++ capacityBytes P x) := by
  simp [ser, capacityBytes]

theorem deser_eq_of_ser {P : Profile} {B : Bytes} {y : PState} (h : B = ser P y) : deser P B = y := h ▸ deser_ser P y

theorem xorAt_zero_word (P : Profile) (x : PState) {B : Bytes} (h : B.length = 8) :
    xorAt P x 0 B = { x with x0 := x.x0 ^^^ load64 P B } := by
  apply deser_eq_of_ser
  have hrest : (store64 P x.x1 ++ capacityBytes P x).length = 40 - 0 - B.length := by simp [capacityBytes_length, h]
  rw [ser_eq, ser_eq, zeros, List.replicate_zero, List.nil_append, xorBytes_append (by simp [h]), ← hrest,
    xorBytes_zeros, xorBytes_store64 P _ h]
  rfl

theorem xorAt_zero_words (P : Profile) (x : PState) {B C : Bytes} (hB : B.length = 8) (hC : C.length = 8) :
    xorAt P x 0 (B ++ C) = { x with x0 := x.x0 ^^^ load64 P B, x1 := x.x1 ^^^ load64 P C } := by
  apply deser_eq_of_ser
  have hrest : (capacityBytes P x).length = 40 - 0 - (B ++ C).length := by simp [capacityBytes_length, hB, hC]
  rw [ser_eq, ser_eq, zeros, List.replicate_zero, List.nil_append, List.append_assoc, xorBytes_append (by simp [hB]),
    xorBytes_append (by simp [hC]), ← hrest, xorBytes_zeros, xorBytes_store64 P _ hB, xorBytes_store64 P _ hC]
  rfl

theorem setAt_zero_word (P : Profile) (x : PState) {B : Bytes} (h : B.length = 8) :
    setAt P x 0 B = { x with x0 := load64 P B } := by
  apply deser_eq_of_ser
  rw [ser_eq, ser_eq, List.take_zero, List.nil_append, Nat.zero_add, store64_load64 P h, List.drop_left' (by simp [h])]
  rfl

theorem setAt_zero_words (P : Profile) (x : PState) {B C : Bytes} (hB : B.length = 8) (hC : C.length = 8) :
    setAt P x 0 (B ++ C) = { x with x0 := load64 P B, x1 := load64 P C } := by
  apply deser_eq_of_ser
  rw [ser_eq, ser_eq, List.take_zero, List.nil_append, Nat.zero_add, store64_load64 P hB, store64_load64 P hC,
    List.append_assoc, ← List.append_assoc (store64 P x.x0), List.drop_left' (by simp [hB, hC])]
  rfl

/-! A final partial block (42_duplex.md R99) -/

/-- What the state's bytes are after a partial block and its marker: the block, the marked byte, the old rest. -/
theorem ser_partial_block (P : Profile) (x : PState) {B : Bytes} (h : B.length < 40) :
    ser P (xorAt P (setAt P x 0 B) B.length [0x80]) =
      B ++ ((ser P x).getD B.length 0 ^^^ 0x80) :: (ser P x).drop (B.length + 1) := by
  have hset : ser P (setAt P x 0 B) = B ++ (ser P x).drop B.length := by
    rw [setAt, ser_deser P (by simp; omega), List.take_zero, List.nil_append, Nat.zero_add]
  have hbyte : (ser P x).drop B.length = (ser P x).getD B.length 0 :: (ser P x).drop (B.length + 1) := by
    rw [List.getD_eq_getElem _ _ (by simpa using h), List.drop_eq_getElem_cons]
  have hrest : 40 - B.length - [(0x80 : Byte)].length = ((ser P x).drop (B.length + 1)).length := by simp; omega
  rw [xorAt, hset, hbyte, hrest, xorBytes_mark, ser_deser P (by simp; omega)]

/-- The bytes after the marked one are the old ones. -/
theorem drop_ser_partial_block (P : Profile) (x : PState) {B : Bytes} {k : Nat} (hB : B.length < k) (hk : k ≤ 40) :
    (ser P (xorAt P (setAt P x 0 B) B.length [0x80])).drop k = (ser P x).drop k := by
  rw [ser_partial_block P x (by omega), List.append_cons, List.drop_append, List.drop_eq_nil_of_le (by simp; omega),
    List.nil_append, List.drop_drop]
  congr 1
  simp only [List.length_append, List.length_cons, List.length_nil]
  omega

theorem store64_injective {P : Profile} {v w : Lane} (h : store64 P v = store64 P w) : v = w := by
  rw [← load64_store64 P v, h, load64_store64]

theorem capacityBytes_eq {P : Profile} {x y : PState} (h : capacityBytes P y = capacityBytes P x) :
    y = { x with x0 := y.x0, x1 := y.x1 } := by
  obtain ⟨h2, h34⟩ := List.append_inj h (by simp)
  obtain ⟨h3, h4⟩ := List.append_inj h34 (by simp)
  rw [← store64_injective h2, ← store64_injective h3, ← store64_injective h4]

/-- States whose bytes from 16 on agree differ in x[0] and x[1] only. -/
theorem eq_of_drop_sixteen {P : Profile} {x y : PState} (h : (ser P y).drop 16 = (ser P x).drop 16) :
    y = { x with x0 := y.x0, x1 := y.x1 } := by
  rw [ser_eq, ser_eq, ← List.append_assoc, ← List.append_assoc, List.drop_left' (by simp),
    List.drop_left' (by simp)] at h
  exact capacityBytes_eq h

/-- States whose bytes from 8 on agree differ in x[0] only. -/
theorem eq_of_drop_eight {P : Profile} {x y : PState} (h : (ser P y).drop 8 = (ser P x).drop 8) :
    y = { x with x0 := y.x0 } := by
  rw [ser_eq, ser_eq, List.drop_left' (by simp), List.drop_left' (by simp)] at h
  obtain ⟨h1, hrest⟩ := List.append_inj h (by simp)
  rw [← store64_injective h1]
  exact capacityBytes_eq hrest

theorem absorbCipher_partial {v : DuplexVariant} {c : Bytes} (h : c.length < (duplexConfig v).rate) (x : PState) :
    absorbCipher v x c = xorAt .be (setAt .be x 0 c) c.length [0x80] := by
  rw [absorbCipher, if_pos h]

/-- Settles O51. -/
theorem rateBlocksTouchRateWordsOnly : Obligations.RateBlocksTouchRateWordsOnly := by
  refine ⟨fun P x B => ⟨fun h => ⟨xorAt_zero_word P x h, setAt_zero_word P x h⟩, fun h => ?_⟩, ?_, fun v x B h => ?_⟩
  · have h8 : (B.take 8).length = 8 := by simp [h]
    have h8' : (B.drop 8).length = 8 := by simp [h]
    have hxor := xorAt_zero_words P x h8 h8'
    have hset := setAt_zero_words P x h8 h8'
    rw [List.take_append_drop] at hxor hset
    exact ⟨hxor, hset⟩
  · rintro P x y B rfl
    refine ⟨fun h => eq_of_drop_eight (drop_ser_partial_block P x h (by decide)), fun h => ⟨?_, ?_⟩⟩
    · exact eq_of_drop_sixteen (drop_ser_partial_block P x h (by decide))
    · exact ser_partial_block P x (by omega)
  · refine absorbCipher_partial (h.trans_eq ?_) x
    cases v <;> rfl

end Sys2Proof.Machine
end

section
/-! Settling O24: strobed writes and whole reads of the operand registers, and TAG_OUT (10_state.md R27 to R31, 20_memory.md
R44). -/

namespace Sys2Proof.Machine

/-! What a write of a register merges -/

theorem getElem?_wordBytes (w : Word) {j : Nat} (h : j < 4) : (wordBytes w)[j]? = some (w.extractLsb' (8 * j) 8) := by
  interval_cases j <;> rfl

/-- Each byte of a strobed write is the written one or the old one (R44). -/
theorem mergeStrobes_byte (old v : Word) (strb : BitVec 4) {j : Nat} (h : j < 4) :
    (mergeStrobes old v strb).extractLsb' (8 * j) 8 =
      if strb.getLsbD j then v.extractLsb' (8 * j) 8 else old.extractLsb' (8 * j) 8 := by
  apply Option.some.inj
  rw [← getElem?_wordBytes _ h, mergeStrobes, wordBytes_wordOfBytes (by simp), List.getElem?_map, List.getElem?_range h,
    Option.map_some]

theorem QuadRegs.get_set_same (q : QuadRegs) (i : Fin 4) (w : Word) : (q.set i w).get i = w := by
  fin_cases i <;> rfl

theorem QuadRegs.get_set_of_ne (q : QuadRegs) {i m : Fin 4} (h : m ≠ i) (w : Word) : (q.set i w).get m = q.get m := by
  fin_cases i <;> fin_cases m <;> first | rfl | exact absurd rfl h

/-! A write of an operand register -/

section
variable {s : State} {r : Reg} {w : Word}

theorem operand_writeReg_same (h : r.operand s = some w) (v : Word) (strb : BitVec 4) :
    r.operand (writeReg r v strb s) = some (mergeStrobes w v strb) := by
  cases r with
  | key i => cases h; exact congrArg some (KeyRegs.get_set_same _ i _)
  | nonce i => cases h; exact congrArg some (QuadRegs.get_set_same _ i _)
  | tagIn i => cases h; exact congrArg some (QuadRegs.get_set_same _ i _)
  | _ => cases h <;> rfl

theorem operand_writeReg_of_ne (h : r.operand s = some w) (v : Word) (strb : BitVec 4) {r' : Reg} (hne : r' ≠ r) :
    r'.operand (writeReg r v strb s) = r'.operand s := by
  cases r with
  | key i =>
    cases r' with
    | key m => exact congrArg some (KeyRegs.get_set_of_ne _ (fun he => hne (congrArg Reg.key he)) _)
    | _ => rfl
  | nonce i =>
    cases r' with
    | nonce m => exact congrArg some (QuadRegs.get_set_of_ne _ (fun he => hne (congrArg Reg.nonce he)) _)
    | _ => rfl
  | tagIn i =>
    cases r' with
    | tagIn m => exact congrArg some (QuadRegs.get_set_of_ne _ (fun he => hne (congrArg Reg.tagIn he)) _)
    | _ => rfl
  | id | param | ctrl | status | cmd | tagOut _ => cases h
  | aAddr | aLen | mAddr | mLen | dAddr | outLen =>
    cases r' <;> first | rfl | exact absurd rfl hne

theorem writeReg_operand_frame (h : r.operand s = some w) (v : Word) (strb : BitVec 4) :
    writeReg r v strb s = { s with
      aAddr := (writeReg r v strb s).aAddr, aLen := (writeReg r v strb s).aLen, mAddr := (writeReg r v strb s).mAddr
      mLen := (writeReg r v strb s).mLen, dAddr := (writeReg r v strb s).dAddr
      outLen := (writeReg r v strb s).outLen, key := (writeReg r v strb s).key
      nonce := (writeReg r v strb s).nonce, tagIn := (writeReg r v strb s).tagIn } := by
  cases r <;> cases h <;> rfl

theorem not_command_of_operand (h : r.operand s = some w) : r ≠ .cmd := by rintro rfl; cases h

theorem not_status_of_operand (h : r.operand s = some w) : r ≠ .status := by rintro rfl; cases h

end

/-- Settles O24. -/
theorem operandRegisterAccess : Obligations.OperandRegisterAccess := by
  refine ⟨fun s a r w h ho => ⟨fun hk hb => ?_, fun hk => ?_⟩, fun s a k ho => ⟨fun hk => ?_, fun hk hb => ?_⟩⟩
  · exact ⟨_, _, hostStep_write_register hk ho (fun hc => absurd hc (not_command_of_operand h)) hb,
      operand_writeReg_same h _ _, fun j hj => mergeStrobes_byte w _ _ hj, fun r' hne => operand_writeReg_of_ne h _ _ hne,
      writeReg_operand_frame h _ _⟩
  · rw [hostStep_read_register hk ho (not_status_of_operand h)]
    cases r <;> cases h <;> rfl
  · exact hostStep_read_register (r := .tagOut k) hk ho nofun s
  · exact hostStep_write_register (r := .tagOut k) hk ho nofun hb

end Sys2Proof.Machine
end

section
/-! Settling O30, O31 and O34: host accesses of the DMEM window (20_memory.md R41 to R43, R47). -/

namespace Sys2Proof.Machine

theorem inWindow_of_offset {s : State} {b : Nat} (hb : b < s.dmemSize.bytes) : inWindow s (0x8000 + b) = true :=
  (inWindow_iff s _).mpr (by omega)

/-! Reads of the window (R42) -/

theorem hostStep_read_dmem {s : State} {a : Access} {b : Nat} (hk : a.kind = .read) (ho : wordOffset a = 0x8000 + b)
    (hb : b < s.dmemSize.bytes) : hostStep a s = hostReadDmem b s := by
  rw [hostStep_read hk, ho, hostRead, if_pos (inWindow_of_offset hb), windowBase, Nat.add_sub_cancel_left]

theorem hostReadDmem_busy (b : Nat) {s : State} (h : s.busy = true) : hostReadDmem b s = .next { s with rdata := 0 } := by
  rw [hostReadDmem, if_pos h]

theorem hostReadDmem_ok {b : Nat} {s : State} {B : Bytes} (h : s.busy = false) (hr : Memory.readBytes s.dmem b 4 = .ok B) :
    hostReadDmem b s = .next { s with rdata := wordOfBytes B } := by
  simp [hostReadDmem, h, hr]

theorem hostReadDmem_error {b e : Nat} {s : State} (h : s.busy = false) (hr : Memory.readBytes s.dmem b 4 = .error e) :
    hostReadDmem b s = .fault (.hostReadUnwritten e) := by
  simp [hostReadDmem, h, hr]

/-- The four bytes of a word put together from them, the lowest address in bits 7:0 (R42, R45). -/
theorem wordBytes_or (b0 b1 b2 b3 : Byte) :
    wordBytes (b0.zeroExtend 32 ||| b1.zeroExtend 32 <<< 8 ||| b2.zeroExtend 32 <<< 16 ||| b3.zeroExtend 32 <<< 24) =
      [b0, b1, b2, b3] := by
  simp only [wordBytes, List.cons.injEq, and_true]
  refine ⟨?_, ?_, ?_, ?_⟩ <;> ext i hi <;> interval_cases i <;> simp [BitVec.getElem_extractLsb']

theorem wordOfBytes_eq_or (b0 b1 b2 b3 : Byte) : wordOfBytes [b0, b1, b2, b3] =
    b0.zeroExtend 32 ||| b1.zeroExtend 32 <<< 8 ||| b2.zeroExtend 32 <<< 16 ||| b3.zeroExtend 32 <<< 24 := by
  rw [← wordBytes_or, wordOfBytes_wordBytes]

/-- Settles O30. -/
theorem dmemWindowRead : Obligations.DmemWindowRead := by
  intro s a b hk ho hb
  refine ⟨?_, fun hbusy => ?_, fun b0 b1 b2 b3 hidle h0 h1 h2 h3 => ?_⟩
  · have hbytes := dmemBytes_multiple s.dmemSize
    omega
  · rw [hostStep_read_dmem hk ho hb, hostReadDmem_busy b hbusy]
  · have hread : Memory.readBytes s.dmem b 4 = .ok [b0, b1, b2, b3] :=
      readBytes_eq_ok.mpr ⟨rfl, fun j hj => by interval_cases j <;> assumption⟩
    rw [hostStep_read_dmem hk ho hb, hostReadDmem_ok hidle hread, wordOfBytes_eq_or]

/-! Writes of the window (R43) -/

theorem hostStep_busy_write {a : Access} {s : State} (hk : a.kind = .write) (hbusy : s.busy = true) :
    hostStep a s = .next (dropWrite s) :=
  accessStep_busy_write hk hbusy _

theorem hostStep_write_dmem {s : State} {a : Access} {b : Nat} (hk : a.kind = .write) (ho : wordOffset a = 0x8000 + b)
    (hb : b < s.dmemSize.bytes) (hidle : s.busy = false) :
    hostStep a s = .next { s with dmem := Memory.writeStrobed s.dmem b a.wdata a.strb } := by
  rw [hostStep_write hk (by omega), hostWrite, if_neg (by simp [hidle]), ho, if_pos (inWindow_of_offset hb), windowBase,
    Nat.add_sub_cancel_left]

/-- Settles O31. -/
theorem dmemWindowWrite : Obligations.DmemWindowWrite := by
  intro s a b hk ho hb
  refine ⟨hostStep_busy_write hk, fun hidle => ⟨_, hostStep_write_dmem hk ho hb hidle, rfl, fun j hj => ?_, fun c hc => ?_⟩⟩
  · simp [byteAt_writeStrobed, hj]
  · rw [byteAt_writeStrobed, if_neg (by omega)]

/-! No read has a side effect (R47) -/

/-- Settles O34. -/
theorem readsHaveNoSideEffect : Obligations.ReadsHaveNoSideEffect := by
  intro s t a hk h
  rw [hostStep_read hk] at h
  exact hostRead_eq h

end Sys2Proof.Machine
end

section
/-! Settling O32: a read of an unwritten byte stops the model (20_memory.md R39, R49, 60_exceptions.md R135). The position of
an accepted command that would read the byte is not passed, since no position before it writes there. -/

namespace Sys2Proof.Machine

/-! Reading an unwritten byte -/

theorem byteAt_of_readBytes {m : Memory} {a n b : Nat} {B : Bytes} (h : Memory.readBytes m a n = .ok B) (ha : a ≤ b)
    (hb : b < a + n) : Memory.byteAt m b ≠ none := by
  obtain ⟨hlen, hbyte⟩ := readBytes_eq_ok.mp h
  have hget := hbyte (b - a) (by omega)
  rw [Nat.add_sub_cancel' ha, List.getElem?_eq_getElem (by omega)] at hget
  simp [hget]

/-- Writing leaves no byte unwritten that was written (R39). -/
theorem byteAt_none_of_writeBytes {m : Memory} {a b : Nat} {v : Bytes}
    (h : Memory.byteAt (Memory.writeBytes m a v) b = none) : Memory.byteAt m b = none := by
  by_cases hin : a ≤ b ∧ b < a + v.length
  · obtain ⟨j, rfl⟩ := Nat.exists_eq_add_of_le hin.1
    rw [byteAt_writeBytes_inside (by omega), List.getElem?_eq_getElem (by omega)] at h
    cases h
  · rwa [byteAt_writeBytes, if_neg hin] at h

/-- The sequence of a command runs to its end, or stops at a byte that was unwritten when it began. -/
theorem runOps_cases (c : Command) (ops : List SeqOp) (s : State) :
    (∃ t, runOps c ops s = .next t) ∨
    ∃ e, runOps c ops s = .fault (.commandReadUnwritten e) ∧ Memory.byteAt s.dmem e = none := by
  induction ops generalizing s with
  | nil => exact .inl ⟨s, rfl⟩
  | cons op rest ih =>
    cases he : opEffect c op s with
    | error e => exact .inr ⟨e, runOps_cons_error he, opEffect_error he⟩
    | ok e =>
      rw [runOps_cons_ok he]
      exact (ih (applyEffect op rest e s)).imp_right fun ⟨a, ha, hnone⟩ => ⟨a, ha, byteAt_none_of_writeBytes hnone⟩

/-! A sequence that does not pass a position -/

/-- The regions of a command, which no position changes. -/
structure SameRegions (s u : State) : Prop where
  a : aRegion u = aRegion s
  m : mRegion u = mRegion s
  d : u.dAddr = s.dAddr

/-- The position op leaves byte b as it is, in every state with the regions of s. -/
def Spares (c : Command) (op : SeqOp) (b : Nat) (s : State) : Prop :=
  ∀ u e, SameRegions s u → opEffect c op u = .ok e → b < e.addr ∨ e.addr + e.bytes.length ≤ b

/-- The position op stops when byte b is unwritten, in every state with the regions of s. -/
def StopsAt (c : Command) (op : SeqOp) (b : Nat) (s : State) : Prop :=
  ∀ u, SameRegions s u → Memory.byteAt u.dmem b = none → ∃ a, opEffect c op u = .error a

/-- The positions before the one that stops leave the byte unwritten. -/
theorem runOps_ne_next {c : Command} {op : SeqOp} {b : Nat} {pre post : List SeqOp} {s t : State}
    (hpre : ∀ op' ∈ pre, Spares c op' b s) (hop : StopsAt c op b s) {u : State} (hu : SameRegions s u)
    (hb : Memory.byteAt u.dmem b = none) : runOps c (pre ++ op :: post) u ≠ .next t := by
  induction pre generalizing u with
  | nil =>
    obtain ⟨a, ha⟩ := hop u hu hb
    simp [runOps_cons_error ha]
  | cons op' pre ih =>
    cases he : opEffect c op' u with
    | error a => simp [runOps_cons_error he]
    | ok e =>
      obtain ⟨hspare, hpre⟩ := List.forall_mem_cons.mp hpre
      rw [List.cons_append, runOps_cons_ok he]
      refine ih hpre ⟨hu.a, hu.m, hu.d⟩ ?_
      rw [applyEffect_dmem, byteAt_writeBytes_outside (hspare u e hu he)]
      exact hb

/-! A region read block by block -/

/-- The position op cannot be passed when block j of a region does not read. -/
def ReadsBlock (c : Command) (op : SeqOp) (reg : State → Region) (r j : Nat) : Prop :=
  ∀ u a, readBlock u (reg u) r j = .error a → opEffect c op u = .error a

theorem readBlock_error {s : State} {reg : Region} {r j b : Nat} (hlo : reg.1 + j * r ≤ b) (hhi : b < reg.1 + j * r + r)
    (hreg : b < reg.1 + reg.2) (hb : Memory.byteAt s.dmem b = none) : ∃ a, readBlock s reg r j = .error a := by
  cases h : readBlock s reg r j with
  | error a => exact ⟨a, rfl⟩
  | ok B => exact absurd hb (byteAt_of_readBytes h hlo (by omega))

theorem map_range_split (mk : Nat → SeqOp) {j n : Nat} (h : j < n) :
    ∃ post, (List.range n).map mk = (List.range j).map mk ++ mk j :: post := by
  obtain ⟨k, rfl⟩ := Nat.exists_eq_add_of_lt h
  refine ⟨(List.range k).map (fun i => mk (j + 1 + i)), ?_⟩
  rw [show j + k + 1 = j + 1 + k by omega, List.range_add, List.range_succ]
  simp

/-- With an unwritten byte b in a region that is read block by block, the block of b is not passed. -/
theorem runOps_blocks_ne_next {c : Command} {mk : Nat → SeqOp} {reg : State → Region} {r b : Nat}
    {pre post : List SeqOp} {s t : State} (hr : 0 < r) (hreg : ∀ u, SameRegions s u → reg u = reg s)
    (hread : ∀ j, ReadsBlock c (mk j) reg r j) (hlo : (reg s).1 ≤ b) (hhi : b < (reg s).1 + (reg s).2)
    (hpre : ∀ op ∈ pre, Spares c op b s) (hblocks : ∀ j, (reg s).1 + j * r + r ≤ b → Spares c (mk j) b s)
    (hb : Memory.byteAt s.dmem b = none) :
    runOps c (pre ++ ((List.range (blockCount r (reg s).2)).map mk ++ post)) s ≠ .next t := by
  have hstart : (b - (reg s).1) / r * r ≤ b - (reg s).1 := Nat.div_mul_le_self _ r
  have hend : b - (reg s).1 < (b - (reg s).1) / r * r + r := Nat.lt_div_mul_add hr
  have hcount : (b - (reg s).1) / r < blockCount r (reg s).2 := Nat.lt_succ_of_le (Nat.div_le_div_right (by omega))
  generalize (b - (reg s).1) / r = j at hstart hend hcount
  have hstop : StopsAt c (mk j) b s := fun u hu hnone => by
    rw [← hreg u hu] at hlo hhi hstart hend
    exact (readBlock_error (by omega) (by omega) hhi hnone).imp fun a ha => hread j u a ha
  have hearlier : ∀ op ∈ pre ++ (List.range j).map mk, Spares c op b s := fun op hop => by
    rcases List.mem_append.mp hop with hop | hop
    · exact hpre op hop
    · obtain ⟨i, hi, rfl⟩ := List.mem_map.mp hop
      have hle : (i + 1) * r ≤ j * r := Nat.mul_le_mul_right r (List.mem_range.mp hi)
      rw [Nat.succ_mul] at hle
      exact hblocks i (by omega)
  obtain ⟨post', hsplit⟩ := map_range_split mk hcount
  rw [hsplit, List.append_assoc, List.cons_append, ← List.append_assoc]
  exact runOps_ne_next hearlier hstop ⟨rfl, rfl, rfl⟩ hb

/-! What each position reads and writes -/

theorem spares_of_writes_nothing {c : Command} {op : SeqOp} (h : ∀ u e, opEffect c op u = .ok e → e.bytes = []) (b : Nat)
    (s : State) : Spares c op b s := by
  intro u e _ he
  rw [h u e he, List.length_nil]
  omega

/-- Only squeezing writes, of the positions of a DIGEST command. -/
theorem digest_spares {v : SpongeVariant} {op : SeqOp} (h : ∀ j, op ≠ .spSqueeze j) (b : Nat) (s : State) :
    Spares (.digest v) op b s := by
  refine spares_of_writes_nothing (fun u e he => ?_) b s
  rw [opEffect] at he
  unfold digestEffect at he
  split at he
  case h_5 j => exact absurd rfl (h j)
  all_goals (dsimp only at he; repeat' (first | (cases he <;> rfl) | split at he))

theorem custom_readsBlock (v : SpongeVariant) (j : Nat) :
    ReadsBlock (.digest v) (.spAbsorbCustom j) aRegion (spongeConfig v).rate j := by
  intro u a ha
  simp only [opEffect, digestEffect, ha]

theorem message_readsBlock (v : SpongeVariant) (j : Nat) :
    ReadsBlock (.digest v) (.spAbsorbMessage j) mRegion (spongeConfig v).rate j := by
  intro u a ha
  simp only [opEffect, digestEffect, ha]

theorem ad_readsBlock {c : Command} {v : DuplexVariant} (hc : SharesStart c v) (j : Nat) :
    ReadsBlock c (.dxAd .first j) aRegion (duplexConfig v).rate j := by
  intro u a ha
  rw [hc.ad, duplexStartEffect, if_pos (show passRuns .first u = true from rfl), ha]

theorem encText_readsBlock (v : DuplexVariant) (j : Nat) :
    ReadsBlock (.enc v) (.dxText .first j) mRegion (duplexConfig v).rate j := by
  intro u a ha
  simp only [opEffect, encEffect, encTextEffect, ha]

theorem decText_readsBlock (v : DuplexVariant) (j : Nat) :
    ReadsBlock (.dec v) (.dxText .first j) mRegion (duplexConfig v).rate j := by
  intro u a ha
  simp only [opEffect, decEffect, decVerifyEffect, ha]

theorem start_spares {c : Command} {v : DuplexVariant} {op : SeqOp} (h : ∀ u, opEffect c op u = duplexStartEffect v op u)
    (b : Nat) (s : State) : Spares c op b s :=
  spares_of_writes_nothing (fun u _ he => duplexStart_writes_nothing ((h u).symm.trans he)) b s

theorem startOps_spares {c : Command} {v : DuplexVariant} (hc : SharesStart c v) {p : Pass} {op : SeqOp} {s : State}
    (hop : op ∈ startOps p v s) (b : Nat) : Spares c op b s := by
  simp only [startOps, List.mem_append, List.mem_singleton] at hop
  rcases hop with rfl | hop | rfl
  · exact start_spares (hc.init p) b s
  · split at hop
    · cases hop
    · obtain ⟨j, -, rfl⟩ := List.mem_map.mp hop
      exact start_spares (hc.ad p j) b s
  · exact start_spares (hc.separate p) b s

theorem decText_spares (v : DuplexVariant) (j b : Nat) (s : State) : Spares (.dec v) (.dxText .first j) b s := by
  refine spares_of_writes_nothing (fun u e he => ?_) b s
  cases hB : readBlock u (mRegion u) (duplexConfig v).rate j with
  | ok B => simp only [opEffect, decEffect, decVerifyEffect, hB] at he; cases he; rfl
  | error a => rw [decText_readsBlock v j u a hB] at he; cases he

/-- A text block of ENC is written before the blocks of M after it, or away from M (60_exceptions.md R133). -/
theorem encText_spares {v : DuplexVariant} {j b : Nat} {s : State} (hov : overlaps s = false)
    (hlo : (mRegion s).1 + j * (duplexConfig v).rate + (duplexConfig v).rate ≤ b)
    (hhi : b < (mRegion s).1 + (mRegion s).2) : Spares (.enc v) (.dxText .first j) b s := by
  intro u e hu he
  cases hB : readBlock u (mRegion u) (duplexConfig v).rate j with
  | error a => rw [encText_readsBlock v j u a hB] at he; cases he
  | ok B =>
    have hlen : B.length ≤ (duplexConfig v).rate := (readBlock_length_le hB).trans_le (Nat.min_le_left _ _)
    simp only [opEffect, encEffect, encTextEffect, hB] at he
    cases he
    simp only [overlaps, Bool.and_eq_false_iff, decide_eq_false_iff_not] at hov
    simp only [mRegion] at hlo hhi
    simp only [encryptBlock_length hlen, hu.d]
    omega

/-! An accepted command with an unwritten input byte -/

theorem mem_inputRegions_digest {v : SpongeVariant} {s : State} {reg : Region} (h : reg ∈ inputRegions (.digest v) s) :
    (v = .cxof ∧ reg = aRegion s) ∨ reg = mRegion s := by
  cases v <;> simpa [inputRegions] using h

section
variable {s t : State} {reg : Region} {b : Nat}

theorem digest_ne_next {v : SpongeVariant} (h : reg ∈ inputRegions (.digest v) s) (hlo : reg.1 ≤ b)
    (hhi : b < reg.1 + reg.2) (hb : Memory.byteAt s.dmem b = none) :
    runOps (.digest v) (opsFor (.digest v) s) s ≠ .next t := by
  have hrate : 0 < (spongeConfig v).rate := by simp
  rw [opsFor, digestSequence, List.append_assoc]
  rcases mem_inputRegions_digest h with ⟨rfl, rfl⟩ | rfl
  · rw [if_pos rfl, List.append_assoc]
    refine runOps_blocks_ne_next (pre := [.spInit, .spAbsorbLength]) hrate (fun _ hu => hu.a) (custom_readsBlock .cxof) hlo
      hhi (fun op hop => digest_spares ?_ b s) (fun _ _ => digest_spares (by simp) b s) hb
    rintro j rfl
    simp at hop
  · refine runOps_blocks_ne_next hrate (fun _ hu => hu.m) (message_readsBlock v) hlo hhi
      (fun op hop => digest_spares ?_ b s) (fun _ _ => digest_spares (by simp) b s) hb
    rintro j rfl
    split at hop <;> simp at hop

/-- The first pass of ENC or DEC reads all of A, then all of M. -/
theorem firstPass_ne_next {c : Command} {v : DuplexVariant} (hc : SharesStart c v) (h : reg ∈ [aRegion s, mRegion s])
    (hlo : reg.1 ≤ b) (hhi : b < reg.1 + reg.2)
    (htext : ∀ j, ReadsBlock c (.dxText .first j) mRegion (duplexConfig v).rate j)
    (hspare : b < (mRegion s).1 + (mRegion s).2 →
      ∀ j, (mRegion s).1 + j * (duplexConfig v).rate + (duplexConfig v).rate ≤ b → Spares c (.dxText .first j) b s)
    (hb : Memory.byteAt s.dmem b = none) (rest : List SeqOp) :
    runOps c (duplexPass .first v s ++ rest) s ≠ .next t := by
  rw [duplexPass_eq, List.append_assoc]
  have hstart : ∀ op ∈ startOps .first v s, Spares c op b s := fun op hop => startOps_spares hc hop b
  simp only [List.mem_cons, List.not_mem_nil, or_false] at h
  rcases h with rfl | rfl
  · have hne : s.aLen.toNat ≠ 0 := by simp only [aRegion] at hlo hhi; omega
    rw [startOps, if_neg hne] at hstart ⊢
    rw [List.append_assoc, List.append_assoc]
    exact runOps_blocks_ne_next (duplexRate_pos v) (fun _ hu => hu.a) (ad_readsBlock hc) hlo hhi
      (fun op hop => hstart op (List.mem_append_left _ hop)) (fun j _ => start_spares (hc.ad .first j) b s) hb
  · exact runOps_blocks_ne_next (duplexRate_pos v) (fun _ hu => hu.m) htext hlo hhi hstart (hspare hhi) hb

/-- An accepted command does not get past an unwritten byte of a region it reads. -/
theorem runOps_opsFor_ne_next {c : Command} (h : reg ∈ inputRegions c s) (hlo : reg.1 ≤ b) (hhi : b < reg.1 + reg.2)
    (hov : overlapChecked c = true → overlaps s = false) (hb : Memory.byteAt s.dmem b = none) :
    runOps c (opsFor c s) s ≠ .next t := by
  cases c with
  | digest v => exact digest_ne_next h hlo hhi hb
  | enc v =>
    exact firstPass_ne_next (enc_sharesStart v) h hlo hhi (encText_readsBlock v)
      (fun hm _ hj => encText_spares (hov rfl) hj hm) hb _
  | dec v =>
    rw [opsFor, List.append_assoc]
    exact firstPass_ne_next (dec_sharesStart v) h hlo hhi (decText_readsBlock v) (fun _ j _ => decText_spares v j b s) hb _
  | wipe => cases h

end

theorem inputRegions_accept (c : Command) (w : Word) (s : State) :
    inputRegions c (accept c { s with cmdLast := w }) = inputRegions c s := by
  cases c with
  | digest v => cases v <;> rfl
  | _ => rfl

/-- Settles O32: a window read stops at the first unwritten byte of its word, a command before it gets past the byte. -/
theorem unwrittenReadFaults : Obligations.UnwrittenReadFaults := by
  refine ⟨fun s a b e hidle hk ho hb hlo hhi hnone hfirst => ?_, fun i s reg b hidle hc hreg hlo hhi hnone => ?_⟩
  · rw [hostStep_read_dmem hk ho hb, hostReadDmem_error hidle (readBytes_eq_error.mpr ⟨hlo, hhi, hnone, hfirst⟩)]
  · rw [exec_eq, runCommand_accepted hidle hc]
    rcases runOps_cases i.command (opsFor i.command s) (accept i.command { s with cmdLast := encode i }) with
      ⟨t, ht⟩ | ⟨e, he, hnone'⟩
    · rw [← opsFor_cmdLast i.command s (encode i)] at ht
      rw [← inputRegions_accept i.command (encode i) s] at hreg
      exact absurd ht (runOps_opsFor_ne_next hreg hlo hhi (fun h => check_overlap hc h) hnone)
    · exact ⟨e, by rw [he, andThen_fault], hnone'⟩

end Sys2Proof.Machine
end

section
/-! Settling O1 to O5: the decoder and the encoder are inverse on the well-formed commands and the legal words, the decoder is
the match and mask columns of the opcode map, and the words it refuses are those of 30_encoding.md R65. -/

namespace Sys2Proof.Machine

/-! The fields of a packed word (R58) -/

theorem packWord_toNat (op var klen nlen tlen : Nat) : (packWord op var klen nlen tlen).toNat =
    op % 16 + var % 8 * 16 + klen % 32 * 2 ^ 8 + nlen % 32 * 2 ^ 16 + tlen % 32 * 2 ^ 24 := by
  rw [packWord, BitVec.toNat_ofNat]
  omega

section
variable (op var klen nlen tlen : Nat)

theorem opField_packWord : opField (packWord op var klen nlen tlen) = op % 16 := by
  rw [opField, field, packWord_toNat]
  omega

theorem varField_packWord : varField (packWord op var klen nlen tlen) = var % 8 := by
  rw [varField, field, packWord_toNat]
  omega

theorem klenField_packWord : klenField (packWord op var klen nlen tlen) = klen % 32 := by
  rw [klenField, field, packWord_toNat]
  omega

theorem nlenField_packWord : nlenField (packWord op var klen nlen tlen) = nlen % 32 := by
  rw [nlenField, field, packWord_toNat]
  omega

theorem tlenField_packWord : tlenField (packWord op var klen nlen tlen) = tlen % 32 := by
  rw [tlenField, field, packWord_toNat]
  omega

theorem reservedSet_packWord : reservedSet (packWord op var klen nlen tlen) = false := by
  rw [reservedSet_eq_false]
  simp only [field, packWord_toNat]
  omega

end

/-! Decoding the word of a command (R64) -/

theorem lengthsFit_iff {klen nlen tlen : Nat} : lengthsFit klen nlen tlen = true ↔ klen < 32 ∧ nlen < 32 ∧ tlen < 32 := by
  simp [lengthsFit, and_assoc]

theorem freeRow_packWord {mk : Nat → Nat → Nat → Instr} {op var klen nlen tlen : Nat}
    (h : lengthsFit klen nlen tlen = true) :
    freeRow mk (packWord op var klen nlen tlen) = .ok (mk klen nlen tlen) := by
  obtain ⟨hk, hn, ht⟩ := lengthsFit_iff.mp h
  rw [freeRow, klenField_packWord, nlenField_packWord, tlenField_packWord, Nat.mod_eq_of_lt hk, Nat.mod_eq_of_lt hn,
    Nat.mod_eq_of_lt ht]

theorem decode_packWord_encrypt (var klen nlen tlen : Nat) : decode (packWord 2 var klen nlen tlen) =
    decodeEncrypt (packWord 2 var klen nlen tlen) := by
  simp [decode, reservedSet_packWord, opField_packWord]

theorem decode_packWord_decrypt (var klen nlen tlen : Nat) : decode (packWord 3 var klen nlen tlen) =
    decodeDecrypt (packWord 3 var klen nlen tlen) := by
  simp [decode, reservedSet_packWord, opField_packWord]

theorem decode_encInstr {v : DuplexVariant} {klen nlen tlen : Nat} (h : lengthsFit klen nlen tlen = true) :
    decode (encode (encInstr v klen nlen tlen)) = .ok (encInstr v klen nlen tlen) := by
  cases v <;>
    simp only [encInstr, encode, decode_packWord_encrypt, decodeEncrypt, varField_packWord] <;> exact freeRow_packWord h

theorem decode_decInstr {v : DuplexVariant} {klen nlen tlen : Nat} (h : lengthsFit klen nlen tlen = true) :
    decode (encode (decInstr v klen nlen tlen)) = .ok (decInstr v klen nlen tlen) := by
  cases v <;>
    simp only [decInstr, encode, decode_packWord_decrypt, decodeDecrypt, varField_packWord] <;> exact freeRow_packWord h

/-- Settles O1: the words of ENC and DEC by their fields, the others are five and one fixed words. -/
theorem decodeEncodeRoundTrip : Obligations.DecodeEncodeRoundTrip := by
  intro i h
  cases i with
  | hash | hasha | xof | xofa | cxof | wipe => rfl
  | enc128 k n t => exact decode_encInstr (v := .aead128) h
  | enc128a k n t => exact decode_encInstr (v := .aead128a) h
  | enc80pq k n t => exact decode_encInstr (v := .aead80pq) h
  | dec128 k n t => exact decode_decInstr (v := .aead128) h
  | dec128a k n t => exact decode_decInstr (v := .aead128a) h
  | dec80pq k n t => exact decode_decInstr (v := .aead80pq) h

/-- Settles O4: each word is the word of its command. -/
theorem specWordsDecode : Obligations.SpecWordsDecode :=
  ⟨decodeEncodeRoundTrip .hash rfl, decodeEncodeRoundTrip .hasha rfl, decodeEncodeRoundTrip .xof rfl,
    decodeEncodeRoundTrip .xofa rfl, decodeEncodeRoundTrip .cxof rfl, decodeEncodeRoundTrip (.enc128 16 16 16) rfl,
    decodeEncodeRoundTrip (.enc128a 16 16 16) rfl, decodeEncodeRoundTrip (.enc80pq 20 16 16) rfl,
    decodeEncodeRoundTrip (.dec128 16 16 16) rfl, decodeEncodeRoundTrip (.dec128a 16 16 16) rfl,
    decodeEncodeRoundTrip (.dec80pq 20 16 16) rfl, decodeEncodeRoundTrip .wipe rfl,
    decodeEncodeRoundTrip (.enc128 20 16 16) rfl⟩

/-! Legal words (R64, R66) -/

theorem eq_of_fixedRow {i j : Instr} {w : Word} (h : fixedRow i w = .ok j) : j = i := by
  unfold fixedRow at h
  split at h <;> cases h
  rfl

theorem digestInstr_of_decodeDigest {w : Word} {i : Instr} (h : decodeDigest w = .ok i) : ∃ v, i = digestInstr v := by
  unfold decodeDigest at h
  split at h
  case h_1 => exact ⟨.hash, eq_of_fixedRow h⟩
  case h_2 => exact ⟨.hasha, eq_of_fixedRow h⟩
  case h_3 => exact ⟨.xof, eq_of_fixedRow h⟩
  case h_4 => exact ⟨.xofa, eq_of_fixedRow h⟩
  case h_5 => exact ⟨.cxof, eq_of_fixedRow h⟩
  case h_6 => cases h

theorem encInstr_of_decodeEncrypt {w : Word} {i : Instr} (h : decodeEncrypt w = .ok i) :
    ∃ v, i = encInstr v (klenField w) (nlenField w) (tlenField w) := by
  unfold decodeEncrypt at h
  split at h <;> cases h
  case h_1 => exact ⟨.aead128, rfl⟩
  case h_2 => exact ⟨.aead128a, rfl⟩
  case h_3 => exact ⟨.aead80pq, rfl⟩

theorem decInstr_of_decodeDecrypt {w : Word} {i : Instr} (h : decodeDecrypt w = .ok i) :
    ∃ v, i = decInstr v (klenField w) (nlenField w) (tlenField w) := by
  unfold decodeDecrypt at h
  split at h <;> cases h
  case h_1 => exact ⟨.aead128, rfl⟩
  case h_2 => exact ⟨.aead128a, rfl⟩
  case h_3 => exact ⟨.aead80pq, rfl⟩

theorem wipe_of_decodeWipe {w : Word} {i : Instr} (h : decodeWipe w = .ok i) : i = .wipe := by
  unfold decodeWipe at h
  split at h
  · exact eq_of_fixedRow h
  · cases h

/-- What a legal word names; ENC and DEC declare the lengths of its fields (R60). -/
theorem decode_cases {w : Word} {i : Instr} (h : decode w = .ok i) :
    (∃ v, i = digestInstr v) ∨ (∃ v, i = encInstr v (klenField w) (nlenField w) (tlenField w)) ∨
    (∃ v, i = decInstr v (klenField w) (nlenField w) (tlenField w)) ∨ i = .wipe := by
  unfold decode at h
  split at h
  · cases h
  · split at h
    · exact .inl (digestInstr_of_decodeDigest h)
    · exact .inr (.inl (encInstr_of_decodeEncrypt h))
    · exact .inr (.inr (.inl (decInstr_of_decodeDecrypt h)))
    · exact .inr (.inr (.inr (wipe_of_decodeWipe h)))
    · cases h

theorem lengthsFit_fields (w : Word) : lengthsFit (klenField w) (nlenField w) (tlenField w) = true :=
  lengthsFit_iff.mpr ⟨Nat.mod_lt _ (by decide), Nat.mod_lt _ (by decide), Nat.mod_lt _ (by decide)⟩

theorem wellFormed_of_decode {w : Word} {i : Instr} (h : decode w = .ok i) : i.wellFormed = true := by
  rcases decode_cases h with ⟨v, rfl⟩ | ⟨v, rfl⟩ | ⟨v, rfl⟩ | rfl
  · cases v <;> rfl
  · cases v <;> exact lengthsFit_fields w
  · cases v <;> exact lengthsFit_fields w
  · rfl

/-- Settles O2. -/
theorem decodedWordReencodes : Obligations.DecodedWordReencodes :=
  fun _ _ h => ⟨wellFormed_of_decode h, encode_of_decode h⟩

/-! The opcode map (R64) -/

theorem field_eq_extractLsb' (w : Word) (lo width : Nat) : field w lo width = (w.extractLsb' lo width).toNat := by
  rw [field, BitVec.extractLsb'_toNat, Nat.shiftRight_eq_div_pow]

/-- A field that lies in the mask is read from the masked word. -/
theorem field_and_mask {w m : Word} {lo width : Nat} (h : m.extractLsb' lo width = BitVec.allOnes width) :
    field (w &&& m) lo width = field w lo width := by
  rw [field_eq_extractLsb', field_eq_extractLsb', BitVec.extractLsb'_and, h, BitVec.and_allOnes]

/-- The mask of ENC and DEC covers OP, VAR and the reserved bits. -/
theorem packWord_of_masked {w x : Word} {op var : Nat} (h : w &&& 0xE0E0E0FF = x)
    (hx : reservedSet x = false ∧ opField x = op ∧ varField x = var) :
    packWord op var (klenField w) (nlenField w) (tlenField w) = w := by
  subst h
  obtain ⟨hrsv, rfl, rfl⟩ := hx
  rw [reservedSet_eq_false, field_and_mask rfl, field_and_mask rfl, field_and_mask rfl, field_and_mask rfl,
    ← reservedSet_eq_false] at hrsv
  rw [opField, varField, field_and_mask rfl, field_and_mask rfl]
  exact packWord_fields hrsv

theorem encode_matches_row (i : Instr) : encode i &&& i.command.rowMask = i.command.rowMatch := by
  cases i with
  | hash | hasha | xof | xofa | cxof | wipe => rfl
  | enc128 k n t => exact Laws.EncodesItsRow.enc128 k n t
  | enc128a k n t => exact Laws.EncodesItsRow.enc128a k n t
  | enc80pq k n t => exact Laws.EncodesItsRow.enc80pq k n t
  | dec128 k n t => exact Laws.EncodesItsRow.dec128 k n t
  | dec128a k n t => exact Laws.EncodesItsRow.dec128a k n t
  | dec80pq k n t => exact Laws.EncodesItsRow.dec80pq k n t

/-- A word that matches a row is the word of a command of that row. -/
theorem encode_of_matches_row {w : Word} {c : Command} (h : w &&& c.rowMask = c.rowMatch) :
    ∃ i : Instr, i.wellFormed = true ∧ encode i = w ∧ i.command = c := by
  cases c with
  | digest v =>
    have hw : w = (Command.digest v).rowMatch := (BitVec.and_allOnes (x := w)).symm.trans h
    exact ⟨digestInstr v, by cases v <;> rfl, by cases v <;> exact hw.symm, by cases v <;> rfl⟩
  | enc v =>
    refine ⟨encInstr v (klenField w) (nlenField w) (tlenField w), ?_, ?_, by cases v <;> rfl⟩
    · cases v <;> exact lengthsFit_fields w
    · cases v <;> exact packWord_of_masked h (by decide)
  | dec v =>
    refine ⟨decInstr v (klenField w) (nlenField w) (tlenField w), ?_, ?_, by cases v <;> rfl⟩
    · cases v <;> exact lengthsFit_fields w
    · cases v <;> exact packWord_of_masked h (by decide)
  | wipe => exact ⟨.wipe, rfl, ((BitVec.and_allOnes (x := w)).symm.trans h).symm, rfl⟩

/-- Settles O3. -/
theorem decodeFollowsOpcodeMap : Obligations.DecodeFollowsOpcodeMap := by
  intro w c
  constructor
  · intro h
    obtain ⟨i, hwf, rfl, hc⟩ := encode_of_matches_row h
    exact ⟨i, decodeEncodeRoundTrip i hwf, hc⟩
  · rintro ⟨i, hi, rfl⟩
    rw [← encode_of_decode hi]
    exact encode_matches_row i

/-! Illegal words (R65) -/

theorem fixedRow_error_iff (i : Instr) (w : Word) :
    (∃ e, fixedRow i w = .error e) ↔ klenField w ≠ 0 ∨ nlenField w ≠ 0 ∨ tlenField w ≠ 0 := by
  unfold fixedRow
  split <;> simp <;> omega

theorem decodeDigest_error_iff (w : Word) : (∃ e, decodeDigest w = .error e) ↔
    5 ≤ varField w ∨ klenField w ≠ 0 ∨ nlenField w ≠ 0 ∨ tlenField w ≠ 0 := by
  unfold decodeDigest
  split
  case h_6 => grind
  all_goals next hvar => rw [fixedRow_error_iff, hvar]; simp

theorem decodeEncrypt_error_iff (w : Word) : (∃ e, decodeEncrypt w = .error e) ↔ varField w ≤ 4 := by
  have hlt : varField w < 8 := Nat.mod_lt _ (by decide)
  unfold decodeEncrypt
  split
  case h_4 => grind
  all_goals next hvar => simp [freeRow, hvar]

theorem decodeDecrypt_error_iff (w : Word) : (∃ e, decodeDecrypt w = .error e) ↔ varField w ≤ 4 := by
  have hlt : varField w < 8 := Nat.mod_lt _ (by decide)
  unfold decodeDecrypt
  split
  case h_4 => grind
  all_goals next hvar => simp [freeRow, hvar]

theorem decodeWipe_error_iff (w : Word) : (∃ e, decodeWipe w = .error e) ↔
    varField w ≠ 0 ∨ klenField w ≠ 0 ∨ nlenField w ≠ 0 ∨ tlenField w ≠ 0 := by
  unfold decodeWipe
  split
  · next hvar => rw [fixedRow_error_iff, hvar]; simp
  · grind

theorem decode_error_iff (w : Word) : (∃ e, decode w = .error e) ↔
    reservedSet w = true ∨ opField w = 0 ∨ 5 ≤ opField w ∨ (opField w = 1 ∧ 5 ≤ varField w) ∨
      ((opField w = 2 ∨ opField w = 3) ∧ varField w ≤ 4) ∨ (opField w = 4 ∧ varField w ≠ 0) ∨
      ((opField w = 1 ∨ opField w = 4) ∧ (klenField w ≠ 0 ∨ nlenField w ≠ 0 ∨ tlenField w ≠ 0)) := by
  unfold decode
  split
  case isTrue hrsv => simp [hrsv]
  case isFalse hrsv =>
    split
    case h_1 hop => simp [decodeDigest_error_iff, hop, hrsv]
    case h_2 hop => simp [decodeEncrypt_error_iff, hop, hrsv]
    case h_3 hop => simp [decodeDecrypt_error_iff, hop, hrsv]
    case h_4 hop => simp [decodeWipe_error_iff, hop, hrsv]
    case h_5 => grind

theorem field_ne_zero_iff {w : Word} {lo width : Nat} : field w lo width ≠ 0 ↔ w.extractLsb' lo width ≠ 0 := by
  rw [field_eq_extractLsb', Ne, Ne, ← BitVec.toNat_inj]
  rfl

theorem reservedSet_iff (w : Word) : reservedSet w = true ↔ w.getLsbD 7 = true ∨ w.extractLsb' 13 3 ≠ 0 ∨
    w.extractLsb' 21 3 ≠ 0 ∨ w.extractLsb' 29 3 ≠ 0 := by
  have hbit : w.getLsbD 7 = true ↔ field w 7 1 ≠ 0 := by
    rw [BitVec.getLsbD, Nat.testBit_eq_decide_div_mod_eq, decide_eq_true_iff, field]
    omega
  rw [← Bool.not_eq_false, reservedSet_eq_false, hbit, ← field_ne_zero_iff, ← field_ne_zero_iff, ← field_ne_zero_iff]
  tauto

theorem decode_error_iff_no_row (w : Word) :
    (∃ e, decode w = .error e) ↔ ∀ c : Command, w &&& c.rowMask ≠ c.rowMatch := by
  constructor
  · rintro ⟨e, he⟩ c hc
    obtain ⟨i, hi, -⟩ := (decodeFollowsOpcodeMap w c).mp hc
    cases he.symm.trans hi
  · intro h
    cases hd : decode w with
    | error e => exact ⟨e, rfl⟩
    | ok i => exact absurd ((decodeFollowsOpcodeMap w i.command).mpr ⟨i, hd, rfl⟩) (h _)

theorem isCommandWrite_commandWrite (w : Word) : isCommandWrite (commandWrite w) = true := by
  simp [isCommandWrite, commandWrite, wordOffset]

/-- Settles O5. -/
theorem illegalWordsAreRejected : Obligations.IllegalWordsAreRejected := by
  intro w
  refine ⟨?_, decode_error_iff_no_row w, ?_⟩
  · rw [decode_error_iff, reservedSet_iff, opField, varField, klenField, nlenField, tlenField,
      field_eq_extractLsb' w 0, field_eq_extractLsb' w 4, field_ne_zero_iff, field_ne_zero_iff, field_ne_zero_iff]
  · rintro s g hb ⟨e, he⟩
    rw [accessStep_command (isCommandWrite_commandWrite w) hb]
    exact commandAccess_error he g s

end Sys2Proof.Machine
end

section
/-! Settling O44: the host accesses of `ld.key`, `ld.nonce`, `ld.tag` and `ld.mem` (30_encoding.md R69). The first three are
writes of registers in a row; the last is a row of word writes, each of which appends its bytes to what is written. -/

namespace Sys2Proof.Machine

theorem runEvents_cons {e : Event} {s t : State} (h : applyEvent e s = .next t) (es : List Event) :
    runEvents (e :: es) s = runEvents es t := by
  rw [runEvents, h, andThen_next]

theorem runEvents_append (es fs : List Event) (s : State) :
    runEvents (es ++ fs) s = andThen (runEvents es s) (runEvents fs) := by
  induction es generalizing s with
  | nil => rfl
  | cons e es ih =>
    rw [List.cons_append, runEvents, runEvents, andThen_assoc]
    exact congrArg (andThen _) (funext ih)

/-! Writes of registers -/

theorem Reg.offset_lt (r : Reg) : r.offset < 2 ^ 16 := by have := r.offset_ranges; omega

theorem Reg.offset_aligned (r : Reg) : r.offset % 4 = 0 := by cases r <;> simp only [Reg.offset] <;> omega

theorem wordOffset_writeAccess {t : Target} (hlt : t.offset < 2 ^ 16) (h4 : t.offset % 4 = 0) (v : Word) (strb : BitVec 4) :
    wordOffset (writeAccess t v strb) = t.offset := by
  simp only [wordOffset, writeAccess, BitVec.toNat_ofNat]
  omega

/-- `wr r, v` with all strobes, of a register and a word. -/
def registerWrite (p : Reg × Word) : Event := quickly (writeAccess (.reg p.1) p.2 0xF)

theorem applyEvent_registerWrite {p : Reg × Word} (hp : p.1 ≠ .cmd) {s : State} (hb : s.busy = false) :
    applyEvent (registerWrite p) s = .next (writeReg p.1 p.2 0xF s) :=
  hostStep_write_register rfl (wordOffset_writeAccess (t := .reg p.1) p.1.offset_lt p.1.offset_aligned _ _)
    (fun h => absurd h hp) hb

theorem writeReg_busy (r : Reg) (v : Word) (strb : BitVec 4) (s : State) : (writeReg r v strb s).busy = s.busy := by
  cases r with
  | ctrl => rw [writeReg, writeCtrl]; split <;> rfl
  | status => rw [writeReg, writeStatus]; split <;> rfl
  | _ => rfl

/-- The state after the words of a list are written to their registers. -/
def writeRegs (ws : List (Reg × Word)) (s : State) : State := ws.foldl (fun s p => writeReg p.1 p.2 0xF s) s

theorem runEvents_registerWrites {ws : List (Reg × Word)} (hws : ∀ p ∈ ws, p.1 ≠ .cmd) {s : State} (hb : s.busy = false) :
    runEvents (ws.map registerWrite) s = .next (writeRegs ws s) := by
  induction ws generalizing s with
  | nil => rfl
  | cons p ws ih =>
    obtain ⟨hp, hws⟩ := List.forall_mem_cons.mp hws
    rw [List.map_cons, runEvents_cons (applyEvent_registerWrite hp hb)]
    exact ih hws ((writeReg_busy _ _ _ s).trans hb)

/-- The four words of 16 bytes, to four registers (R69). -/
def quadWrites (r : Fin 4 → Reg) (B : Bytes) : List (Reg × Word) :=
  [(r 0, (quadOfBytes B).w0), (r 1, (quadOfBytes B).w1), (r 2, (quadOfBytes B).w2), (r 3, (quadOfBytes B).w3)]

/-- The five words of 20 bytes, to KEY0..KEY4 (R69). -/
def keyWrites (B : Bytes) : List (Reg × Word) :=
  quadWrites (fun i => .key i.castSucc) B ++ [(.key 4, wordOfBytes (slice B 16 4))]

section
variable {B : Bytes}

theorem ldNonce_events (h : B.length = 16) :
    ScriptLine.events (.ldNonce B) = (quadWrites .nonce B).map registerWrite := by
  rw [ScriptLine.events, loadRegs, h]
  rfl

theorem ldTag_events (h : B.length = 16) : ScriptLine.events (.ldTag B) = (quadWrites .tagIn B).map registerWrite := by
  rw [ScriptLine.events, loadRegs, h]
  rfl

theorem ldKey_events_16 (h : B.length = 16) :
    ScriptLine.events (.ldKey B) = (quadWrites (fun i => .key i.castSucc) B).map registerWrite := by
  rw [ScriptLine.events, loadRegs, h]
  rfl

theorem ldKey_events_20 (h : B.length = 20) : ScriptLine.events (.ldKey B) = (keyWrites B).map registerWrite := by
  rw [ScriptLine.events, loadRegs, h]
  rfl

end

section
variable (s : State) (B : Bytes)

theorem writeRegs_nonce : writeRegs (quadWrites .nonce B) s = { s with nonce := quadOfBytes B } := by
  simp only [writeRegs, quadWrites, List.foldl_cons, List.foldl_nil, writeReg, mergeStrobes_all]
  rfl

theorem writeRegs_tagIn : writeRegs (quadWrites .tagIn B) s = { s with tagIn := quadOfBytes B } := by
  simp only [writeRegs, quadWrites, List.foldl_cons, List.foldl_nil, writeReg, mergeStrobes_all]
  rfl

/-- KEY0..KEY3 with 16 bytes in them, and KEY4 as given. -/
def keyOfBytes (k4 : Word) : KeyRegs :=
  ⟨(quadOfBytes B).w0, (quadOfBytes B).w1, (quadOfBytes B).w2, (quadOfBytes B).w3, k4⟩

theorem writeRegs_key_16 :
    writeRegs (quadWrites (fun i => .key i.castSucc) B) s = { s with key := keyOfBytes B s.key.k4 } := by
  simp only [writeRegs, quadWrites, List.foldl_cons, List.foldl_nil, writeReg, mergeStrobes_all]
  rfl

theorem writeRegs_key_20 :
    writeRegs (keyWrites B) s = { s with key := keyOfBytes B (wordOfBytes (slice B 16 4)) } := by
  have hfirst := writeRegs_key_16 s B
  rw [writeRegs] at hfirst
  rw [keyWrites, writeRegs, List.foldl_append, hfirst]
  simp only [List.foldl_cons, List.foldl_nil, writeReg, mergeStrobes_all]
  rfl

end

/-- Four registers hold the first 16 of the bytes they are written with (10_state.md R20). -/
theorem quadBytes_quadOfBytes_take {B : Bytes} (h : 16 ≤ B.length) : quadBytes (quadOfBytes B) = B.take 16 := by
  have hquad : quadOfBytes (B.take 16) = quadOfBytes B := by
    simp [quadOfBytes, slice, List.drop_take, List.take_take]
  rw [← hquad, quadBytes_quadOfBytes (by simp [h])]

theorem keyBytes_keyOfBytes (B : Bytes) (k4 : Word) (n : Nat) :
    keyBytes (keyOfBytes B k4) n = (quadBytes (quadOfBytes B) ++ wordBytes k4).take n := rfl

theorem keyBytes_16 {B : Bytes} (h : B.length = 16) (k4 : Word) : keyBytes (keyOfBytes B k4) 16 = B := by
  rw [keyBytes_keyOfBytes, quadBytes_quadOfBytes h, ← h, List.take_left]

theorem keyBytes_20 {B : Bytes} (h : B.length = 20) : keyBytes (keyOfBytes B (wordOfBytes (slice B 16 4))) 20 = B := by
  have hlast : slice B 16 4 = B.drop 16 := List.take_of_length_le (by simp [h])
  rw [keyBytes_keyOfBytes, quadBytes_quadOfBytes_take (by omega), wordBytes_wordOfBytes (by simp [hlast, h]), hlast,
    List.take_append_drop, ← h, List.take_length]

/-! Writes of DMEM words -/

theorem wordOfBytes_append_zeros (B : Bytes) (n : Nat) : wordOfBytes (B ++ zeros n) = wordOfBytes B := by
  have hzeros : (zeros n).foldr (fun b m => b.toNat + 256 * m) 0 = 0 := by
    induction n with
    | zero => rfl
    | succ n ih => simpa [zeros, List.replicate_succ] using ih
  rw [wordOfBytes, wordOfBytes, List.foldr_append, hzeros]

/-- A byte of a word made of up to 4 bytes. -/
theorem wordOfBytes_byte {B : Bytes} (h : B.length ≤ 4) {j : Nat} (hj : j < B.length) :
    (wordOfBytes B).extractLsb' (8 * j) 8 = B[j] := by
  apply Option.some.inj
  rw [← getElem?_wordBytes _ (by omega), ← wordOfBytes_append_zeros B (4 - B.length),
    wordBytes_wordOfBytes (by simp; omega), List.getElem?_append_left hj, List.getElem?_eq_getElem hj]

theorem strobesOf_getLsbD (n : Nat) {j : Nat} (hj : j < 4) : (strobesOf n).getLsbD j = decide (j < n) := by
  rw [strobesOf, BitVec.getLsbD_ofNat, Nat.testBit_two_pow_sub_one]
  simp [hj]

/-- The part of a strobed write of a word that strobe j makes (20_memory.md R43). -/
def writeStrobe (a : Nat) (w : Word) (strb : BitVec 4) (m : Memory) (j : Nat) : Memory :=
  if strb.getLsbD j then Memory.writeBytes m (a + j) [w.extractLsb' (8 * j) 8] else m

theorem writeStrobed_eq_foldl (m : Memory) (a : Nat) (w : Word) (strb : BitVec 4) :
    Memory.writeStrobed m a w strb = (List.range 4).foldl (writeStrobe a w strb) m := rfl

theorem writeStrobe_absent (m : Memory) (a : Nat) (w : Word) {n j : Nat} (hj : j < 4) (hn : n ≤ j) :
    writeStrobe a w (strobesOf n) m j = m := by
  rw [writeStrobe, strobesOf_getLsbD _ hj, if_neg (by simpa using hn)]

section
variable (m : Memory) (a : Nat) {B : Bytes} (h : B.length ≤ 4)
include h

theorem writeStrobe_present {j : Nat} (hj : j < B.length) :
    writeStrobe a (wordOfBytes B) (strobesOf B.length) m j = Memory.writeBytes m (a + j) [B[j]] := by
  rw [writeStrobe, strobesOf_getLsbD _ (by omega), if_pos (decide_eq_true hj), wordOfBytes_byte h hj]

theorem foldl_writeStrobe (h0 : 0 < B.length) {n : Nat} (hn : n < 4) :
    (List.range (n + 1)).foldl (writeStrobe a (wordOfBytes B) (strobesOf B.length)) m =
      Memory.writeBytes m a (B.take (n + 1)) := by
  induction n with
  | zero => 
    rw [← List.take_append_getElem h0]
    exact writeStrobe_present m a h h0
  | succ n ih =>
    rw [List.range_succ, List.foldl_append, ih (by omega), List.foldl_cons, List.foldl_nil]
    by_cases hj : n + 1 < B.length
    · have hl : (B.take (n + 1)).length = n + 1 := List.length_take_of_le hj.le
      rw [writeStrobe_present _ a h hj, ← List.take_append_getElem hj, ← writeBytes_append, hl]
    · rw [writeStrobe_absent _ a _ hn (by omega), List.take_of_length_le (by omega), List.take_of_length_le (by omega)]

/-- A strobed write of the bytes present is a write of these bytes (20_memory.md R43, R50). -/
theorem writeStrobed_wordOfBytes (h0 : 0 < B.length) :
    Memory.writeStrobed m a (wordOfBytes B) (strobesOf B.length) = Memory.writeBytes m a B := by
  rw [writeStrobed_eq_foldl, foldl_writeStrobe m a h h0 (by decide), List.take_of_length_le h]

end

/-- The write of `ld.mem` to one word: the bytes of B from 4i on, as far as there are any (R69). -/
def memWrite (addr : Nat) (B : Bytes) (i : Nat) : Event :=
  quickly (writeAccess (.dmem (addr + 4 * i)) (wordOfBytes (slice B (4 * i) 4)) (strobesOf (B.length - 4 * i)))

theorem ldMem_events (addr : Nat) (B : Bytes) :
    ScriptLine.events (.ldMem addr B) = (List.range ((B.length + 3) / 4)).map (memWrite addr B) :=
  List.map_map

theorem strobesOf_min (n : Nat) : strobesOf (min 4 n) = strobesOf n := by
  rw [strobesOf, strobesOf, Nat.min_comm 4 n, Nat.min_assoc, Nat.min_self]

section
variable {addr : Nat} {B : Bytes} {s : State}

theorem applyEvent_memWrite (h4 : addr % 4 = 0) (hin : addr + B.length ≤ s.dmemSize.bytes) (hb : s.busy = false) {i : Nat}
    (hi : 4 * i < B.length) :
    applyEvent (memWrite addr B i) s =
      .next { s with dmem := Memory.writeBytes s.dmem (addr + 4 * i) (slice B (4 * i) 4) } := by
  obtain ⟨-, -, hsize⟩ := dmemBytes_multiple s.dmemSize
  have hl : (slice B (4 * i) 4).length = min 4 (B.length - 4 * i) := by simp [slice]
  have hoff : wordOffset (writeAccess (.dmem (addr + 4 * i)) (wordOfBytes (slice B (4 * i) 4))
      (strobesOf (B.length - 4 * i))) = 0x8000 + (addr + 4 * i) :=
    wordOffset_writeAccess (by simp only [Target.offset, windowBase]; omega)
      (by simp only [Target.offset, windowBase]; omega) _ _
  have hstep := hostStep_write_dmem rfl hoff (by omega) hb
  simp only [writeAccess] at hstep
  rw [← strobesOf_min, ← hl, writeStrobed_wordOfBytes _ _ (by omega) (by omega)] at hstep
  rwa [hl, strobesOf_min] at hstep

/-- After its first k words DMEM holds the first 4k bytes. -/
theorem runEvents_memWrites (h4 : addr % 4 = 0) (hin : addr + B.length ≤ s.dmemSize.bytes) (hb : s.busy = false) {k : Nat}
    (hk : k ≤ (B.length + 3) / 4) : ∃ d, Written s.dmem addr (B.take (4 * k)) d ∧
      runEvents ((List.range k).map (memWrite addr B)) s = .next { s with dmem := d } := by
  induction k with
  | zero => exact ⟨s.dmem, Written.start s.dmem addr, rfl⟩
  | succ k ih =>
    obtain ⟨d, hd, hrun⟩ := ih (by omega)
    have hl : (B.take (4 * k)).length = 4 * k := List.length_take_of_le (by omega)
    have hstep := applyEvent_memWrite (s := { s with dmem := d }) h4 hin hb (i := k) (by omega)
    have htake : B.take (4 * (k + 1)) = B.take (4 * k) ++ slice B (4 * k) 4 := List.take_add
    refine ⟨Memory.writeBytes d (addr + 4 * k) (slice B (4 * k) 4), ?_, ?_⟩
    · have hw := hd.write (slice B (4 * k) 4)
      rw [hl] at hw
      rw [hw, htake]
      exact Written.made _ _ _
    · rw [List.range_succ, List.map_append, runEvents_append, hrun, andThen_next]
      exact runEvents_cons hstep []

end

/-- Settles O44. -/
theorem loadScriptsPlaceTheirBytes : Obligations.LoadScriptsPlaceTheirBytes := by
  intro s B hb
  refine ⟨?_, fun h => ?_, fun h => ?_, fun addr h4 hin => ?_⟩
  · rintro (h | h)
    · rw [ldKey_events_16 h, runEvents_registerWrites (by simp [quadWrites]) hb, writeRegs_key_16, h]
      exact ⟨_, rfl, keyBytes_16 h _, fun _ => rfl, rfl⟩
    · rw [ldKey_events_20 h, runEvents_registerWrites (by simp [keyWrites, quadWrites]) hb, writeRegs_key_20, h]
      exact ⟨_, rfl, keyBytes_20 h, fun h16 => absurd h16 (by decide), rfl⟩
  · rw [ldNonce_events h, runEvents_registerWrites (by simp [quadWrites]) hb, writeRegs_nonce]
    exact ⟨_, rfl, quadBytes_quadOfBytes h, rfl⟩
  · rw [ldTag_events h, runEvents_registerWrites (by simp [quadWrites]) hb, writeRegs_tagIn]
    exact ⟨_, rfl, quadBytes_quadOfBytes h, rfl⟩
  · obtain ⟨d, hd, hrun⟩ := runEvents_memWrites h4 hin hb le_rfl
    rw [List.take_of_length_le (by omega)] at hd
    refine ⟨_, by rw [ldMem_events]; exact hrun, ?_, rfl, fun a ha => ?_⟩
    · exact (readBytes_congr fun b _ _ => hd.read b).trans (readBytes_writeBytes_same s.dmem addr B)
    · exact (hd.read a).trans (byteAt_writeBytes_outside ha)

end Sys2Proof.Machine
end

section
/-! Settling O45 and O60: `poll` and `run` (30_encoding.md R69). A command on its way reaches the state its meaning gives,
whatever the host has read meanwhile (43_control.md R121); a poll reads until it has got there. -/

namespace Sys2Proof.Machine

/-! One read of a poll (R69) -/

theorem progress_idle {s : State} (hb : s.busy = false) (g : Gap) : progress g s = .next s := by
  cases g with
  | steps n => exact engineSteps_idle hb n
  | completes => exact runToCompletion_idle hb

section
variable {s : State} {gaps : List Gap} {rest : List Event} (he : s.events = .poll gaps :: rest)
include he

theorem step_poll : step s = pollStep gaps { s with events := rest } := by
  rw [step, he]
  rfl

theorem step_poll_done (hd : s.done = true) : step s = .next (hostReadReg .status { s with events := rest }) :=
  (step_poll he).trans (pollStep_done gaps hd)

theorem step_poll_again (hd : s.done = false) :
    step s = mapNext (fun t => { t with events := .poll gaps.tail :: rest })
      (progress (gaps.headD .completes) (hostReadReg .status { s with events := rest })) := by
  rw [step_poll he, pollStep_again gaps (s := { s with events := rest }) hd]
  cases hp : progress (gaps.headD .completes) (hostReadReg .status { s with events := rest }) with
  | next u =>
    have hu : u.events = rest := (progress_events hp).trans (by rw [hostReadReg_frame])
    rw [andThen_next, hu]
    rfl
  | fault r => rfl
  | refused r => rfl

theorem step_poll_idle (hd : s.done = false) (hb : s.busy = false) :
    step s = .next { s with rdata := statusWord s s.phase, events := .poll gaps.tail :: rest } := by
  have hread : hostReadReg .status { s with events := rest } =
      { s with rdata := statusWord s s.phase, events := rest } := by
    simp [hostReadReg, countDraw, hb, readReg, statusWord, visiblePhase]
  rw [step_poll_again he hd, hread, progress_idle (s := { s with rdata := statusWord s s.phase, events := rest }) hb]
  rfl

end

/-- The poll of an idle core that shows DONE = 0 goes on for ever (R69). -/
theorem stepN_idle_poll (n : Nat) {s : State} {gaps : List Gap} {rest : List Event} (he : s.events = .poll gaps :: rest)
    (hd : s.done = false) (hb : s.busy = false) : ∃ t, stepN (n + 1) s = .next t ∧ t.rdata.getLsbD 1 = false ∧
      t = { s with rdata := t.rdata, events := .poll (gaps.drop (n + 1)) :: rest } := by
  induction n generalizing s gaps with
  | zero =>
    rw [stepN, step_poll_idle he hd hb, andThen_next]
    exact ⟨_, rfl, (statusWord_done s _).trans hd, by simp⟩
  | succ n ih =>
    obtain ⟨t, hrun, hbit, ht⟩ :=
      ih (s := { s with rdata := statusWord s s.phase, events := .poll gaps.tail :: rest }) rfl hd hb
    rw [List.drop_tail] at ht
    rw [stepN, step_poll_idle he hd hb, andThen_next]
    exact ⟨t, hrun, hbit, ht⟩

/-- Settles O60. -/
theorem pollRepeatsUntilDone : Obligations.PollRepeatsUntilDone := by
  intro s gaps rest he
  refine ⟨fun hd => ?_, fun hd hb => ?_, fun hd hb n => stepN_idle_poll n he hd hb⟩
  · exact ⟨_, step_poll_done he hd, (hostReadReg_status_done _).trans hd, by rw [hostReadReg_frame]⟩
  · exact ⟨hostReadReg .status { s with events := rest }, (hostReadReg_status_done _).trans hd,
      by simp [hostReadReg, countDraw, hb], step_poll_again he hd⟩

/-! What the host reads and does next has no part in a command -/

/-- A state with other values in the fields of the host port that are the model's own (logs 3, 5, 6). -/
def withPort (r : Word) (n : Nat) (es : List Event) (s : State) : State :=
  { s with rdata := r, freeCount := n, events := es }

theorem engineStep_no_command {s : State} (hc : s.cur = none) : engineStep s = .next s := by
  cases hb : s.busy <;> simp [engineStep, hb, hc]

theorem runToCompletion_no_command {s : State} (hc : s.cur = none) : runToCompletion s = .next s := by
  cases hb : s.busy <;> simp [runToCompletion, hb, hc]

theorem runToCompletion_running {s : State} {c : Command} (hb : s.busy = true) (hc : s.cur = some c) :
    runToCompletion s = andThen (runOps c s.seq s) (fun t => .next (completeCommand c t)) := by
  simp [runToCompletion, hb, hc]

section
variable (r : Word) (n : Nat) (es : List Event)

theorem opEffect_withPort (c : Command) (op : SeqOp) (s : State) : opEffect c op (withPort r n es s) = opEffect c op s := by
  cases c with
  | digest v => cases op <;> rfl
  | enc v => cases op <;> rfl
  | dec v =>
    cases op with
    | dxText p j => cases p <;> rfl
    | _ => rfl
  | wipe => cases op <;> rfl

theorem completeCommand_withPort (c : Command) (s : State) :
    completeCommand c (withPort r n es s) = withPort r n es (completeCommand c s) := by
  cases c <;> rfl

theorem engineStep_withPort (s : State) : engineStep (withPort r n es s) = mapNext (withPort r n es) (engineStep s) := by
  cases hb : s.busy with
  | false => rw [engineStep_idle hb, engineStep_idle (s := withPort r n es s) hb]; rfl
  | true =>
    cases hc : s.cur with
    | none => rw [engineStep_no_command hc, engineStep_no_command (s := withPort r n es s) hc]; rfl
    | some c =>
      cases hs : s.seq with
      | nil =>
        rw [engineStep_done hb hc hs, engineStep_done (s := withPort r n es s) hb hc hs, completeCommand_withPort]
        rfl
      | cons op rest =>
        have he := opEffect_withPort r n es c op s
        cases h : opEffect c op s with
        | ok e => rw [engineStep_ok hb hc hs h, engineStep_ok (s := withPort r n es s) hb hc hs (he.trans h)]; rfl
        | error a => rw [engineStep_error hb hc hs h, engineStep_error (s := withPort r n es s) hb hc hs (he.trans h)]; rfl

theorem engineSteps_withPort (k : Nat) (s : State) :
    engineSteps k (withPort r n es s) = mapNext (withPort r n es) (engineSteps k s) := by
  induction k generalizing s with
  | zero => rfl
  | succ k ih =>
    rw [engineSteps, engineSteps, engineStep_withPort]
    cases engineStep s with
    | next t => exact ih t
    | fault r => rfl
    | refused r => rfl

theorem runOps_withPort (c : Command) (ops : List SeqOp) (s : State) :
    runOps c ops (withPort r n es s) = mapNext (withPort r n es) (runOps c ops s) := by
  induction ops generalizing s with
  | nil => rfl
  | cons op rest ih =>
    have he := opEffect_withPort r n es c op s
    cases h : opEffect c op s with
    | ok e => rw [runOps_cons_ok h, runOps_cons_ok (he.trans h)]; exact ih (applyEffect op rest e s)
    | error a => rw [runOps_cons_error h, runOps_cons_error (he.trans h)]; rfl

theorem runToCompletion_withPort (s : State) :
    runToCompletion (withPort r n es s) = mapNext (withPort r n es) (runToCompletion s) := by
  cases hb : s.busy with
  | false => rw [runToCompletion_idle hb, runToCompletion_idle (s := withPort r n es s) hb]; rfl
  | true =>
    cases hc : s.cur with
    | none => rw [runToCompletion_no_command hc, runToCompletion_no_command (s := withPort r n es s) hc]; rfl
    | some c =>
      have hops : runOps c (withPort r n es s).seq (withPort r n es s) = mapNext (withPort r n es) (runOps c s.seq s) :=
        runOps_withPort r n es c s.seq s
      rw [runToCompletion_running hb hc, runToCompletion_running (s := withPort r n es s) hb hc, hops]
      cases runOps c s.seq s with
      | next t => exact congrArg _ (completeCommand_withPort r n es c t)
      | fault e => rfl
      | refused e => rfl

theorem issue_withPort (i : Instr) (s : State) : issue i (withPort r n es s) = withPort r n es (issue i s) := by
  have hcheck : check i (withPort r n es s) = check i s := by cases i <;> rfl
  by_cases hc : check i s = .noError
  · rw [issue_accepted hc, issue_accepted (hcheck.trans hc)]
    cases i <;> rfl
  · rw [issue_rejected hc, issue_rejected (by rwa [hcheck]), hcheck]
    rfl

end

theorem issue_with_events (i : Instr) (s : State) (es : List Event) :
    issue i { s with events := es } = withPort s.rdata s.freeCount es (issue i s) :=
  issue_withPort s.rdata s.freeCount es i s

/-! A command on its way -/

/-- Whatever the host reads and does next, the core at u gets to the state e of an idle core with DONE = 1, and shows DONE = 1
when it is there and not before. -/
structure Approaches (e u : State) : Prop where
  idle : e.busy = false
  done : e.done = true
  result : runToCompletion u = .next (withPort u.rdata u.freeCount u.events e)
  shown : u.done = !u.busy

theorem Approaches.withPort {e u : State} (h : Approaches e u) (r : Word) (n : Nat) (es : List Event) :
    Approaches e (withPort r n es u) where
  idle := h.idle
  done := h.done
  result := by rw [runToCompletion_withPort, h.result]; rfl
  shown := h.shown

theorem Approaches.eq_of_done {e u : State} (h : Approaches e u) (hd : u.done = true) :
    u = Machine.withPort u.rdata u.freeCount u.events e := by
  have hb : u.busy = false := by simpa [hd] using h.shown
  have hr := h.result
  rw [runToCompletion_idle hb] at hr
  injection hr

theorem engineStep_shown {s t : State} (hs : s.done = !s.busy) (h : engineStep s = .next t) : t.done = !t.busy := by
  unfold engineStep at h
  split at h
  · split at h
    · cases h; rfl
    · split at h <;> cases h
      exact hs
  · cases h
    exact hs

theorem engineSteps_shown {k : Nat} {s t : State} (hs : s.done = !s.busy) (h : engineSteps k s = .next t) :
    t.done = !t.busy := by
  induction k generalizing s with
  | zero => cases h; exact hs
  | succ k ih =>
    obtain ⟨u, hu, ht⟩ := andThen_eq_next.mp h
    exact ih (engineStep_shown hs hu) ht

/-- The sequencer leaves the host's fields alone. -/
theorem engineSteps_frame {k : Nat} {s t : State} (h : engineSteps k s = .next t) :
    t.rdata = s.rdata ∧ t.freeCount = s.freeCount ∧ t.events = s.events := by
  have hp := engineSteps_withPort s.rdata s.freeCount s.events k s
  rw [h] at hp
  have ht : t = withPort s.rdata s.freeCount s.events t := Host.Outcome.next.inj (h.symm.trans hp)
  rw [ht]
  exact ⟨rfl, rfl, rfl⟩

theorem progress_eq_engineSteps (g : Gap) (s : State) : ∃ k, progress g s = engineSteps k s := by
  cases g with
  | steps k => exact ⟨k, rfl⟩
  | completes => exact runToCompletion_steps s

theorem Approaches.progress {e u : State} (h : Approaches e u) (g : Gap) :
    ∃ v, Machine.progress g u = .next v ∧ Approaches e v ∧ v.rdata = u.rdata ∧ v.events = u.events ∧ (u.done = true ∨ g = .completes → v.done = true) := by
  obtain ⟨k, hk⟩ := progress_eq_engineSteps g u
  obtain ⟨v, hv, hr⟩ := andThen_eq_next.mp ((runToCompletion_engineSteps k u).trans h.result)
  obtain ⟨hrd, hfc, hev⟩ := engineSteps_frame hv
  refine ⟨v, hk.trans hv, ⟨h.idle, h.done, by rw [hr, hrd, hfc, hev], engineSteps_shown h.shown hv⟩, hrd, hev, ?_⟩
  rintro (hd | rfl)
  · have hb : u.busy = false := by simpa [hd] using h.shown
    rw [engineSteps_idle hb] at hv
    cases hv
    exact hd
  · have hve : v = Machine.withPort u.rdata u.freeCount u.events e :=
      Host.Outcome.next.inj ((hk.trans hv).symm.trans h.result)
    rw [hve]
    exact h.done

/-- A command that has been issued is on the way to what its meaning gives (R121). -/
theorem approaches_of_exec {i : Instr} {s e : State} (hb : s.busy = false) (h : exec i s = .next e) (es : List Event) :
    Approaches e (issue i { s with events := es }) := by
  rw [issue_with_events]
  have hover : e.busy = false ∧ e.done = true := by
    rcases exec_next_cases hb h with ⟨-, rfl⟩ | ⟨-, u, -, rfl⟩
    · exact ⟨hb, rfl⟩
    · exact ⟨rfl, rfl⟩
  have hresult : runToCompletion (issue i s) = .next e := by
    rwa [exec_eq, runCommand, if_neg (by simp [hb])] at h
  obtain ⟨k, hk⟩ := runToCompletion_steps (issue i s)
  obtain ⟨hrd, hfc, hev⟩ := engineSteps_frame (hk.symm.trans hresult)
  have hshown : (issue i s).done = !(issue i s).busy := by
    by_cases hc : check i s = .noError
    · rw [issue_accepted hc]; rfl
    · rw [issue_rejected hc]; simp [hb]
  refine Approaches.withPort ⟨hover.1, hover.2, ?_, hshown⟩ _ _ _
  rw [hresult, ← hrd, ← hfc, ← hev]
  rfl

/-! The reads of a poll -/

/-- The state s polls: n reads, the last of which shows DONE = 1 and leaves e, each before it DONE = 0 with the poll still the
next event. -/
structure PollEnds (e : State) (rest : List Event) (n : Nat) (s : State) : Prop where
  last : ∃ t, stepN n s = .next t ∧ t.rdata.getLsbD 1 = true ∧
    t = { e with rdata := t.rdata, freeCount := t.freeCount, events := rest }
  before : ∀ m, 1 ≤ m → m < n → ∃ u left, stepN m s = .next u ∧ u.rdata.getLsbD 1 = false ∧ u.events = .poll left :: rest

theorem stepN_succ {s t : State} (h : step s = .next t) (n : Nat) : stepN (n + 1) s = stepN n t := by
  rw [stepN, h, andThen_next]

theorem PollEnds.again {e : State} {rest : List Event} {n : Nat} {s t : State} {left : List Gap} (h : PollEnds e rest n t)
    (hstep : step s = .next t) (hbit : t.rdata.getLsbD 1 = false) (hev : t.events = .poll left :: rest) :
    PollEnds e rest (n + 1) s where
  last := by rw [stepN_succ hstep]; exact h.last
  before m h1 hm := by
    obtain ⟨m, rfl⟩ := Nat.exists_eq_succ_of_ne_zero (Nat.one_le_iff_ne_zero.mp h1)
    rw [stepN_succ hstep]
    cases m with
    | zero => exact ⟨t, left, rfl, hbit, hev⟩
    | succ m => exact h.before (m + 1) (by omega) (by omega)

/-- A read of STATUS changes the fields of the host port only, and shows DONE. -/
theorem statusRead_eq_withPort (s : State) (rest : List Event) :
    ∃ r n, hostReadReg .status { s with events := rest } = withPort r n rest s ∧ r.getLsbD 1 = s.done :=
  ⟨_, _, hostReadReg_frame _ _, statusWord_done _ _⟩

section
variable {e s : State} {gaps : List Gap} {rest : List Event}

theorem Approaches.poll_done (h : Approaches e s) (he : s.events = .poll gaps :: rest) (hd : s.done = true) :
    PollEnds e rest 1 s where
  last := by
    obtain ⟨r, n, hread, hbit⟩ := statusRead_eq_withPort s rest
    refine ⟨Machine.withPort r n rest s, stepN_succ ((step_poll_done he hd).trans (congrArg _ hread)) 0,
      hbit.trans hd, ?_⟩
    rw [h.eq_of_done hd]
    rfl
  before m h1 hm := by omega

/-- A read that shows DONE = 0: the poll goes on, and the core is done once the gaps are used up (log 18). -/
theorem Approaches.poll_again (h : Approaches e s) (he : s.events = .poll gaps :: rest) (hd : s.done = false) :
    ∃ t, step s = .next t ∧ t.rdata.getLsbD 1 = false ∧ t.events = .poll gaps.tail :: rest ∧ Approaches e t ∧
      (gaps = [] → t.done = true) := by
  obtain ⟨r, n, hread, hbit⟩ := statusRead_eq_withPort s rest
  obtain ⟨v, hv, hap, hrd, -, hdone⟩ := (h.withPort r n rest).progress (gaps.headD .completes)
  have hstep := step_poll_again he hd
  rw [hread, hv] at hstep
  refine ⟨_, hstep, ?_, rfl, hap.withPort v.rdata v.freeCount (.poll gaps.tail :: rest), fun hg => ?_⟩
  · exact (congrArg (·.getLsbD 1) hrd).trans (hbit.trans hd)
  · exact hdone (.inr (by rw [hg]; rfl))

theorem Approaches.poll (h : Approaches e s) (he : s.events = .poll gaps :: rest) : ∃ n, 1 ≤ n ∧ n ≤ gaps.length + 2 ∧
    (s.done = true → n = 1) ∧ PollEnds e rest n s := by
  induction gaps generalizing s with
  | nil =>
    cases hd : s.done with
    | true => exact ⟨1, le_rfl, by omega, fun _ => rfl, h.poll_done he hd⟩
    | false =>
      obtain ⟨t, hstep, hbit, hev, hap, hdone⟩ := h.poll_again he hd
      exact ⟨2, by omega, le_rfl, nofun, (hap.poll_done hev (hdone rfl)).again hstep hbit hev⟩
  | cons g gaps ih =>
    cases hd : s.done with
    | true => exact ⟨1, le_rfl, by omega, fun _ => rfl, h.poll_done he hd⟩
    | false =>
      obtain ⟨t, hstep, hbit, hev, hap, -⟩ := h.poll_again he hd
      obtain ⟨n, h1, hn, -, hends⟩ := ih hap hev
      exact ⟨n + 1, by omega, by rw [List.length_cons]; omega, nofun, hends.again hstep hbit hev⟩

end

/-- Settles O45. -/
theorem runScriptEndsWithDone : Obligations.RunScriptEndsWithDone := by
  intro i s e first gaps rest hwf hb he
  obtain ⟨v, hv, hap, -, hev, hdone⟩ := (approaches_of_exec hb he (.poll gaps :: rest)).progress first
  have hstep : step { s with events := ScriptLine.events (.run i first gaps) ++ rest } = .next v := by
    rw [← hv, ← commandAccess_ok (decodeEncodeRoundTrip i hwf) (s := { s with events := .poll gaps :: rest }) hb]
    exact accessStep_command (isCommandWrite_commandWrite _) (s := { s with events := .poll gaps :: rest }) hb first
  rw [issue_with_events] at hev hdone
  obtain ⟨n, h1, hn, hfirst, ⟨t, ht, hbit, hte⟩, hbefore⟩ := hap.poll hev
  refine ⟨n + 1, t, by omega, by omega, fun hc => ?_, (stepN_succ hstep n).trans ht, hbit, hte, fun m h2 hm => ?_⟩
  · have hrej : (issue i s).done = true := by rw [issue_rejected hc]; rfl
    rw [hfirst (hdone (.inl hrej))]
  · obtain ⟨m, rfl⟩ := Nat.exists_eq_add_of_le' (show 1 ≤ m by omega)
    rw [stepN_succ hstep]
    exact hbefore m (by omega) (by omega)

end Sys2Proof.Machine
end

section
/-! Settling O46 to O49: the layers of a round, bit by bit (40_permutation.md R73, R76, R79), and p^n as a bijection (R71).
Each layer is injective, so p^n is, and the states are finitely many. pS is injective because the S-box is; pL is because a
line of R79, taken 64 times, is a line whose two amounts are multiples of 64. -/

namespace Sys2Proof.Machine

/-! pC (R73, R74) -/

theorem constant_eq_mul_add {i : Nat} (hi : i < 12) : (4 + i) <<< 4 ||| (11 - i) = (4 + i) * 16 + (11 - i) := by
  rw [← Nat.shiftLeft_add_eq_or_of_lt (by omega), Nat.shiftLeft_eq]

theorem roundConstant_getLsbD {i : Nat} (hi : i < 12) (j : Nat) :
    (roundConstant i).getLsbD j = (decide (j < 8) && ((4 + i) <<< 4 ||| (11 - i)).testBit j) := by
  rw [constant_eq_mul_add hi, roundConstant, BitVec.getLsbD_ofNat]
  by_cases hj : j < 8
  · simp [hj, show j < 64 by omega]
  · have hlt : (4 + i) * 16 + (11 - i) < 2 ^ 8 := by omega
    have hbit := Nat.testBit_lt_two_pow (hlt.trans_le (Nat.pow_le_pow_right (by decide) (Nat.le_of_not_lt hj)))
    rw [hbit, Bool.and_false, Bool.and_false]

/-- Settles O48: the constant is one byte. -/
theorem constantAdditionBits : Obligations.ConstantAdditionBits := by
  intro x i hi
  refine ⟨rfl, fun j => ?_⟩
  rw [← roundConstant_getLsbD hi, ← BitVec.getLsbD_xor]
  rfl

theorem pC_pC (x : PState) (i : Nat) : pC (pC x i) i = x := by
  simp [pC]

theorem pC_injective (i : Nat) : Function.Injective (pC · i) :=
  Function.LeftInverse.injective (g := (pC · i)) (pC_pC · i)

/-! pS (R75 to R77) -/

/-- A number below 32 has one way to be written with five bits. -/
theorem bits_eq_of_column_eq {x y : PState} {j : Nat} (h : column x j = column y j) :
    x.x0.getLsbD j = y.x0.getLsbD j ∧ x.x1.getLsbD j = y.x1.getLsbD j ∧ x.x2.getLsbD j = y.x2.getLsbD j ∧
      x.x3.getLsbD j = y.x3.getLsbD j ∧ x.x4.getLsbD j = y.x4.getLsbD j := by
  have lt (w : Lane) : (w.getLsbD j).toNat < 2 := Bool.toNat_lt _
  have hx1 := lt x.x1; have hx2 := lt x.x2; have hx3 := lt x.x3; have hx4 := lt x.x4
  have hy1 := lt y.x1; have hy2 := lt y.x2; have hy3 := lt y.x3; have hy4 := lt y.x4
  have inj : Function.Injective Bool.toNat := Function.LeftInverse.injective Bool.ofNat_toNat
  rw [column, column] at h
  refine ⟨inj ?_, inj ?_, inj ?_, inj ?_, inj ?_⟩ <;> omega

theorem eq_of_column_eq {x y : PState} (h : ∀ j < 64, column x j = column y j) : x = y := by
  choose h0 h1 h2 h3 h4 using fun j hj => bits_eq_of_column_eq (h j hj)
  obtain ⟨x0, x1, x2, x3, x4⟩ := x
  obtain ⟨y0, y1, y2, y3, y4⟩ := y
  rw [PState.mk.injEq]
  exact ⟨BitVec.eq_of_getLsbD_eq h0, BitVec.eq_of_getLsbD_eq h1, BitVec.eq_of_getLsbD_eq h2,
    BitVec.eq_of_getLsbD_eq h3, BitVec.eq_of_getLsbD_eq h4⟩

/-- R75 is five Boolean formulas in the five bits of a column, so the 32 values of a column are all there is to check. -/
theorem sboxTable_column (x : PState) {j : Nat} (hj : j < 64) : sboxTable[column x j]? = some (column (pS x) j) := by
  simp only [column, pS, pSFirst, pSMiddle, pSLast, BitVec.getLsbD_xor, BitVec.getLsbD_and, BitVec.getLsbD_not, hj,
    decide_true, Bool.true_and]
  generalize x.x0.getLsbD j = b0, x.x1.getLsbD j = b1, x.x2.getLsbD j = b2, x.x3.getLsbD j = b3, x.x4.getLsbD j = b4
  revert b0 b1 b2 b3 b4
  decide

theorem sboxTable_perm_range : List.Perm sboxTable (List.range 32) := by decide

/-- Settles O47. -/
theorem sboxActsOnColumns : Obligations.SboxActsOnColumns :=
  ⟨fun x _ hj => sboxTable_column x hj, sboxTable_perm_range⟩

theorem pS_injective : Function.Injective pS := by
  intro x y h
  refine eq_of_column_eq fun j hj => ?_
  have hnodup : sboxTable.Nodup := sboxTable_perm_range.nodup_iff.mpr List.nodup_range
  have hlt := (List.getElem?_eq_some_iff.mp (sboxTable_column x hj)).1
  rw [← List.getElem?_inj hlt hnodup, sboxTable_column x hj, sboxTable_column y hj, h]

/-! pL (R79) -/

theorem getLsbD_rotateRight_mod (w : Lane) (m : Nat) {j : Nat} (hj : j < 64) :
    (w.rotateRight m).getLsbD j = w.getLsbD ((j + m) % 64) := by
  rw [BitVec.getLsbD_rotateRight]
  by_cases hwrap : j < 64 - m % 64
  · simp only [hwrap, decide_true, cond_true]
    congr 1
    omega
  · simp only [hwrap, hj, decide_false, decide_true, cond_false, Bool.true_and]
    congr 1
    omega

theorem diffuse_getLsbD (w : Lane) (m n : Nat) {j : Nat} (hj : j < 64) :
    (diffuse w m n).getLsbD j = (w.getLsbD j ^^ w.getLsbD ((j + m) % 64) ^^ w.getLsbD ((j + n) % 64)) := by
  rw [diffuse, BitVec.getLsbD_xor, BitVec.getLsbD_xor, getLsbD_rotateRight_mod w m hj, getLsbD_rotateRight_mod w n hj]

/-- Settles O49, word by word. -/
theorem diffusionBits : Obligations.DiffusionBits := fun x _ hj =>
  ⟨diffuse_getLsbD x.x0 19 28 hj, diffuse_getLsbD x.x1 61 39 hj, diffuse_getLsbD x.x2 1 6 hj,
    diffuse_getLsbD x.x3 10 17 hj, diffuse_getLsbD x.x4 7 41 hj⟩

/-- A line taken twice: every mixed rotation occurs twice and cancels, as in the square of 1 + X^m + X^n over two elements. -/
theorem diffuse_diffuse (w : Lane) (m n : Nat) : diffuse (diffuse w m n) m n = diffuse w (2 * m) (2 * n) := by
  refine BitVec.eq_of_getLsbD_eq fun j hj => ?_
  have hlt (a : Nat) : (j + a) % 64 < 64 := Nat.mod_lt _ (by decide)
  have hadd (a b c : Nat) (h : a + b = c) : ((j + a) % 64 + b) % 64 = (j + c) % 64 := by omega
  simp only [diffuse_getLsbD _ _ _ hj, diffuse_getLsbD _ _ _ (hlt _)]
  rw [hadd m m (2 * m) (by omega), hadd m n (m + n) rfl, hadd n m (m + n) (by omega), hadd n n (2 * n) (by omega)]
  generalize w.getLsbD j = b, w.getLsbD ((j + m) % 64) = bm, w.getLsbD ((j + n) % 64) = bn,
    w.getLsbD ((j + (m + n)) % 64) = bmn, w.getLsbD ((j + 2 * m) % 64) = b2m, w.getLsbD ((j + 2 * n) % 64) = b2n
  revert b bm bn bmn b2m b2n
  decide

theorem diffuse_iterate_two_pow (m n k : Nat) :
    (diffuse · m n)^[2 ^ k] = (diffuse · (2 ^ k * m) (2 ^ k * n)) := by
  induction k with
  | zero => simp
  | succ k ih =>
    funext w
    rw [Nat.pow_succ, Function.iterate_mul, ih]
    exact (diffuse_diffuse w (2 ^ k * m) (2 ^ k * n)).trans (by congr 1 <;> ring)

theorem diffuse_iterate_64 (m n : Nat) : (diffuse · m n)^[64] = id := by
  funext w
  rw [show 64 = 2 ^ 6 from rfl, diffuse_iterate_two_pow m n 6]
  refine BitVec.eq_of_getLsbD_eq fun j hj => ?_
  simp [diffuse_getLsbD w _ _ hj, Nat.mod_eq_of_lt hj]

theorem diffuse_injective (m n : Nat) : Function.Injective (diffuse · m n) := by
  refine Function.Injective.of_comp (f := (diffuse · m n)^[63]) ?_
  rw [← Function.iterate_succ, diffuse_iterate_64]
  exact Function.injective_id

theorem pL_injective : Function.Injective pL := by
  rintro ⟨x0, x1, x2, x3, x4⟩ ⟨y0, y1, y2, y3, y4⟩ h
  simp only [pL, PState.mk.injEq] at h ⊢
  obtain ⟨h0, h1, h2, h3, h4⟩ := h
  exact ⟨diffuse_injective 19 28 h0, diffuse_injective 61 39 h1, diffuse_injective 1 6 h2, diffuse_injective 10 17 h3,
    diffuse_injective 7 41 h4⟩

/-! p^n (R70 to R72) -/

theorem permRound_injective (i : Nat) : Function.Injective (permRound · i) :=
  pL_injective.comp (pS_injective.comp (pC_injective i))

theorem permute_injective (n : Nat) : Function.Injective (permute · n) := by
  induction n with
  | zero => exact Function.injective_id
  | succ n ih => exact ih.comp (permRound_injective n)

theorem finite_pState : Finite PState := by
  refine Finite.of_injective (fun x : PState => (x.x0, x.x1, x.x2, x.x3, x.x4)) ?_
  rintro ⟨x0, x1, x2, x3, x4⟩ ⟨y0, y1, y2, y3, y4⟩ h
  simpa using h

/-- Settles O46: an injection of finitely many states into themselves is onto. -/
theorem permuteIsBijective : Obligations.PermuteIsBijective := by
  intro n _
  have := finite_pState
  exact Finite.injective_iff_bijective.mp (permute_injective n)

end Sys2Proof.Machine
end

section
/-! Settling O11 to O13, O54 and O55: the DIGEST commands (41_sponge.md R90 to R94), the padding (R83) and the squeezing (R86,
R88). The five commands are one rule, `exec_digestInstr`. -/

namespace Sys2Proof.Machine

/-! The DIGEST commands (R90 to R94) -/

theorem digestInstr_command (v : SpongeVariant) : (digestInstr v).command = .digest v := by cases v <;> rfl

/-- A DIGEST command has no check but that of its regions (60_exceptions.md R126). -/
theorem check_digestInstr {v : SpongeVariant} {s : State} (hr : regionsInRange (.digest v) s = true) :
    check (digestInstr v) s = .noError := by
  have hlen : lengthCheck (digestInstr v) = .noError := by cases v <;> rfl
  simp [check, hlen, digestInstr_command, hr, overlapChecked]

theorem inRange_eq_true {size : Nat} {r : Region} : inRange size r = true ↔ r.2 = 0 ∨ r.1 + r.2 ≤ size := by
  simp [inRange]

/-- The regions of a DIGEST command (60_exceptions.md R131): CXOF has one more. -/
theorem digest_regionsInRange {v : SpongeVariant} {s : State}
    (ha : v = .cxof → fits s s.aAddr.toNat s.aLen.toNat) (hm : fits s s.mAddr.toNat s.mLen.toNat)
    (hd : fits s s.dAddr.toNat (digestLen v s)) : regionsInRange (.digest v) s = true := by
  have hm' : inRange s.dmemSize.bytes (mRegion s) = true := inRange_eq_true.mpr hm
  have hd' : inRange s.dmemSize.bytes (outputRegion (.digest v) s) = true := inRange_eq_true.mpr hd
  cases v with
  | cxof =>
    have ha' : inRange s.dmemSize.bytes (aRegion s) = true := inRange_eq_true.mpr (ha rfl)
    simp [regionsInRange, regions, ha', hm', hd']
  | _ => simp [regionsInRange, regions, hm', hd']

/-- A DIGEST command whose regions are in range and readable completes, with the output of the sponge function in D. -/
theorem exec_digestInstr {v : SpongeVariant} {s : State} {M Z : Bytes} (hb : s.busy = false)
    (hr : regionsInRange (.digest v) s = true)
    (hM : Memory.readBytes s.dmem s.mAddr.toNat s.mLen.toNat = .ok M)
    (hZ : v = .cxof → Memory.readBytes s.dmem s.aAddr.toNat s.aLen.toNat = .ok Z) :
    exec (digestInstr v) s =
      .next { finished (digestInstr v) .spDone s with
        dmem := Memory.writeBytes s.dmem s.dAddr.toNat (sponge v M Z (digestLen v s)) } := by
  obtain ⟨xf, hrun⟩ := run_digest v (accept (.digest v) { s with cmdLast := encode (digestInstr v) }) M Z hM hZ
  rw [exec_eq, runCommand_accepted hb (check_digestInstr hr), digestInstr_command]
  exact congrArg (andThen · fun t => .next (completeCommand (.digest v) t)) hrun

/-- Settles O11: HASH and HASHA of `exec_digestInstr`. -/
theorem hashAndHashaComplete : Obligations.HashAndHashaComplete := fun _ _ hb hm hd hM =>
  ⟨exec_digestInstr (v := .hash) hb (digest_regionsInRange nofun hm (.inr hd)) hM nofun,
    exec_digestInstr (v := .hasha) hb (digest_regionsInRange nofun hm (.inr hd)) hM nofun⟩

/-- Settles O12: XOF and XOFA of `exec_digestInstr`. -/
theorem xofAndXofaComplete : Obligations.XofAndXofaComplete := fun _ _ hb hm hd hM =>
  ⟨exec_digestInstr (v := .xof) hb (digest_regionsInRange nofun hm hd) hM nofun,
    exec_digestInstr (v := .xofa) hb (digest_regionsInRange nofun hm hd) hM nofun⟩

/-- Settles O13: CXOF of `exec_digestInstr`. -/
theorem cxofCompletes : Obligations.CxofCompletes := fun _ _ _ hb ha hm hd hM hZ =>
  exec_digestInstr (v := .cxof) hb (digest_regionsInRange (fun _ => ha) hm hd) hM fun _ => hZ

/-! Padding (R83) -/

theorem pad_length (P : Profile) (D : Bytes) (r : Nat) : (pad P D r).length = D.length / r + 1 := by simp [pad]

theorem paddedBlock_length (P : Profile) {r : Nat} {B : Bytes} (h : B.length ≤ r) : (paddedBlock P r B).length = r := by
  unfold paddedBlock
  split
  · simp only [padFinal, List.length_append, List.length_cons, zeros_length]
    omega
  · omega

theorem length_of_mem_pad {P : Profile} {D B : Bytes} {r : Nat} (hr : 0 < r) (h : B ∈ pad P D r) : B.length = r := by
  rw [pad_eq_map P D hr] at h
  obtain ⟨j, -, rfl⟩ := List.mem_map.mp h
  exact paddedBlock_length P (by simp)

/-- Consecutive slices of r bytes, one after the other, are the beginning of the string. -/
theorem flatten_slices (D : Bytes) (r n : Nat) :
    ((List.range n).map fun j => slice D (j * r) r).flatten = D.take (n * r) := by
  induction n with
  | zero => simp
  | succ n ih =>
    rw [List.range_succ, List.map_append, List.flatten_append, ih, Nat.succ_mul, List.take_add]
    simp [slice]

theorem pad_flatten (P : Profile) (D : Bytes) (r : Nat) :
    (pad P D r).flatten = D ++ padByte P :: zeros (r - 1 - D.length % r) := by
  have htail : (D.drop (D.length / r * r)).length = D.length % r := by
    rw [List.length_drop, Nat.mod_eq_sub_div_mul]
  calc (pad P D r).flatten
      = D.take (D.length / r * r) ++ padFinal P r (D.drop (D.length / r * r)) := by
        simp [pad, flatten_slices]
    _ = D ++ padByte P :: zeros (r - 1 - D.length % r) := by
        rw [padFinal, htail, ← List.append_assoc, List.take_append_drop]

/-- Settles O54: the sequencer pads each block to r bytes, and the full blocks are the beginning of D. -/
theorem paddingBlocks : Obligations.PaddingBlocks := fun P D r hr =>
  ⟨pad_length P D r, fun _ => length_of_mem_pad hr, by rw [pad_flatten]; cases P <;> rfl⟩

/-! Squeezing (R86, R88) -/

theorem squeezeLoop_succ (v : SpongeVariant) (n : Nat) (x : PState) : squeezeLoop v (n + 1) x =
    rateBytes (spongeConfig v).profile x 8 ++ squeezeLoop v n (permute x (spongeConfig v).b) := by
  rw [squeezeLoop, spongeRate]

theorem squeezeLoop_length (v : SpongeVariant) (n : Nat) (x : PState) : (squeezeLoop v n x).length = n * 8 := by
  induction n generalizing x with
  | zero => rfl
  | succ n ih => rw [squeezeLoop_succ, List.length_append, ih, rateBytes_length]; omega

/-- More reads of the rate begin as fewer do. -/
theorem squeezeLoop_extends (v : SpongeVariant) {m n : Nat} (h : m ≤ n) (x : PState) :
    squeezeLoop v m x <+: squeezeLoop v n x := by
  induction m generalizing n x with
  | zero => exact ⟨_, rfl⟩
  | succ m ih =>
    obtain ⟨n, rfl⟩ := Nat.exists_eq_add_of_le' (show 1 ≤ n by omega)
    obtain ⟨more, hmore⟩ := ih (n := n) (by omega) (permute x (spongeConfig v).b)
    exact ⟨more, by rw [squeezeLoop_succ, squeezeLoop_succ, List.append_assoc, hmore]⟩

theorem le_squeezeReads (L : Nat) : L ≤ squeezeReads 8 L * 8 := by
  unfold squeezeReads
  omega

theorem squeezeReads_mono {m n : Nat} (h : m ≤ n) : squeezeReads 8 m ≤ squeezeReads 8 n := by
  unfold squeezeReads
  omega

theorem squeeze_length (v : SpongeVariant) (x : PState) (L : Nat) : (squeeze v x L).length = L := by
  rw [squeeze, spongeRate, List.length_take, squeezeLoop_length, Nat.min_eq_left (le_squeezeReads L)]

theorem take_squeeze (v : SpongeVariant) (x : PState) {m n : Nat} (h : m ≤ n) :
    (squeeze v x n).take m = squeeze v x m := by
  obtain ⟨more, hmore⟩ := squeezeLoop_extends v (squeezeReads_mono h) x
  rw [squeeze, squeeze, spongeRate, List.take_take, Nat.min_eq_left h, ← hmore,
    List.take_append_of_le_length (by rw [squeezeLoop_length]; exact le_squeezeReads m)]

/-- Settles O55: the state that is squeezed does not depend on the output length. -/
theorem spongePrefixConsistency : Obligations.SpongePrefixConsistency := fun v _ _ _ _ h =>
  ⟨take_squeeze v _ h, squeeze_length v _ _⟩

end Sys2Proof.Machine
end

section
/-! Settling O56 to O58: Decrypt undoes Encrypt, and any other tag gives zeros (42_duplex.md R102, R105 to R107). A text is
taken apart block by block: full blocks, then the final partial one (R99). -/

namespace Sys2Proof.Machine

/-! Verification (R102) -/

theorem foldl_or_eq_zero {B : Bytes} {d : Byte} : B.foldl (fun diff b => diff ||| b) d = 0 ↔ d = 0 ∧ ∀ b ∈ B, b = 0 := by
  induction B generalizing d with
  | nil => simp
  | cons b B ih =>
    have hor : d ||| b = 0 ↔ d = 0 ∧ b = 0 := BitVec.or_eq_zero_iff
    rw [List.foldl_cons, ih, hor, List.forall_mem_cons, and_assoc]

theorem xorBytes_all_zero_iff {A B : Bytes} (h : A.length = B.length) : (∀ b ∈ xorBytes A B, b = 0) ↔ A = B := by
  induction A generalizing B with
  | nil => simp [xorBytes, List.length_eq_zero_iff.mp h.symm]
  | cons a A ih =>
    cases B with
    | nil => cases h
    | cons b B =>
      have hxor : a ^^^ b = 0 ↔ a = b := BitVec.xor_eq_zero_iff
      rw [List.cons.injEq, ← ih (Nat.succ.inj h), ← hxor]
      exact List.forall_mem_cons

/-- Tags of the same length pass exactly when they are equal. -/
theorem verifyTag_iff {T' T : Bytes} (h : T'.length = T.length) : verifyTag T' T = true ↔ T' = T := by
  rw [verifyTag, beq_iff_eq, foldl_or_eq_zero, xorBytes_all_zero_iff h]
  exact and_iff_right rfl

/-- Settles O57. -/
theorem verifyTagIffEqual : Obligations.VerifyTagIffEqual := fun _ _ hT hT' => verifyTag_iff (hT'.trans hT.symm)

/-! A text as its blocks (R99) -/

/-- A byte string is a block shorter than r, or a block of r bytes before another string. -/
theorem block_induction {r : Nat} (hr : 0 < r) {motive : Bytes → Prop} (last : ∀ B, B.length < r → motive B)
    (full : ∀ B D, B.length = r → motive D → motive (B ++ D)) (D : Bytes) : motive D := by
  induction hn : D.length using Nat.strong_induction_on generalizing D with
  | _ n ih =>
    by_cases h : D.length < r
    · exact last D h
    · rw [← List.take_append_drop r D]
      refine full _ _ (List.length_take_of_le (by omega)) (ih (D.length - r) (by omega) _ List.length_drop)

theorem textBlocks_short {r : Nat} {B : Bytes} (h : B.length < r) : textBlocks r B = [B] := by
  have hslice : slice B 0 r = B := List.take_of_length_le h.le
  simp [textBlocks, Nat.div_eq_of_lt h, hslice]

theorem textBlocks_append {r : Nat} (hr : 0 < r) {B : Bytes} (h : B.length = r) (D : Bytes) :
    textBlocks r (B ++ D) = B :: textBlocks r D := by
  have hcount : (B ++ D).length / r + 1 = D.length / r + 1 + 1 := by
    rw [List.length_append, h, Nat.add_div_left _ hr]
  have hfirst : slice (B ++ D) (0 * r) r = B := by
    rw [Nat.zero_mul, slice, List.drop_zero, List.take_left' h]
  have hlater (j : Nat) : slice (B ++ D) ((j + 1) * r) r = slice D (j * r) r := by
    rw [slice, slice, Nat.succ_mul, Nat.add_comm, ← List.drop_drop, List.drop_left' h]
  simp only [textBlocks, hcount, List.range_succ_eq_map (n := D.length / r + 1), List.map_cons, List.map_map, hfirst]
  exact congrArg (B :: ·) (List.map_congr_left fun j _ => hlater j)

section
variable (v : DuplexVariant) (x : PState)

theorem encryptText_cons (p : Bytes) (ps : List Bytes) : encryptText v x (p :: ps) =
    (encryptBlock v x p ++ (encryptText v (absorbCipher v x (encryptBlock v x p)) ps).1,
      (encryptText v (absorbCipher v x (encryptBlock v x p)) ps).2) := rfl

theorem decryptText_cons (c : Bytes) (cs : List Bytes) : decryptText v x (c :: cs) =
    (decryptBlock v x c ++ (decryptText v (absorbCipher v x c) cs).1, (decryptText v (absorbCipher v x c) cs).2) := rfl

theorem encryptText_singleton (p : Bytes) :
    encryptText v x [p] = (encryptBlock v x p, absorbCipher v x (encryptBlock v x p)) := by
  simp [encryptText]

theorem decryptText_singleton (c : Bytes) : decryptText v x [c] = (decryptBlock v x c, absorbCipher v x c) := by
  simp [decryptText]

end

theorem encryptText_length (v : DuplexVariant) (x : PState) (P : Bytes) :
    (encryptText v x (textBlocks (duplexConfig v).rate P)).1.length = P.length := by
  induction P using block_induction (duplexRate_pos v) generalizing x with
  | last B h => rw [textBlocks_short h, encryptText_singleton, encryptBlock_length h.le]
  | full B D h ih =>
    rw [textBlocks_append (duplexRate_pos v) h, encryptText_cons, List.length_append, List.length_append, ih,
      encryptBlock_length h.le]

theorem decryptText_length (v : DuplexVariant) (x : PState) (C : Bytes) :
    (decryptText v x (textBlocks (duplexConfig v).rate C)).1.length = C.length := by
  induction C using block_induction (duplexRate_pos v) generalizing x with
  | last B h => rw [textBlocks_short h, decryptText_singleton, decryptBlock_length h.le]
  | full B D h ih =>
    rw [textBlocks_append (duplexRate_pos v) h, decryptText_cons, List.length_append, List.length_append, ih,
      decryptBlock_length h.le]

/-! Decryption undoes encryption (R106) -/

theorem xorBytes_xorBytes {A B : Bytes} (h : A.length = B.length) : xorBytes A (xorBytes A B) = B := by
  induction A generalizing B with
  | nil => exact (List.length_eq_zero_iff.mp h.symm).symm
  | cons a A ih =>
    cases B with
    | nil => cases h
    | cons b B =>
      have hxor : a ^^^ (a ^^^ b) = b := by rw [← BitVec.xor_assoc, BitVec.xor_self, BitVec.zero_xor]
      exact congrArg₂ List.cons hxor (ih (Nat.succ.inj h))

theorem decryptBlock_encryptBlock {v : DuplexVariant} (x : PState) {p : Bytes} (h : p.length ≤ (duplexConfig v).rate) :
    decryptBlock v x (encryptBlock v x p) = p := by
  rw [decryptBlock, encryptBlock_length h, encryptBlock, xorBytes_xorBytes]
  rw [keystream_length, Nat.min_eq_left h]

/-- The ciphertext phase gives the plaintext back, and leaves the state that the plaintext phase left: both follow the
ciphertext (R99, R100). -/
theorem decryptText_encryptText (v : DuplexVariant) (x : PState) (P : Bytes) :
    decryptText v x (textBlocks (duplexConfig v).rate (encryptText v x (textBlocks (duplexConfig v).rate P)).1) =
      (P, (encryptText v x (textBlocks (duplexConfig v).rate P)).2) := by
  induction P using block_induction (duplexRate_pos v) generalizing x with
  | last B h =>
    have hc := encryptBlock_length (x := x) h.le
    rw [textBlocks_short h, encryptText_singleton, textBlocks_short (hc.trans_lt h), decryptText_singleton,
      decryptBlock_encryptBlock x h.le]
  | full B D h ih =>
    have hc := encryptBlock_length (x := x) h.le
    rw [textBlocks_append (duplexRate_pos v) h, encryptText_cons, textBlocks_append (duplexRate_pos v) (hc.trans h),
      decryptText_cons, ih, decryptBlock_encryptBlock x h.le]

section
variable (v : DuplexVariant) (K N A : Bytes)

theorem encrypt_text_length (P : Bytes) : (encrypt v K N A P).1.length = P.length := encryptText_length v _ P

/-- Decrypting a ciphertext verifies the tag that encrypting gave. -/
theorem decrypt_encrypt (P T : Bytes) : decrypt v K N A (encrypt v K N A P).1 T =
    (verifyTag (encrypt v K N A P).2 T, if verifyTag (encrypt v K N A P).2 T then P else zeros P.length) := by
  have hlen := encrypt_text_length v K N A P
  rw [decrypt, hlen, encrypt]
  dsimp only
  rw [decryptText_encryptText]

theorem decrypt_of_not_verified {C T : Bytes} (h : (decrypt v K N A C T).1 = false) :
    (decrypt v K N A C T).2 = zeros C.length :=
  if_neg (ne_true_of_eq_false h)

theorem decrypt_length (C T : Bytes) : (decrypt v K N A C T).2.length = C.length := by
  simp only [decrypt]
  split
  · exact decryptText_length v _ C
  · exact zeros_length _

end

/-- Settles O56. -/
theorem decryptInvertsEncrypt : Obligations.DecryptInvertsEncrypt := by
  intro v K N A P
  rw [decrypt_encrypt, (verifyTag_iff rfl).mpr rfl]
  rfl

/-! A wrong tag (R107) -/

theorem encrypt_tag_length {v : DuplexVariant} {K : Bytes} (hK : K.length = (duplexConfig v).keyLen) (N A P : Bytes) :
    (encrypt v K N A P).2.length = 16 := by
  simp only [encrypt, tagOf, xorBytes_length, List.length_drop, ser_length, hK]
  cases v <;> rfl

theorem keyLen_eq (v : DuplexVariant) : (duplexConfig v).keyLen = if v = .aead80pq then 20 else 16 := by cases v <;> rfl

/-- Settles O58. -/
theorem wrongTagGivesZeros : Obligations.WrongTagGivesZeros := by
  intro v K N A P T hK hT hne
  have htag := encrypt_tag_length (hK.trans (keyLen_eq v).symm) N A P
  have hbad : verifyTag (encrypt v K N A P).2 T = false := by
    rw [← Bool.not_eq_true, verifyTag_iff (htag.trans hT.symm)]
    exact hne.symm
  rw [decrypt_encrypt, hbad]
  rfl

end Sys2Proof.Machine
end

section
/-! Settling O52: where the key goes in the words of the state (42_duplex.md R96, R101). A string of 40 bytes is XORed into the
state word by word, so each injection is read off from the five 8-byte parts of the padded key. -/

namespace Sys2Proof.Machine

/-! Five words as one string -/

/-- The words of a 40-byte string given in five parts of 8 bytes. -/
theorem deser_words (P : Profile) {B0 B1 B2 B3 B4 : Bytes} (h0 : B0.length = 8) (h1 : B1.length = 8) (h2 : B2.length = 8)
    (h3 : B3.length = 8) (h4 : B4.length = 8) :
    deser P (B0 ++ B1 ++ B2 ++ B3 ++ B4) = ⟨load64 P B0, load64 P B1, load64 P B2, load64 P B3, load64 P B4⟩ := by
  apply deser_eq_of_ser
  simp only [ser, store64_load64, h0, h1, h2, h3, h4]

theorem load64BE_zeros : load64BE (zeros 8) = 0#64 := rfl

theorem zeros_zero : zeros 0 = [] := rfl

/-- XOR of a string at an offset, when the string padded to the whole state is given in five parts of 8 bytes. -/
theorem xorAt_words (P : Profile) (x : PState) {o : Nat} {D B0 B1 B2 B3 B4 : Bytes} (h0 : B0.length = 8)
    (h1 : B1.length = 8) (h2 : B2.length = 8) (h3 : B3.length = 8) (h4 : B4.length = 8)
    (hD : zeros o ++ D ++ zeros (40 - o - D.length) = B0 ++ B1 ++ B2 ++ B3 ++ B4) :
    xorAt P x o D = ⟨x.x0 ^^^ load64 P B0, x.x1 ^^^ load64 P B1, x.x2 ^^^ load64 P B2, x.x3 ^^^ load64 P B3,
      x.x4 ^^^ load64 P B4⟩ := by
  apply deser_eq_of_ser
  rw [hD]
  simp only [ser, List.append_assoc, xorBytes_append, xorBytes_store64, store64_length, h0, h1, h2, h3, h4]

/-! The parts of a key -/

theorem take_append_slice (B : Bytes) (o n : Nat) : B.take o ++ slice B o n = B.take (o + n) := List.take_add.symm

/-- A 20-byte key in the parts that initialisation injects (R96). -/
theorem key20_init {K : Bytes} (h : K.length = 20) : K = K.take 4 ++ slice K 4 8 ++ slice K 12 8 := by
  rw [take_append_slice, take_append_slice, List.take_of_length_le h.le]

/-- A 20-byte key in the parts that finalisation injects (R101). -/
theorem key20_final {K : Bytes} (h : K.length = 20) : K = K.take 8 ++ slice K 8 8 ++ slice K 16 4 := by
  rw [take_append_slice, take_append_slice, List.take_of_length_le h.le]

/-! 16-byte keys -/

section
variable {K : Bytes} (hK : K.length = 16)
include hK

theorem key16_halves : (K.take 8).length = 8 ∧ (K.drop 8).length = 8 := by simp [hK]

theorem xorAt_key16_words12 (x : PState) : xorAt .be x 8 K =
    { x with x1 := x.x1 ^^^ load64BE (K.take 8), x2 := x.x2 ^^^ load64BE (K.drop 8) } := by
  obtain ⟨hlo, hhi⟩ := key16_halves hK
  rw [xorAt_words .be x (zeros_length 8) hlo hhi (zeros_length 8) (zeros_length 8)]
  · simp [load64, load64BE_zeros]
  · simp [hK, zeros_append]

theorem xorAt_key16_words23 (x : PState) : xorAt .be x 16 K =
    { x with x2 := x.x2 ^^^ load64BE (K.take 8), x3 := x.x3 ^^^ load64BE (K.drop 8) } := by
  obtain ⟨hlo, hhi⟩ := key16_halves hK
  rw [xorAt_words .be x (zeros_length 8) (zeros_length 8) hlo hhi (zeros_length 8)]
  · simp [load64, load64BE_zeros]
  · simp [hK, zeros_append]

theorem xorAt_key16_words34 (x : PState) : xorAt .be x 24 K =
    { x with x3 := x.x3 ^^^ load64BE (K.take 8), x4 := x.x4 ^^^ load64BE (K.drop 8) } := by
  obtain ⟨hlo, hhi⟩ := key16_halves hK
  rw [xorAt_words .be x (zeros_length 8) (zeros_length 8) (zeros_length 8) hlo hhi]
  · simp [load64, load64BE_zeros]
  · simp [hK, zeros_append, zeros_zero]

/-- The state before the permutation of initialisation (R96). -/
theorem deser_key16 {N : Bytes} (hN : N.length = 16) (iv : Lane) : deser .be (store64BE iv ++ K ++ N) =
    ⟨iv, load64BE (K.take 8), load64BE (K.drop 8), load64BE (N.take 8), load64BE (N.drop 8)⟩ := by
  obtain ⟨hlo, hhi⟩ := key16_halves hK
  obtain ⟨hNlo, hNhi⟩ := key16_halves hN
  have hwords := deser_words .be (store64BE_length iv) hlo hhi hNlo hNhi
  rw [List.append_assoc _ (K.take 8), List.append_assoc _ (N.take 8), List.take_append_drop, List.take_append_drop] at hwords
  rw [hwords]
  rw [PState.mk.injEq]
  exact ⟨load64_store64 .be iv, rfl, rfl, rfl, rfl⟩

end

theorem ivBytes_of_key16 {v : DuplexVariant} (hv : v ≠ .aead80pq) :
    ivBytes v = store64BE (BitVec.ofNat 64 (duplexConfig v).iv) := by
  cases v with
  | aead80pq => exact absurd rfl hv
  | _ => rfl

theorem duplexInit_key16 {v : DuplexVariant} (hv : v ≠ .aead80pq) {K N : Bytes} (hK : K.length = 16)
    (hN : N.length = 16) : duplexInit v K N = xorAt .be (permute
      ⟨BitVec.ofNat 64 (duplexConfig v).iv, load64BE (K.take 8), load64BE (K.drop 8), load64BE (N.take 8),
        load64BE (N.drop 8)⟩ 12) 24 K := by
  have hconfig : (duplexConfig v).a = 12 ∧ 40 - (duplexConfig v).keyLen = 24 := by
    cases v with
    | aead80pq => exact absurd rfl hv
    | _ => exact ⟨rfl, rfl⟩
  rw [duplexInit, ivBytes_of_key16 hv, deser_key16 hK hN, hconfig.1, hconfig.2]

/-! 20-byte keys: the first four bytes share a word with the IV, or the last four are the high half of a word -/

theorem load64BE_eq_ofDigits (B : Bytes) :
    load64BE B = BitVec.ofNat 64 (Nat.ofDigits 256 (B.reverse.map BitVec.toNat)) := by
  rw [load64BE_eq_load64LE_reverse, load64LE, Nat.ofDigits_eq_foldr, List.foldr_map]
  rfl

/-- A word of eight bytes is its high half beside its low half. -/
theorem load64BE_halves (A : Bytes) {B : Bytes} (hB : B.length = 4) :
    load64BE (A ++ B) = load64BE (A ++ zeros 4) ||| load64BE (zeros 4 ++ B) := by
  have hlt : Nat.ofDigits 256 (B.reverse.map BitVec.toNat) < 2 ^ 32 := by
    have hlt := Nat.ofDigits_lt_base_pow_length (b := 256) (by decide) (fun _ => lt_of_mem_map_toNat (B := B.reverse))
    simpa [hB] using hlt
  have hzero : Nat.ofDigits 256 ((zeros 4).map BitVec.toNat) = 0 := rfl
  have hrev : (zeros 4).reverse = zeros 4 := rfl
  rw [load64BE_eq_ofDigits, load64BE_eq_ofDigits, load64BE_eq_ofDigits, ← BitVec.ofNat_or]
  simp only [List.reverse_append, List.map_append, Nat.ofDigits_append, hrev, hzero, List.length_map, List.length_reverse,
    hB, zeros_length, Nat.mul_zero, Nat.add_zero, Nat.zero_add]
  have hor := Nat.shiftLeft_add_eq_or_of_lt hlt (Nat.ofDigits 256 (A.reverse.map BitVec.toNat))
  rw [Nat.shiftLeft_eq, Nat.mul_comm, show 2 ^ 32 = 256 ^ 4 from rfl] at hor
  rw [Nat.add_comm, hor]

section
variable {K : Bytes} (hK : K.length = 20)
include hK

theorem key20_lengths : (K.take 4).length = 4 ∧ (K.take 8).length = 8 ∧ (slice K 4 8).length = 8 ∧
    (slice K 8 8).length = 8 ∧ (slice K 12 8).length = 8 ∧ (slice K 16 4).length = 4 := by simp [hK]

theorem xorAt_key20_init (x : PState) : xorAt .be x 20 K =
    { x with
      x2 := x.x2 ^^^ load64BE (zeros 4 ++ K.take 4), x3 := x.x3 ^^^ load64BE (slice K 4 8),
      x4 := x.x4 ^^^ load64BE (slice K 12 8) } := by
  obtain ⟨h4, -, hmid, -, hlast, -⟩ := key20_lengths hK
  rw [xorAt_words .be x (B2 := zeros 4 ++ K.take 4) (zeros_length 8) (zeros_length 8) (by simp [h4]) hmid hlast]
  · simp [load64, load64BE_zeros]
  · have hzeros : zeros 20 = zeros 8 ++ zeros 8 ++ zeros 4 := rfl
    conv_lhs => rw [key20_init hK]
    simp [hK, hzeros, zeros_zero]

theorem xorAt_key20_final (x : PState) : xorAt .be x 8 K =
    { x with
      x1 := x.x1 ^^^ load64BE (K.take 8), x2 := x.x2 ^^^ load64BE (slice K 8 8),
      x3 := x.x3 ^^^ load64BE (slice K 16 4 ++ zeros 4) } := by
  obtain ⟨-, hfirst, -, hmid, -, h4⟩ := key20_lengths hK
  rw [xorAt_words .be x (B3 := slice K 16 4 ++ zeros 4) (zeros_length 8) hfirst hmid (by simp [h4]) (zeros_length 8)]
  · simp [load64, load64BE_zeros]
  · conv_lhs => rw [key20_final hK]
    simp [hK, zeros_append]

theorem deser_key20 {N : Bytes} (hN : N.length = 16) : deser .be (ivBytes .aead80pq ++ K ++ N) =
    ⟨0xA0400C0600000000 ||| load64BE (zeros 4 ++ K.take 4), load64BE (slice K 4 8), load64BE (slice K 12 8),
      load64BE (N.take 8), load64BE (N.drop 8)⟩ := by
  obtain ⟨h4, -, hmid, -, hlast, -⟩ := key20_lengths hK
  obtain ⟨hNlo, hNhi⟩ := key16_halves hN
  have hiv : (ivBytes .aead80pq).length = 4 := rfl
  have hwords := deser_words .be (B0 := ivBytes .aead80pq ++ K.take 4) (by simp [h4, hiv]) hmid hlast hNlo hNhi
  have hsplit : ivBytes .aead80pq ++ K ++ N =
      ivBytes .aead80pq ++ K.take 4 ++ slice K 4 8 ++ slice K 12 8 ++ N.take 8 ++ N.drop 8 := by
    conv_lhs => rw [key20_init hK]
    simp
  have hiv64 : load64BE (ivBytes .aead80pq ++ zeros 4) = 0xA0400C0600000000 := rfl
  rw [hsplit, hwords, load64, load64BE_halves _ h4, hiv64]

theorem duplexInit_key20 {N : Bytes} (hN : N.length = 16) : duplexInit .aead80pq K N = xorAt .be (permute
    ⟨0xA0400C0600000000 ||| load64BE (zeros 4 ++ K.take 4), load64BE (slice K 4 8), load64BE (slice K 12 8),
      load64BE (N.take 8), load64BE (N.drop 8)⟩ 12) 20 K := by
  rw [duplexInit, deser_key20 hK hN]
  rfl

end

/-- Settles O52. -/
theorem keyInjectionWordForms : Obligations.KeyInjectionWordForms := by
  intro K N x hN
  refine ⟨fun v hv hK => ⟨_, rfl, ?_⟩, fun hK => ⟨?_, ?_⟩, fun hK => ⟨⟨_, rfl, ?_⟩, ?_⟩⟩
  · rw [duplexInit_key16 hv hK hN, xorAt_key16_words34 hK]
  · exact congrArg (permute · 12) (xorAt_key16_words12 hK x)
  · exact congrArg (permute · 12) (xorAt_key16_words23 hK x)
  · rw [duplexInit_key20 hK hN, xorAt_key20_init hK]
  · exact congrArg (permute · 12) (xorAt_key20_final hK x)

end Sys2Proof.Machine
end

section
/-! Settling O14, O15 and O59: the ENC and DEC commands complete with Encrypt and Decrypt of their inputs (42_duplex.md R108 to
R115), and a DEC of what an ENC left restores the plaintext (R106). -/

namespace Sys2Proof.Machine

/-! Acceptance (60_exceptions.md R126) -/

theorem encInstr_command (v : DuplexVariant) (k n l : Nat) : (encInstr v k n l).command = .enc v := by cases v <;> rfl

theorem decInstr_command (v : DuplexVariant) (k n l : Nat) : (decInstr v k n l).command = .dec v := by cases v <;> rfl

theorem overlaps_eq_false {s : State}
    (h : ¬(s.mAddr.toNat < s.dAddr.toNat ∧ s.dAddr.toNat < s.mAddr.toNat + s.mLen.toNat)) : overlaps s = false := by
  simp only [overlaps, Bool.and_eq_false_iff, decide_eq_false_iff_not]
  omega

/-- ENC and DEC use the same three regions (60_exceptions.md R131). -/
theorem duplex_regionsInRange {c : Command} {s : State} (hc : overlapChecked c = true)
    (ha : fits s s.aAddr.toNat s.aLen.toNat) (hm : fits s s.mAddr.toNat s.mLen.toNat)
    (hd : fits s s.dAddr.toNat s.mLen.toNat) : regionsInRange c s = true := by
  have ha' : inRange s.dmemSize.bytes (aRegion s) = true := inRange_eq_true.mpr ha
  have hm' : inRange s.dmemSize.bytes (mRegion s) = true := inRange_eq_true.mpr hm
  have hd' : inRange s.dmemSize.bytes (s.dAddr.toNat, s.mLen.toNat) = true := inRange_eq_true.mpr hd
  cases c with
  | digest v => cases hc
  | wipe => cases hc
  | enc v => simp [regionsInRange, regions, outputRegion, ha', hm', hd']
  | dec v => simp [regionsInRange, regions, outputRegion, ha', hm', hd']

theorem check_duplex {i : Instr} {s : State} (hlen : lengthCheck i = .noError) (hc : overlapChecked i.command = true)
    (ha : fits s s.aAddr.toNat s.aLen.toNat) (hm : fits s s.mAddr.toNat s.mLen.toNat)
    (hd : fits s s.dAddr.toNat s.mLen.toNat)
    (ho : ¬(s.mAddr.toNat < s.dAddr.toNat ∧ s.dAddr.toNat < s.mAddr.toNat + s.mLen.toNat)) : check i s = .noError := by
  simp [check, hlen, duplex_regionsInRange hc ha hm hd, overlaps_eq_false ho]

/-! Completion -/

theorem terminalPhase_dec (v : DuplexVariant) (ok : Bool) :
    terminalPhase (.dec v) (some ok) = if ok then .dxVerified else .dxFailed := by cases ok <;> rfl

section
variable {v : DuplexVariant} {k n l : Nat} {s : State} {A : Bytes} (hb : s.busy = false)
  (hA : Memory.readBytes s.dmem s.aAddr.toNat s.aLen.toNat = .ok A)
include hb hA

/-- An accepted ENC whose regions are readable completes, with the ciphertext in D and the tag in TAG_OUT (R108). -/
theorem exec_encInstr {P : Bytes} (hc : check (encInstr v k n l) s = .noError)
    (hP : Memory.readBytes s.dmem s.mAddr.toNat s.mLen.toNat = .ok P) :
    exec (encInstr v k n l) s =
      .next { finished (encInstr v k n l) .dxTagged s with
        key := KeyRegs.zero
        tagOut := quadOfBytes (encryptOf v s A P).2
        dmem := Memory.writeBytes s.dmem s.dAddr.toNat (encryptOf v s A P).1 } := by
  have hov : overlaps s = false := check_overlap hc (by rw [encInstr_command]; rfl)
  obtain ⟨xf, hrun⟩ := run_enc v (accept (.enc v) { s with cmdLast := encode (encInstr v k n l) }) A P hA hP hov
  rw [exec_eq, runCommand_accepted hb hc, encInstr_command]
  exact congrArg (andThen · fun t => .next (completeCommand (.enc v) t)) hrun

/-- An accepted DEC whose regions are readable completes, with the text of Decrypt in D and its result in AUTH_OK and
PHASE (R109). -/
theorem exec_decInstr {C : Bytes} (hc : check (decInstr v k n l) s = .noError)
    (hC : Memory.readBytes s.dmem s.mAddr.toNat s.mLen.toNat = .ok C) :
    exec (decInstr v k n l) s =
      .next { finished (decInstr v k n l) (if (decryptOf v s A C).1 then .dxVerified else .dxFailed) s with
        authOk := (decryptOf v s A C).1
        key := KeyRegs.zero
        dmem := Memory.writeBytes s.dmem s.dAddr.toNat (decryptOf v s A C).2 } := by
  have hov : overlaps s = false := check_overlap hc (by rw [decInstr_command]; rfl)
  obtain ⟨xf, tf, hrun⟩ := run_dec v (accept (.dec v) { s with cmdLast := encode (decInstr v k n l) }) A C hA hC hov
  rw [exec_eq, runCommand_accepted hb hc, decInstr_command, ← terminalPhase_dec v]
  exact congrArg (andThen · fun t => .next (completeCommand (.dec v) t)) hrun

end

theorem encryptOf_length (v : DuplexVariant) (s : State) (A P : Bytes) :
    (encryptOf v s A P).1.length = P.length ∧ (encryptOf v s A P).2.length = 16 :=
  ⟨encrypt_text_length v _ _ A P, encrypt_tag_length (keyOperand_length v s) _ A P⟩

/-- Settles O14. -/
theorem encCommandsComplete : Obligations.EncCommandsComplete := by
  rintro v i s A P rfl hb ha hm hd ho hA hP
  have hcheck : check (encInstr v (if v = .aead80pq then 20 else 16) 16 16) s = .noError :=
    check_duplex (by cases v <;> rfl) (by rw [encInstr_command]; rfl) ha hm hd ho
  exact ⟨exec_encInstr hb hA hcheck hP, encryptOf_length v s A P⟩

/-- Settles O15. -/
theorem decCommandsComplete : Obligations.DecCommandsComplete := by
  rintro v i s A C rfl hb ha hm hd ho hA hC
  have hcheck : check (decInstr v (if v = .aead80pq then 20 else 16) 16 16) s = .noError :=
    check_duplex (by cases v <;> rfl) (by rw [decInstr_command]; rfl) ha hm hd ho
  exact ⟨exec_decInstr hb hA hcheck hC, decrypt_length v _ _ A C _, decrypt_of_not_verified v _ _ A⟩

/-! A DEC of what an ENC left (R106) -/

/-- The state that an ENC left, prepared for the DEC of its ciphertext: Decrypt answers the plaintext. -/
theorem decryptOf_encryptOf {v : DuplexVariant} {s u : State} {A P : Bytes} (hkey : u.key = s.key)
    (hnonce : u.nonce = s.nonce) (htag : u.tagIn = quadOfBytes (encryptOf v s A P).2) :
    decryptOf v u A (encryptOf v s A P).1 = (true, P) := by
  have hT : tagOperand u = (encryptOf v s A P).2 := by
    rw [tagOperand, htag, quadBytes_quadOfBytes (encryptOf_length v s A P).2]
  have hK : keyOperand v u = keyOperand v s := by rw [keyOperand, keyOperand, hkey]
  have hN : nonceOperand u = nonceOperand s := by rw [nonceOperand, nonceOperand, hnonce]
  rw [decryptOf, hT, hK, hN]
  exact decryptInvertsEncrypt v _ _ A P

/-- A region reads as before when what is written lies beside it, or one of the two is empty. -/
theorem readBytes_writeBytes_apart {m : Memory} {a n d : Nat} {W : Bytes}
    (h : n = 0 ∨ W.length = 0 ∨ a + n ≤ d ∨ d + W.length ≤ a) :
    Memory.readBytes (Memory.writeBytes m d W) a n = Memory.readBytes m a n :=
  readBytes_congr fun _ _ _ => byteAt_writeBytes_outside (by omega)

/-- Settles O59. -/
theorem machineDecryptsWhatItEncrypts : Obligations.MachineDecryptsWhatItEncrypts := by
  rintro v k s t u A P out - hb hcheck hA hP hexec hapart hu hcheck'
  cases (exec_encInstr hb hA hcheck hP).symm.trans hexec
  have hlenC : (encryptOf v s A P).1.length = s.mLen.toNat :=
    (encryptOf_length v s A P).1.trans (readBytes_length hP)
  have hA' : Memory.readBytes u.dmem u.aAddr.toNat u.aLen.toNat = .ok A := by
    rw [hu]
    refine (readBytes_writeBytes_apart ?_).trans hA
    rw [hlenC]
    exact hapart.imp (congrArg BitVec.toNat) (Or.imp_left (congrArg BitVec.toNat))
  have hC : Memory.readBytes u.dmem u.mAddr.toNat u.mLen.toNat = .ok (encryptOf v s A P).1 := by
    rw [hu]
    exact hlenC ▸ readBytes_writeBytes_same s.dmem s.dAddr.toNat _
  have hrun := exec_decInstr (by rw [hu]; rfl) hA' hcheck' hC
  rw [decryptOf_encryptOf (s := s) (by rw [hu]) (by rw [hu]; rfl) (by rw [hu])] at hrun
  refine ⟨_, hrun, rfl, rfl, ?_⟩
  rw [hu, ← readBytes_length hP]
  exact readBytes_writeBytes_same _ _ P

end Sys2Proof.Machine
end

section
/-! Settling O18 and O19: what ENC and DEC leave unchanged (42_duplex.md R108, R109, 43_control.md R118, 20_memory.md R52),
in each of the ways a command word can end: dropped, rejected, completed. -/

namespace Sys2Proof.Machine

/-- What a command word can do, with the state it leaves. -/
theorem exec_cases {i : Instr} {s t : State} (h : exec i s = .next t) :
    (s.busy = true ∧ t = dropWrite s) ∨
    (s.busy = false ∧ t = reject (check i s) { s with cmdLast := encode i }) ∨
    (s.busy = false ∧ ∃ u,
      runOps i.command (opsFor i.command s) (accept i.command { s with cmdLast := encode i }) = .next u ∧
      t = completeCommand i.command u) := by
  rcases Bool.eq_false_or_eq_true s.busy with hb | hb
  · rw [exec_eq, runCommand_busy hb] at h
    cases h
    exact .inl ⟨hb, rfl⟩
  · rcases exec_next_cases hb h with ⟨-, ht⟩ | ⟨-, hrun⟩
    · exact .inr (.inl ⟨hb, ht⟩)
    · exact .inr (.inr ⟨hb, hrun⟩)

theorem opsFor_accept (c : Command) (w : Word) (s : State) :
    opsFor c (accept c { s with cmdLast := w }) = opsFor c s := opsFor_congr rfl rfl rfl

theorem outputRegion_accept (c : Command) (w : Word) (s : State) :
    outputRegion c (accept c { s with cmdLast := w }) = outputRegion c s := by cases c <;> rfl

section
variable {i : Instr} {s t : State} (h : exec i s = .next t)
include h

/-- Only a dropped word changes BUSY_ERR (43_control.md R120). -/
theorem exec_busyErr (hb : s.busy = false) : t.busyErr = s.busyErr := by
  rcases exec_cases h with ⟨hbusy, -⟩ | ⟨-, rfl⟩ | ⟨-, u, hu, rfl⟩
  · cases hb.symm.trans hbusy
  · rfl
  · rw [completeCommand_busyErr, runOps_frame hu]
    rfl

/-- A command changes no byte outside its output region (20_memory.md R51, R52). -/
theorem exec_byteAt_outside {a : Nat}
    (ha : a < (outputRegion i.command s).1 ∨ (outputRegion i.command s).1 + (outputRegion i.command s).2 ≤ a) :
    Memory.byteAt t.dmem a = Memory.byteAt s.dmem a := by
  rcases exec_cases h with ⟨-, rfl⟩ | ⟨-, rfl⟩ | ⟨-, u, hu, rfl⟩
  · rfl
  · rfl
  · rw [← outputRegion_accept i.command (encode i) s] at ha
    exact runOps_byteAt (fun op hop => (opsFor_accept _ _ s).symm ▸ hop) hu ha

/-- ENC and DEC change the flags, CMD_LAST, KEY, TAG_OUT, the sequencer's state and DMEM, and no other field (R108, R109). -/
theorem exec_duplex_frame (hc : overlapChecked i.command = true) : t = { s with
    x := t.x, busy := t.busy, done := t.done, authOk := t.authOk, busyErr := t.busyErr, err := t.err,
    phase := t.phase, cmdLast := t.cmdLast, key := t.key, tagOut := t.tagOut, cur := t.cur, seq := t.seq,
    tCalc := t.tCalc, ok := t.ok, dmem := t.dmem } := by
  have hquad (q : QuadRegs) : completedQuad i.command q = q := by
    cases hcmd : i.command with
    | wipe => rw [hcmd] at hc; cases hc
    | _ => rfl
  rcases exec_cases h with ⟨-, rfl⟩ | ⟨-, rfl⟩ | ⟨-, u, hu, rfl⟩
  · rfl
  · rfl
  · rw [completeCommand, hquad, hquad, runOps_frame hu]
    rfl

end

/-- Settles O18. -/
theorem encFrame : Obligations.EncFrame := by
  intro v klen nlen tlen s t h
  have hcmd := encInstr_command v klen nlen tlen
  exact ⟨exec_duplex_frame h (by rw [hcmd]; rfl), exec_busyErr h,
    fun a ha => exec_byteAt_outside h (by rw [hcmd]; exact ha)⟩

/-- DEC does not write TAG_OUT after its acceptance has cleared it (10_state.md R31). -/
theorem exec_dec_tagOut {i : Instr} {v : DuplexVariant} {s t : State} (hcmd : i.command = .dec v)
    (h : exec i s = .next t) : t.tagOut = s.tagOut ∨ t.tagOut = QuadRegs.zero := by
  rcases exec_cases h with ⟨-, rfl⟩ | ⟨-, rfl⟩ | ⟨-, u, hu, rfl⟩
  · exact .inl rfl
  · exact .inl rfl
  · right
    rw [completeCommand_tagOut, hcmd, completedTagOut, runOps_frame hu]
    rfl

/-- Settles O19. -/
theorem decFrame : Obligations.DecFrame := by
  intro v klen nlen tlen s t h
  have hcmd := decInstr_command v klen nlen tlen
  exact ⟨exec_duplex_frame h (by rw [hcmd]; rfl), exec_busyErr h, exec_dec_tagOut hcmd h,
    fun a ha => exec_byteAt_outside h (by rw [hcmd]; exact ha)⟩

end Sys2Proof.Machine
end

section
/-! Settling O38: where a position writes and how many bytes depends on the lengths, D_ADDR and the DMEM size alone
(42_duplex.md R104, 43_control.md R123). -/

namespace Sys2Proof.Machine

/-- The region a position writes, empty at address 0 when it writes nothing. -/
def writtenRegion (c : Command) (op : SeqOp) (s : State) : Region :=
  match c, op with
  | .digest v, .spSqueeze j => (s.dAddr.toNat + j * 8, min 8 (digestLen v s - j * 8))
  | .enc v, .dxText _ j | .dec v, .dxText .second j =>
    (s.dAddr.toNat + j * (duplexConfig v).rate, min (duplexConfig v).rate (s.mLen.toNat - j * (duplexConfig v).rate))
  | .wipe, .wipeAll => (0, s.dmemSize.bytes)
  | _, _ => (0, 0)

section
variable {v : DuplexVariant} {op : SeqOp} {s : State} {e : OpEffect}

theorem digestEffect_region {v : SpongeVariant} (h : digestEffect v op s = .ok e) :
    (e.addr, e.bytes.length) = writtenRegion (.digest v) op s := by
  cases op with
  | spSqueeze j =>
    cases h
    simp [squeezeEffect, writtenRegion, Nat.min_comm]
  | spAbsorbCustom j =>
    simp only [digestEffect] at h
    split at h <;> cases h
    rfl
  | spAbsorbMessage j =>
    simp only [digestEffect] at h
    split at h
    · split at h <;> cases h <;> rfl
    · cases h
  | _ => cases h; rfl

theorem duplexStartEffect_region (h : duplexStartEffect v op s = .ok e) : (e.addr, e.bytes.length) = (0, 0) := by
  cases op with
  | dxInit p | dxSeparate p =>
    simp only [duplexStartEffect] at h
    split at h <;> cases h <;> rfl
  | dxAd p j =>
    simp only [duplexStartEffect] at h
    split at h
    · split at h <;> cases h
      rfl
    · cases h
      rfl
  | _ => cases h; rfl

/-- Initialisation, associated data and domain separation write nothing, of ENC as of DEC. -/
theorem start_region {c : Command} (hop : opEffect c op s = duplexStartEffect v op s) (h : opEffect c op s = .ok e) :
    (e.addr, e.bytes.length) = (0, 0) :=
  duplexStartEffect_region (hop.symm.trans h)

theorem encTextEffect_region {j : Nat} (h : encTextEffect v j s = .ok e) : (e.addr, e.bytes.length) =
    (s.dAddr.toNat + j * (duplexConfig v).rate, min (duplexConfig v).rate (s.mLen.toNat - j * (duplexConfig v).rate)) := by
  cases hB : readBlock s (mRegion s) (duplexConfig v).rate j with
  | error a => simp [encTextEffect, hB] at h
  | ok B =>
    have hlen : B.length = min (duplexConfig v).rate (s.mLen.toNat - j * (duplexConfig v).rate) := readBlock_length_le hB
    simp only [encTextEffect, hB] at h
    cases h
    rw [← hlen]
    exact congrArg (Prod.mk _) (encryptBlock_length (by omega))

theorem decVerifyEffect_region {j : Nat} (h : decVerifyEffect v j s = .ok e) : (e.addr, e.bytes.length) = (0, 0) := by
  cases hB : readBlock s (mRegion s) (duplexConfig v).rate j with
  | error a => simp [decVerifyEffect, hB] at h
  | ok B =>
    simp only [decVerifyEffect, hB] at h
    cases h
    rfl

/-- DEC's second pass writes as many zeros after a mismatch as plaintext bytes after a match (R104). -/
theorem decWriteEffect_region {j : Nat} (h : decWriteEffect v j s = .ok e) : (e.addr, e.bytes.length) =
    (s.dAddr.toNat + j * (duplexConfig v).rate, min (duplexConfig v).rate (s.mLen.toNat - j * (duplexConfig v).rate)) := by
  cases hp : passRuns .second s with
  | false =>
    simp only [decWriteEffect, hp, Bool.false_eq_true, if_false] at h
    cases h
    simp
  | true =>
    cases hB : readBlock s (mRegion s) (duplexConfig v).rate j with
    | error a => simp [decWriteEffect, hp, hB] at h
    | ok B =>
      have hlen : B.length = min (duplexConfig v).rate (s.mLen.toNat - j * (duplexConfig v).rate) := readBlock_length_le hB
      simp only [decWriteEffect, hp, hB, if_true] at h
      cases h
      rw [← hlen]
      exact congrArg (Prod.mk _) (decryptBlock_length (by omega))

theorem encEffect_region (h : encEffect v op s = .ok e) :
    (e.addr, e.bytes.length) = writtenRegion (.enc v) op s := by
  cases op with
  | dxText p j => exact encTextEffect_region h
  | dxInit p => exact start_region ((enc_sharesStart v).init p s) h
  | dxAd p j => exact start_region ((enc_sharesStart v).ad p j s) h
  | dxSeparate p => exact start_region ((enc_sharesStart v).separate p s) h
  | _ => cases h; rfl

theorem decEffect_region (h : decEffect v op s = .ok e) :
    (e.addr, e.bytes.length) = writtenRegion (.dec v) op s := by
  cases op with
  | dxText p j =>
    cases p with
    | first => exact decVerifyEffect_region h
    | second => exact decWriteEffect_region h
  | dxInit p => exact start_region ((dec_sharesStart v).init p s) h
  | dxAd p j => exact start_region ((dec_sharesStart v).ad p j s) h
  | dxSeparate p => exact start_region ((dec_sharesStart v).separate p s) h
  | _ => cases h; rfl

theorem wipeEffect_region (h : wipeEffect op s = .ok e) : (e.addr, e.bytes.length) = writtenRegion .wipe op s := by
  cases op with
  | wipeAll => cases h; simp [writtenRegion]
  | _ => cases h; rfl

/-- Every position writes its region, whatever the data. -/
theorem opEffect_region {c : Command} (h : opEffect c op s = .ok e) :
    (e.addr, e.bytes.length) = writtenRegion c op s := by
  cases c with
  | digest v => exact digestEffect_region h
  | enc v => exact encEffect_region h
  | dec v => exact decEffect_region h
  | wipe => exact wipeEffect_region h

end

theorem writtenRegion_congr {c : Command} {s t : State} (hsize : t.dmemSize = s.dmemSize) (hm : t.mLen = s.mLen)
    (ho : t.outLen = s.outLen) (hd : t.dAddr = s.dAddr) (op : SeqOp) : writtenRegion c op t = writtenRegion c op s := by
  have hlen (v : SpongeVariant) : digestLen v t = digestLen v s := by cases v <;> simp [digestLen, ho]
  unfold writtenRegion
  simp only [hsize, hm, hd, hlen]

/-- Settles O38. -/
theorem writePatternIsDataIndependent : Obligations.WritePatternIsDataIndependent := by
  intro c s t hsize ha hm ho hd
  refine ⟨opsFor_congr ha hm ho, fun op _ e f he hf => ?_⟩
  have hregion := (opEffect_region hf).trans ((writtenRegion_congr hsize hm ho hd op).trans (opEffect_region he).symm)
  exact Prod.mk.inj hregion

end Sys2Proof.Machine
end

section
/-! Settling O41: a DEC whose tag does not match never stores a plaintext byte (42_duplex.md R103, R109). Only the second pass
writes, and OK, which the final position of the first pass sets, stays false from there to the end of the sequence. -/

namespace Sys2Proof.Machine

/-! A memory with zeros in it -/

/-- Every byte of d is that of d0, or a zero of the region. -/
def ZeroFilled (reg : Region) (d0 d : Memory) : Prop :=
  ∀ a, Memory.byteAt d a = Memory.byteAt d0 a ∨ (reg.1 ≤ a ∧ a < reg.1 + reg.2 ∧ Memory.byteAt d a = some 0)

theorem ZeroFilled.refl (reg : Region) (d : Memory) : ZeroFilled reg d d := fun _ => .inl rfl

/-- Writing zeros inside the region, or nothing at all. -/
theorem ZeroFilled.write {reg : Region} {d0 d : Memory} (h : ZeroFilled reg d0 d) {a n : Nat}
    (hin : n = 0 ∨ (reg.1 ≤ a ∧ a + n ≤ reg.1 + reg.2)) : ZeroFilled reg d0 (Memory.writeBytes d a (zeros n)) := by
  intro b
  by_cases hb : a ≤ b ∧ b < a + n
  · obtain ⟨j, rfl⟩ := Nat.exists_eq_add_of_le hb.1
    right
    refine ⟨by omega, by omega, ?_⟩
    have hj : j < n := by omega
    rw [byteAt_writeBytes_inside (by simpa using hj), zeros, List.getElem?_replicate, if_pos hj]
  · rw [byteAt_writeBytes_outside (by rw [zeros_length]; omega)]
    exact h b

/-! OK along a sequence -/

/-- OK is set at the final position of the first pass and nowhere else (R102). -/
theorem runOps_ok {c : Command} {ops : List SeqOp} {s t : State} (hops : SeqOp.dxFinal ∉ ops)
    (h : runOps c ops s = .next t) : t.ok = s.ok := by
  induction ops generalizing s with
  | nil => cases h; rfl
  | cons op rest ih =>
    rw [List.mem_cons, not_or] at hops
    obtain ⟨hop, hrest⟩ := hops
    cases he : opEffect c op s with
    | error a => rw [runOps_cons_error he] at h; cases h
    | ok e =>
      rw [runOps_cons_ok he] at h
      rw [ih hrest h, applyEffect_ok, (opEffect_tCalc (Ne.symm hop) he).2]

/-- No final position comes after a text position of the second pass (R109). -/
def FinalBeforeText (ops : List SeqOp) : Prop :=
  ops.Pairwise fun op later => (∃ j, op = .dxText .second j) → later ≠ .dxFinal

theorem dxFinal_not_mem_pass (p : Pass) (v : DuplexVariant) (s : State) : SeqOp.dxFinal ∉ duplexPass p v s := by
  rw [duplexPass]
  split <;> simp

theorem secondText_not_mem_firstPass (v : DuplexVariant) (s : State) (j : Nat) :
    SeqOp.dxText .second j ∉ duplexPass .first v s ++ [.dxFinal] := by
  rw [duplexPass]
  split <;> simp

theorem finalBeforeText_opsFor (v : DuplexVariant) (s : State) : FinalBeforeText (opsFor (.dec v) s) := by
  have hfirst : ∀ op ∈ duplexPass .first v s ++ [.dxFinal], ¬∃ j, op = .dxText .second j := by
    rintro op hop ⟨j, rfl⟩
    exact secondText_not_mem_firstPass v s j hop
  have hsecond : ∀ op ∈ duplexPass .second v s, op ≠ .dxFinal := by
    rintro op hop rfl
    exact dxFinal_not_mem_pass .second v s hop
  refine List.pairwise_append.mpr ⟨?_, ?_, fun op _ later hlater _ => hsecond later hlater⟩
  · exact List.pairwise_of_forall_mem_list fun op hop _ _ htext => absurd htext (hfirst op hop)
  · exact List.pairwise_of_forall_mem_list fun _ _ later hlater _ => hsecond later hlater

/-! A DEC that is going to fail -/

/-- The state u is on the way of a DEC that ends with OK = 0, with zeros only written so far. -/
structure FailingDec (v : DuplexVariant) (reg : Region) (d0 : Memory) (u : State) : Prop where
  busy : u.busy = true
  cur : u.cur = some (.dec v)
  region : outputRegion (.dec v) u = reg
  order : FinalBeforeText u.seq
  fails : ∃ e, runOps (.dec v) u.seq u = .next e ∧ e.ok = some false
  filled : ZeroFilled reg d0 u.dmem

theorem writtenRegion_dec_empty {v : DuplexVariant} {op : SeqOp} (hop : ¬∃ j, op = .dxText .second j) (s : State) :
    writtenRegion (.dec v) op s = (0, 0) := by
  cases op with
  | dxText p j =>
    cases p with
    | first => rfl
    | second => exact absurd ⟨j, rfl⟩ hop
  | _ => rfl

section
variable {v : DuplexVariant} {reg : Region} {d0 : Memory} {u : State} {op : SeqOp} {rest : List SeqOp}

/-- At a text position of the second pass OK is what it is at the end. -/
theorem FailingDec.ok_at_secondText (h : FailingDec v reg d0 u) {j : Nat} (hseq : u.seq = .dxText .second j :: rest) :
    u.ok = some false := by
  obtain ⟨e, hrun, hok⟩ := h.fails
  have horder := h.order
  rw [hseq] at hrun horder
  have hrest : SeqOp.dxFinal ∉ rest := fun hmem => (List.pairwise_cons.mp horder).1 _ hmem ⟨j, rfl⟩ rfl
  have hfinal : SeqOp.dxFinal ∉ .dxText .second j :: rest := List.not_mem_cons_of_ne_of_not_mem nofun hrest
  rw [← runOps_ok hfinal hrun, hok]

/-- A position of a DEC that is going to fail writes zeros of its output region. -/
theorem FailingDec.writes_zeros (h : FailingDec v reg d0 u) (hseq : u.seq = op :: rest) {e : OpEffect}
    (he : opEffect (.dec v) op u = .ok e) :
    ∃ n, e.bytes = zeros n ∧ (n = 0 ∨ (reg.1 ≤ e.addr ∧ e.addr + n ≤ reg.1 + reg.2)) := by
  by_cases hop : ∃ j, op = .dxText .second j
  · obtain ⟨j, rfl⟩ := hop
    have hskip : passRuns .second u = false := by rw [passRuns, h.ok_at_secondText hseq]; rfl
    simp only [opEffect, decEffect, decWriteEffect, hskip, Bool.false_eq_true, if_false] at he
    cases he
    refine ⟨_, rfl, ?_⟩
    simp only [← h.region, outputRegion]
    omega
  · have hempty := (opEffect_region he).trans (writtenRegion_dec_empty hop u)
    exact ⟨0, List.length_eq_zero_iff.mp (Prod.mk.inj hempty).2, .inl rfl⟩

/-- A position of a DEC that is going to fail, with any number of the bytes it writes. -/
theorem FailingDec.filled_after (h : FailingDec v reg d0 u) (hseq : u.seq = op :: rest) {e : OpEffect}
    (he : opEffect (.dec v) op u = .ok e) (k : Nat) :
    ZeroFilled reg d0 (Memory.writeBytes u.dmem e.addr (e.bytes.take k)) := by
  obtain ⟨n, hbytes, hin⟩ := h.writes_zeros hseq he
  have htake : (zeros n).take k = zeros (min k n) := List.take_replicate
  rw [hbytes, htake]
  exact h.filled.write (by omega)

theorem FailingDec.position (h : FailingDec v reg d0 u) (hseq : u.seq = op :: rest) :
    ∃ e, opEffect (.dec v) op u = .ok e ∧ FailingDec v reg d0 (applyEffect op rest e u) := by
  obtain ⟨t, hrun, hok⟩ := h.fails
  have horder := h.order
  rw [hseq] at hrun horder
  cases he : opEffect (.dec v) op u with
  | error a => rw [runOps_cons_error he] at hrun; cases hrun
  | ok e =>
    rw [runOps_cons_ok he] at hrun
    have hfilled := h.filled_after hseq he e.bytes.length
    rw [List.take_length] at hfilled
    exact ⟨e, rfl, h.busy, h.cur, h.region, (List.pairwise_cons.mp horder).2, ⟨t, hrun, hok⟩, hfilled⟩

/-- A step of the sequencer stays on the way, or completes the command and leaves DMEM. -/
theorem FailingDec.engineStep (h : FailingDec v reg d0 u) : ∃ t, Machine.engineStep u = .next t ∧
    (FailingDec v reg d0 t ∨ (t.busy = false ∧ ZeroFilled reg d0 t.dmem)) := by
  cases hseq : u.seq with
  | nil => exact ⟨_, engineStep_done h.busy h.cur hseq, .inr ⟨rfl, h.filled⟩⟩
  | cons op rest =>
    obtain ⟨e, he, hnext⟩ := h.position hseq
    exact ⟨_, engineStep_ok h.busy h.cur hseq he, .inl hnext⟩

theorem FailingDec.engineSteps (h : FailingDec v reg d0 u) (m : Nat) : ∃ t, Machine.engineSteps m u = .next t ∧
    (FailingDec v reg d0 t ∨ (t.busy = false ∧ ZeroFilled reg d0 t.dmem)) := by
  induction m generalizing u with
  | zero => exact ⟨u, rfl, .inl h⟩
  | succ m ih =>
    obtain ⟨t, ht, hnext⟩ := h.engineStep
    rw [Machine.engineSteps, ht, andThen_next]
    rcases hnext with hnext | ⟨hb, hfilled⟩
    · exact ih hnext
    · exact ⟨t, engineSteps_idle hb m, .inr ⟨hb, hfilled⟩⟩

/-- A reset on the way leaves zeros only, however many bytes of the write in progress have landed (70_reset_and_hazards.md
R149). -/
theorem FailingDec.abortedDmem (h : FailingDec v reg d0 u) {landed : Nat} {d : Memory}
    (hd : Machine.abortedDmem landed u = .ok d) : ZeroFilled reg d0 d := by
  unfold Machine.abortedDmem at hd
  split at hd
  case h_1 c op rest n _ hcur hseq =>
    obtain rfl : c = .dec v := Option.some.inj (hcur.symm.trans h.cur)
    split at hd
    case h_1 e he =>
      cases hd
      exact h.filled_after hseq he (n + 1)
    case h_2 => cases hd
  case h_2 =>
    cases hd
    exact h.filled

end

/-- An accepted DEC whose tag does not match is on the way to failing. -/
theorem failingDec_issue {v : DuplexVariant} {k n l : Nat} {s : State} {A C : Bytes}
    (hcheck : check (decInstr v k n l) s = .noError)
    (hA : Memory.readBytes s.dmem s.aAddr.toNat s.aLen.toNat = .ok A)
    (hC : Memory.readBytes s.dmem s.mAddr.toNat s.mLen.toNat = .ok C) (hbad : (decryptOf v s A C).1 = false) :
    FailingDec v (s.dAddr.toNat, s.mLen.toNat) s.dmem (issue (decInstr v k n l) s) := by
  have hov : overlaps s = false := check_overlap hcheck (by rw [decInstr_command]; rfl)
  obtain ⟨xf, tf, hrun⟩ := run_dec v (accept (.dec v) { s with cmdLast := encode (decInstr v k n l) }) A C hA hC hov
  rw [issue_accepted hcheck, decInstr_command]
  exact ⟨rfl, rfl, rfl, finalBeforeText_opsFor v _, ⟨_, hrun, congrArg some hbad⟩, ZeroFilled.refl _ _⟩

/-- Settles O41. -/
theorem failedDecStoresNoPlaintext : Obligations.FailedDecStoresNoPlaintext := by
  rintro v k n l s t A C m - hcheck hA hC hbad hsteps
  obtain ⟨t', ht', hstate⟩ := (failingDec_issue hcheck hA hC hbad).engineSteps m
  cases ht'.symm.trans hsteps
  refine ⟨hstate.elim (fun h => h.filled) (fun h => h.2), fun landed r hreset => ?_⟩
  rcases assertReset_cases landed t with ⟨d, hd, he⟩ | ⟨e, -, he⟩ <;> cases he.symm.trans hreset
  rcases hstate with h | ⟨hidle, hfilled⟩
  · exact h.abortedDmem hd
  · rw [abortedDmem_idle landed hidle] at hd
    cases hd
    exact hfilled

end Sys2Proof.Machine
end

section
/-! Settling O6, O7, O10 and O16: what a step makes of a CMD write (43_control.md R116), a command word written while another
command runs (R119, R120), acceptance (R117), and WIPE, which completes in every idle state (R122). -/

namespace Sys2Proof.Machine

/-! The step of a CMD write (R116) -/

theorem step_access {s : State} {a : Access} {g : Gap} {rest : List Event} (h : s.events = .access a g :: rest) :
    step s = accessStep a g { s with events := rest } := by
  rw [step, h]
  rfl

theorem step_no_events {s : State} (h : s.events = []) : step s = engineStep s := by
  rw [step, h]

/-- The CMD write of a command while nothing runs is its meaning, or its issue and n positions (R116, R121). -/
theorem accessStep_decoded {a : Access} {i : Instr} {s : State} (hc : isCommandWrite a = true) (hb : s.busy = false)
    (hd : decode a.wdata = .ok i) :
    accessStep a .completes s = exec i s ∧ ∀ n, accessStep a (.steps n) s = engineSteps n (issue i s) := by
  simp only [accessStep_command hc hb, commandAccess, hd, implies_true, and_self]

/-- Settles O6. -/
theorem stepRunsDecodedCommand : Obligations.StepRunsDecodedCommand := by
  refine ⟨fun s a i rest hb hk ho hs hd => ?_, fun s nbits w i hb hd => ?_, fun s => step_no_events⟩
  · have hc : isCommandWrite a = true := (isCommandWrite_iff a).mpr ⟨hk, wordOffset_of_index ho, hs⟩
    obtain ⟨hcompletes, hsteps⟩ := accessStep_decoded (s := { s with events := rest }) hc hb hd
    exact ⟨fun he => (step_access he).trans hcompletes, fun n he => (step_access he).trans (hsteps n)⟩
  · have hword : decode (tableWord nbits w) = .ok i := by
      unfold decodeTableWord at hd
      split at hd <;> cases hd
      assumption
    have hstep : step (s.withFetchWord nbits w) = accessStep (commandWrite (tableWord nbits w)) .completes s :=
      step_access (s := s.withFetchWord nbits w) rfl
    exact hstep.trans (accessStep_decoded (isCommandWrite_commandWrite _) hb hword).1

/-- Settles O7. -/
theorem busyCommandIsDropped : Obligations.BusyCommandIsDropped := fun i s hb =>
  (exec_eq i s).trans (runCommand_busy hb)

/-! Acceptance (R117) -/

theorem hostStep_decoded {w : Word} {i : Instr} {s : State} (hb : s.busy = false) (hd : decode w = .ok i) :
    hostStep (commandWrite w) s = .next (issue i s) :=
  (accessStep_decoded (isCommandWrite_commandWrite w) hb hd).2 0

/-- Settles O10. -/
theorem acceptanceEffect : Obligations.AcceptanceEffect := by
  intro w i s hb hd hc
  rw [hostStep_decoded hb hd, issue_accepted hc, encode_of_decode hd, accept, opsFor_cmdLast]
  cases i.command <;> rfl

/-! WIPE (R122) -/

/-- WIPE has no operand to check (60_exceptions.md R126). -/
theorem check_wipe (s : State) : check .wipe s = .noError := rfl

theorem exec_wipe {s : State} (hb : s.busy = false) : exec .wipe s =
    .next { finished .wipe .wiped s with
      key := KeyRegs.zero, nonce := QuadRegs.zero, tagIn := QuadRegs.zero,
      dmem := Memory.writeBytes s.dmem 0 (zeros s.dmemSize.bytes) } := by
  rw [exec_eq, runCommand_accepted hb (check_wipe s)]
  rfl

/-- Settles O16. -/
theorem wipeCompletes : Obligations.WipeCompletes := by
  intro s hb
  refine ⟨_, exec_wipe hb, fun a ha => ?_, fun a ha => ?_⟩
  · rw [byteAt_writeBytes, if_pos (by simpa using ha)]
    simp [zeros, ha]
  · exact byteAt_writeBytes_outside (by simp [ha])

end Sys2Proof.Machine
end

section
/-! Settling O17 and O20: what the DIGEST commands and WIPE leave unchanged (41_sponge.md section 2, 43_control.md R117, R118,
R122). -/

namespace Sys2Proof.Machine

/-- No command changes CTRL, the address and length registers, the DMEM size or the fields of the host port (R117, R118). -/
theorem exec_frame {i : Instr} {s t : State} (h : exec i s = .next t) : t = { s with
    x := t.x, busy := t.busy, done := t.done, authOk := t.authOk, busyErr := t.busyErr, err := t.err,
    phase := t.phase, cmdLast := t.cmdLast, key := t.key, nonce := t.nonce, tagIn := t.tagIn, tagOut := t.tagOut,
    cur := t.cur, seq := t.seq, tCalc := t.tCalc, ok := t.ok, dmem := t.dmem } := by
  rcases exec_cases h with ⟨-, rfl⟩ | ⟨-, rfl⟩ | ⟨-, u, hu, rfl⟩
  · rfl
  · rfl
  · rw [runOps_frame hu]
    rfl

/-- A DIGEST command keeps KEY, NONCE and TAG_IN (10_state.md R28 to R30). -/
theorem exec_digest_keeps {i : Instr} {v : SpongeVariant} {s t : State} (hcmd : i.command = .digest v)
    (h : exec i s = .next t) : t.key = s.key ∧ t.nonce = s.nonce ∧ t.tagIn = s.tagIn := by
  rcases exec_cases h with ⟨-, rfl⟩ | ⟨-, rfl⟩ | ⟨-, u, hu, rfl⟩
  · exact ⟨rfl, rfl, rfl⟩
  · exact ⟨rfl, rfl, rfl⟩
  · rw [runOps_frame hu, hcmd]
    exact ⟨rfl, rfl, rfl⟩

/-- Settles O17. -/
theorem digestFrame : Obligations.DigestFrame := by
  intro v s t h
  have hcmd := digestInstr_command v
  have hframe := exec_frame h
  obtain ⟨hkey, hnonce, htagIn⟩ := exec_digest_keeps hcmd h
  rw [hkey, hnonce, htagIn] at hframe
  exact ⟨hframe, exec_busyErr h, fun a ha => exec_byteAt_outside h (by rw [hcmd]; exact ha)⟩

/-- Settles O20. -/
theorem wipeFrame : Obligations.WipeFrame := fun _ _ h =>
  ⟨exec_frame h, exec_busyErr h, fun _ ha => exec_byteAt_outside h ha⟩

end Sys2Proof.Machine
end

section
/-! Settling O33, O36 and O37: a command that runs. The host may read and write meanwhile: no read stops, every write is dropped
(43_control.md R120, 20_memory.md R42), and the command ends where it ends without them (R121), after one step a position and
one for its completion (70_reset_and_hazards.md R158). -/

namespace Sys2Proof.Machine

/-! Host accesses (R120) -/

/-- A read of anything answers, and changes what it returns and the count of draws only (20_memory.md R42, R47). -/
theorem hostRead_busy {s : State} (hb : s.busy = true) (o : Nat) :
    ∃ r n, hostRead o s = .next (withHost r n s.busyErr s) := by
  unfold hostRead
  split
  · exact ⟨0, s.freeCount, hostReadDmem_busy _ hb⟩
  · cases Reg.ofOffset o with
    | some r => exact ⟨_, _, congrArg Host.Outcome.next (hostReadReg_frame r s)⟩
    | none => exact ⟨0, s.freeCount, rfl⟩

/-- TAG_OUT reads 0 from acceptance to completion (43_control.md R117, 10_state.md R31). -/
theorem readReg_tagOut_running {s : State} (hi : Inv s) (hb : s.busy = true) (k : Fin 4) : readReg (.tagOut k) s = 0 := by
  obtain ⟨c, hrun⟩ := hi.running hb
  rw [readReg, hrun.tagOut]
  fin_cases k <;> rfl

/-- Settles O33. -/
theorem busyAccesses : Obligations.BusyAccesses := by
  intro s a hb
  refine ⟨fun hk => hostStep_busy_write hk hb, fun hk hlo hhi => ?_, fun hk ho => ?_, fun r hr hk ho => ?_⟩
  · have hbytes := dmemBytes_multiple s.dmemSize
    have ho : wordOffset a = 0x8000 + (wordOffset a - 0x8000) := by rw [wordOffset]; omega
    rw [hostStep_read_dmem hk ho (by rw [wordOffset]; omega), hostReadDmem_busy _ hb]
  · have ho' : wordOffset a = Reg.status.offset := ho
    refine ⟨visiblePhase s, (hostReadReg .status s).freeCount, fun c hc => visiblePhase_mem hb hc, ?_⟩
    rw [hostStep_read hk, ho', hostRead_register, hostReadReg_frame]
    rfl
  · refine ⟨hostStep_read_register hk ho hr s, ?_, ?_⟩
    · rintro ⟨k, rfl⟩
      rfl
    · rintro hi ⟨k, rfl⟩
      exact readReg_tagOut_running hi hb k

/-! The positions of a command that runs (R121) -/

/-- The core runs c and has the positions ops still to do. -/
structure Running (c : Command) (ops : List SeqOp) (s : State) : Prop where
  busy : s.busy = true
  cur : s.cur = some c
  seq : s.seq = ops

theorem running_issue {i : Instr} {s : State} (hc : check i s = .noError) :
    Running i.command (opsFor i.command s) (issue i s) := by
  rw [issue_accepted hc]
  exact ⟨rfl, rfl, opsFor_cmdLast _ s _⟩

theorem Running.engineSteps {c : Command} {ops : List SeqOp} {s t : State} {k : Nat} (h : Running c ops s)
    (hk : k ≤ ops.length) (ht : Machine.engineSteps k s = .next t) : Running c (ops.drop k) t := by
  induction k generalizing s ops with
  | zero => cases ht; exact h
  | succ k ih =>
    obtain ⟨op, rest, rfl⟩ := List.exists_cons_of_length_pos (Nat.zero_lt_of_lt hk)
    obtain ⟨u, hu, ht⟩ := andThen_eq_next.mp ht
    cases he : opEffect c op s with
    | error a => rw [engineStep_error h.busy h.cur h.seq he] at hu; cases hu
    | ok e =>
      rw [engineStep_ok h.busy h.cur h.seq he] at hu
      cases hu
      have hrest : Running c rest (applyEffect op rest e s) := ⟨h.busy, h.cur, rfl⟩
      exact ih hrest (Nat.le_of_succ_le_succ hk) ht

theorem Running.withHost {c : Command} {ops : List SeqOp} {s : State} (h : Running c ops s) (r : Word) (n : Nat) (b : Bool) :
    Running c ops (withHost r n b s) := ⟨h.busy, h.cur, h.seq⟩

theorem engineSteps_add (m n : Nat) (s : State) :
    engineSteps (m + n) s = andThen (engineSteps m s) (engineSteps n) := by
  induction m generalizing s with
  | zero => rw [Nat.zero_add]; rfl
  | succ m ih =>
    rw [Nat.succ_add, engineSteps, engineSteps, andThen_assoc]
    exact congrArg _ (funext ih)

/-- Once no position is left the next step completes the command (R118). -/
theorem Running.completes {c : Command} {s : State} (h : Running c [] s) :
    Machine.engineSteps 1 s = runToCompletion s := by
  rw [runToCompletion_running h.busy h.cur, h.seq, runOps_nil, Machine.engineSteps, engineStep_done h.busy h.cur h.seq]
  rfl

/-- A command runs to its completion in one step a position and one more (R118, R158). -/
theorem Running.runToCompletion_eq {c : Command} {ops : List SeqOp} {s : State} (h : Running c ops s) :
    runToCompletion s = Machine.engineSteps (ops.length + 1) s := by
  rw [engineSteps_add, ← runToCompletion_engineSteps ops.length]
  cases ht : Machine.engineSteps ops.length s with
  | next t =>
    have hlast := h.engineSteps (Nat.le_refl _) ht
    rw [List.drop_length] at hlast
    exact hlast.completes.symm
  | fault r => rfl
  | refused r => rfl

/-! A command alone (R158) -/

theorem stepN_no_events (k : Nat) {s : State} (h : s.events = []) : stepN k s = engineSteps k s := by
  induction k generalizing s with
  | zero => rfl
  | succ k ih =>
    rw [stepN, engineSteps, step_no_events h]
    cases hu : engineStep s with
    | next u =>
      have hone : engineSteps 1 s = .next u := by rw [engineSteps, hu]; rfl
      exact ih ((engineSteps_events hone).trans h)
    | fault r => rfl
    | refused r => rfl

theorem exec_eq_runToCompletion {i : Instr} {s : State} (hb : s.busy = false) :
    exec i s = runToCompletion (issue i s) := by
  rw [exec_eq, runCommand, if_neg (by simp [hb])]

/-- Settles O37. -/
theorem issuedCommandCompletes : Obligations.IssuedCommandCompletes := by
  intro i s hb hev hc
  have hev' : (issue i s).events = [] := by rw [issue_accepted hc]; exact hev
  rw [stepN_no_events _ hev', ← (running_issue hc).runToCompletion_eq, exec_eq_runToCompletion hb]

/-! A command with host accesses in between (R121) -/

theorem engineSteps_withHost (r : Word) (n : Nat) (b : Bool) (k : Nat) (s : State) :
    engineSteps k (withHost r n b s) = mapNext (withHost r n b) (engineSteps k s) := by
  induction k generalizing s with
  | zero => rfl
  | succ k ih =>
    rw [engineSteps, engineSteps, engineStep_withHost]
    cases engineStep s with
    | next t => exact ih t
    | fault f => rfl
    | refused f => rfl

/-- The sequencer leaves BUSY_ERR alone. -/
theorem engineSteps_busyErr {k : Nat} {s t : State} (h : engineSteps k s = .next t) : t.busyErr = s.busyErr := by
  have hs := engineSteps_withHost s.rdata s.freeCount s.busyErr k s
  have ht : t = withHost s.rdata s.freeCount s.busyErr t := by
    rw [h] at hs
    exact Host.Outcome.next.inj (h.symm.trans hs)
  rw [ht]
  rfl

theorem Running.runToCompletion_withHost {c : Command} {ops : List SeqOp} {s : State} (h : Running c ops s) (r : Word)
    (n : Nat) (b : Bool) :
    runToCompletion (Machine.withHost r n b s) = mapNext (Machine.withHost r n b) (runToCompletion s) := by
  rw [h.runToCompletion_eq, (h.withHost r n b).runToCompletion_eq, engineSteps_withHost]

/-- An access while a command runs changes what the host may change, and BUSY_ERR is set by a write (R120). -/
theorem accessStep_busy {s : State} (hb : s.busy = true) (a : Access) (g : Gap) :
    ∃ r n, accessStep a g s = progress g (withHost r n (s.busyErr || a.kind == .write) s) := by
  cases hk : a.kind with
  | read =>
    obtain ⟨r, n, hread⟩ := hostRead_busy hb (wordOffset a)
    refine ⟨r, n, ?_⟩
    rw [accessStep_read hk, hread, andThen_next, show (AccessKind.read == .write) = false from rfl, Bool.or_false]
  | write =>
    refine ⟨s.rdata, s.freeCount, ?_⟩
    rw [accessStep_busy_write hk hb, show (AccessKind.write == .write) = true from rfl, Bool.or_true]
    rfl

theorem runEvents_access {a : Access} {g : Gap} {s t : State} (h : accessStep a g s = .next t) (es : List Event) :
    runEvents (.access a g :: es) s = runEvents es t :=
  runEvents_cons (e := .access a g) h es

/-- The events of accesses each followed by a number of positions, and of a last one after which the command completes. -/
def accessEvents (between : List (Access × Nat)) (last : Access) : List Event :=
  between.map (fun p => Event.access p.1 (.steps p.2)) ++ [.access last .completes]

/-- Accesses made while a command runs leave the state it ends in, but for what the host may change (R121). -/
theorem Running.runEvents {c : Command} {ops : List SeqOp} {s e : State} (h : Running c ops s)
    (he : runToCompletion s = .next e) {between : List (Access × Nat)} (hsum : (between.map Prod.snd).sum ≤ ops.length)
    (last : Access) : ∃ r n, Machine.runEvents (accessEvents between last) s = .next (Machine.withHost r n
      (s.busyErr || between.any (fun p => p.1.kind == .write) || last.kind == .write) e) := by
  induction between generalizing s e ops with
  | nil =>
    obtain ⟨r, n, hlast⟩ := accessStep_busy h.busy last .completes
    refine ⟨r, n, ?_⟩
    rw [progress, h.runToCompletion_withHost, he, mapNext, andThen_next] at hlast
    rw [List.any_nil, Bool.or_false]
    exact runEvents_access hlast []
  | cons p between ih =>
    obtain ⟨a, k⟩ := p
    rw [List.map_cons, List.sum_cons] at hsum
    obtain ⟨r, n, haccess⟩ := accessStep_busy h.busy a (.steps k)
    obtain ⟨t, ht, hend⟩ := andThen_eq_next.mp ((runToCompletion_engineSteps k s).trans he)
    have ht' := h.engineSteps (by omega) ht
    obtain ⟨r', n', hrest⟩ := ih (ht'.withHost r n (s.busyErr || a.kind == .write))
      (by rw [ht'.runToCompletion_withHost, hend]; rfl) (by rw [List.length_drop]; omega)
    rw [progress, engineSteps_withHost, ht, mapNext, andThen_next] at haccess
    refine ⟨r', n', ?_⟩
    rw [List.any_cons, ← Bool.or_assoc]
    exact (runEvents_access haccess _).trans hrest

/-- Settles O36. -/
theorem interleavedAccessesKeepTheResult : Obligations.InterleavedAccessesKeepTheResult := by
  intro i s e n between last hwf hb hc he hsum
  have hissue : accessStep (commandWrite (encode i)) (.steps n) s = engineSteps n (issue i s) :=
    (accessStep_decoded (isCommandWrite_commandWrite _) hb (decodeEncodeRoundTrip i hwf)).2 n
  rw [exec_eq_runToCompletion hb] at he
  obtain ⟨u, hu, hend⟩ := andThen_eq_next.mp ((runToCompletion_engineSteps n (issue i s)).trans he)
  have hrun := (running_issue hc).engineSteps (by omega) hu
  obtain ⟨r, m, hevents⟩ := hrun.runEvents hend (between := between) (by rw [List.length_drop]; omega) last
  have hbusyErr : u.busyErr = s.busyErr := by
    rw [engineSteps_busyErr hu, issue_accepted hc]
    rfl
  rw [hbusyErr] at hevents
  exact ⟨_, (runEvents_access (hissue.trans hu) _).trans hevents, rfl⟩

end Sys2Proof.Machine
end

section
/-! Settling O8 and O9: the checks of a command, with their conditions and their order (60_exceptions.md R126 to R133), and
what a rejection writes (R134). -/

namespace Sys2Proof.Machine

/-! The length checks (R128 to R130) -/

theorem lengthCheck_encInstr (v : DuplexVariant) (k n t : Nat) : lengthCheck (encInstr v k n t) = checkLengths v k n t := by
  cases v <;> rfl

theorem lengthCheck_decInstr (v : DuplexVariant) (k n t : Nat) : lengthCheck (decInstr v k n t) = checkLengths v k n t := by
  cases v <;> rfl

theorem lengthCheck_digestInstr (v : SpongeVariant) : lengthCheck (digestInstr v) = .noError := by cases v <;> rfl

/-- A check that comes after the three lengths, whatever it is. -/
theorem checkLengths_then (v : DuplexVariant) (k n t : Nat) (rest : ErrCode) :
    (if checkLengths v k n t ≠ .noError then checkLengths v k n t else rest) =
      if k ≠ (if v = .aead80pq then 20 else 16) then .keyLen
      else if n ≠ 16 then .nonceLen
      else if t ≠ 16 then .tagLen
      else rest := by
  rw [checkLengths, keyLen_eq, nonceBytes, tagBytes]
  generalize (if v = .aead80pq then 20 else 16) = keyLen
  by_cases hk : k = keyLen
  · by_cases hn : n = 16
    · by_cases ht : t = 16 <;> simp [hk, hn, ht]
    · simp [hk, hn]
  · simp [hk]

/-! The regions (R131 to R133) -/

theorem duplex_regionsInRange_iff {c : Command} {s : State} (hc : overlapChecked c = true) :
    regionsInRange c s = true ↔ fits s s.aAddr.toNat s.aLen.toNat ∧ fits s s.mAddr.toNat s.mLen.toNat ∧
      fits s s.dAddr.toNat s.mLen.toNat := by
  cases c with
  | digest | wipe => cases hc
  | enc | dec => simp [regionsInRange, regions, outputRegion, inRange_eq_true, aRegion, mRegion]

theorem cxof_regionsInRange_iff {s : State} :
    regionsInRange (.digest .cxof) s = true ↔ fits s s.aAddr.toNat s.aLen.toNat ∧ fits s s.mAddr.toNat s.mLen.toNat ∧
      fits s s.dAddr.toNat s.outLen.toNat := by
  simp [regionsInRange, regions, outputRegion, digestLen, inRange_eq_true, aRegion, mRegion]

theorem digest_regionsInRange_iff {v : SpongeVariant} {s : State} (hv : v ≠ .cxof) :
    regionsInRange (.digest v) s = true ↔ fits s s.mAddr.toNat s.mLen.toNat ∧ fits s s.dAddr.toNat (digestLen v s) := by
  cases v with
  | cxof => exact absurd rfl hv
  | _ => simp [regionsInRange, regions, outputRegion, inRange_eq_true, mRegion]

theorem overlaps_iff {s : State} : overlaps s = true ↔
    0 < s.mLen.toNat ∧ s.mAddr.toNat < s.dAddr.toNat ∧ s.dAddr.toNat < s.mAddr.toNat + s.mLen.toNat := by
  simp [overlaps, and_assoc]

/-! The checks in their order (R126) -/

/-- ENC and DEC: the lengths, then the regions, then the overlap. -/
theorem check_of_duplex {v : DuplexVariant} {k n t : Nat} {i : Instr} (hlen : lengthCheck i = checkLengths v k n t)
    (hc : overlapChecked i.command = true) (s : State) :
    check i s =
      if k ≠ (if v = .aead80pq then 20 else 16) then .keyLen
      else if n ≠ 16 then .nonceLen
      else if t ≠ 16 then .tagLen
      else if ¬(fits s s.aAddr.toNat s.aLen.toNat ∧ fits s s.mAddr.toNat s.mLen.toNat ∧
          fits s s.dAddr.toNat s.mLen.toNat) then .range
      else if 0 < s.mLen.toNat ∧ s.mAddr.toNat < s.dAddr.toNat ∧ s.dAddr.toNat < s.mAddr.toNat + s.mLen.toNat then
        .overlap
      else .noError := by
  rw [check, hlen, hc, Bool.true_and, checkLengths_then]
  simp only [← duplex_regionsInRange_iff hc, ← overlaps_iff, Bool.not_eq_true]

/-- A DIGEST command: the regions alone. -/
theorem check_digestInstr_eq (v : SpongeVariant) (s : State) :
    check (digestInstr v) s = if regionsInRange (.digest v) s = true then .noError else .range := by
  rw [check, lengthCheck_digestInstr, digestInstr_command]
  cases regionsInRange (.digest v) s <;> rfl

theorem check_digestInstr_of_not_cxof {v : SpongeVariant} (hv : v ≠ .cxof) (s : State) :
    check (digestInstr v) s =
      if fits s s.mAddr.toNat s.mLen.toNat ∧ fits s s.dAddr.toNat (digestLen v s) then .noError else .range := by
  simp only [check_digestInstr_eq, digest_regionsInRange_iff hv]

/-! The word of no command (R127) -/

theorem accessStep_illegal {w : Word} {e : DecodeError} {s : State} (hb : s.busy = false) (hd : decode w = .error e)
    (g : Gap) : accessStep (commandWrite w) g s = .next (issueIllegal w s) :=
  (accessStep_command (isCommandWrite_commandWrite w) hb g).trans (commandAccess_error hd g s)

/-- Settles O9: ILLEGAL_CMD comes first because the checks take a decoded command. -/
theorem checkOrder : Obligations.CheckOrder := by
  refine ⟨fun w e s hb hd => ⟨issueIllegal w s, accessStep_illegal hb hd _, rfl⟩, ?_,
    check_digestInstr_of_not_cxof (v := .hash) nofun, check_digestInstr_of_not_cxof (v := .hasha) nofun,
    check_digestInstr_of_not_cxof (v := .xof) nofun, check_digestInstr_of_not_cxof (v := .xofa) nofun, fun s => ?_,
    check_wipe⟩
  · rintro v k n t i s (rfl | rfl)
    · exact check_of_duplex (lengthCheck_encInstr v k n t) (by rw [encInstr_command]; rfl) s
    · exact check_of_duplex (lengthCheck_decInstr v k n t) (by rw [decInstr_command]; rfl) s
  · simp only [← cxof_regionsInRange_iff]
    exact check_digestInstr_eq .cxof s

/-! Rejection (R134) -/

theorem ErrCode.code_pos {e : ErrCode} (h : e ≠ .noError) : 1 ≤ e.code := by
  cases e with
  | noError => exact absurd rfl h
  | _ => decide

/-- Settles O8. -/
theorem rejectionEffect : Obligations.RejectionEffect := by
  refine ⟨fun i s hb hc => ⟨ErrCode.code_pos hc, (check i s).code_le, ?_⟩,
    fun w e g s hb hd => accessStep_illegal hb hd g⟩
  exact (exec_eq i s).trans (runCommand_rejected hb hc)

end Sys2Proof.Machine
end

section
/-! Settling O39: reset and power-on (70_reset_and_hazards.md R147 to R149, 10_state.md R36). -/

namespace Sys2Proof.Machine

/-- A reset leaves the DMEM that `abortedDmem` gives, and every register at its reset value (R147, R149). -/
theorem assertReset_ok {landed : Nat} {s : State} {d : Memory} (h : abortedDmem landed s = .ok d) :
    assertReset landed s = .next (afterReset d s) := by
  rw [assertReset, h]
  rfl

theorem assertReset_next {landed : Nat} {s t : State} (h : assertReset landed s = .next t) : t = afterReset t.dmem s := by
  rcases assertReset_cases landed s with ⟨d, -, he⟩ | ⟨a, -, he⟩ <;> cases he.symm.trans h
  rfl

theorem statusWord_afterReset (d : Memory) (s : State) : statusWord (afterReset d s) (afterReset d s).phase = 0 := rfl

/-- Settles O39: a reset stops only where `abortedDmem` does, and else every field but DMEM is known. -/
theorem resetAndPowerOn : Obligations.ResetAndPowerOn := by
  refine ⟨fun s landed hb => assertReset_ok (abortedDmem_idle landed hb), fun s => assertReset_ok (abortedDmem_zero s),
    fun s landed => ?_, fun s t landed h => ?_, fun s => ⟨powerOn s, rfl, rfl, byteAt_nil⟩⟩
  · cases hd : abortedDmem landed s with
    | ok d => exact .inl ⟨_, assertReset_ok hd⟩
    | error e =>
      obtain ⟨hbusy, hlanded, hunwritten⟩ := abortedDmem_error hd
      exact .inr ⟨hbusy, hlanded, e, by rw [applyEvent, assertReset, hd], hunwritten⟩
  · obtain ⟨d, rfl⟩ : ∃ d, t = afterReset d s := ⟨t.dmem, assertReset_next h⟩
    exact ⟨rfl, engineStep_idle rfl, rfl, rfl, rfl, statusWord_afterReset d s, rfl, rfl, rfl, rfl, rfl, rfl, rfl, rfl,
      rfl, rfl, rfl, rfl, rfl, rfl, rfl, rfl⟩

end Sys2Proof.Machine
end

section
/-! Settling O40: the DMEM that an aborted command leaves (70_reset_and_hazards.md R149). The positions of a command write
its output region front to back, without a gap (20_memory.md R51), so what is written at any moment of the command is a
beginning of that region, and no later position writes there again. -/

namespace Sys2Proof.Machine

/-! Regions that tile an interval -/

/-- The regions that are not empty follow one another without a gap from a to b. -/
def Tiles : List Region → Nat → Nat → Prop
  | [], a, b => a = b
  | r :: rs, a, b => (r.2 = 0 ∨ r.1 = a) ∧ Tiles rs (a + r.2) b

theorem Tiles.le {rs : List Region} {a b : Nat} (h : Tiles rs a b) : a ≤ b := by
  induction rs generalizing a with
  | nil => exact Nat.le_of_eq h
  | cons r rs ih => exact Nat.le_trans (Nat.le_add_right a r.2) (ih h.2)

theorem Tiles.append {rs rs' : List Region} {a m b : Nat} (h : Tiles rs a m) (h' : Tiles rs' m b) :
    Tiles (rs ++ rs') a b := by
  induction rs generalizing a with
  | nil => cases h; exact h'
  | cons r rs ih => exact ⟨h.1, ih h.2⟩

theorem tiles_of_empty {rs : List Region} (h : ∀ r ∈ rs, r.2 = 0) (a : Nat) : Tiles rs a a := by
  induction rs with
  | nil => rfl
  | cons r rs ih =>
    obtain ⟨hr, hrs⟩ := List.forall_mem_cons.mp h
    refine ⟨.inl hr, ?_⟩
    rw [hr]
    exact ih hrs

/-- The j-th block of a region that is cut into blocks of r bytes, empty past its end. -/
def blockRegion (reg : Region) (r j : Nat) : Region := (reg.1 + j * r, min r (reg.2 - j * r))

theorem tiles_blocks (reg : Region) (r n : Nat) :
    Tiles ((List.range n).map (blockRegion reg r)) reg.1 (reg.1 + min (n * r) reg.2) := by
  induction n with
  | zero => simp [Tiles]
  | succ n ih =>
    rw [List.range_succ, List.map_append]
    have hlast : Tiles [blockRegion reg r n] (reg.1 + min (n * r) reg.2) (reg.1 + min ((n + 1) * r) reg.2) := by
      simp only [Tiles, blockRegion, Nat.succ_mul]
      omega
    exact ih.append hlast

/-- Enough blocks are the whole region. -/
theorem tiles_region {reg : Region} {r n : Nat} (h : reg.2 ≤ n * r) :
    Tiles ((List.range n).map (blockRegion reg r)) reg.1 (reg.1 + reg.2) := by
  have ht := tiles_blocks reg r n
  rwa [Nat.min_eq_right h] at ht

/-! The regions a command writes tile its output region (20_memory.md R51) -/

theorem tiles_of_writes_nothing {c : Command} {ops : List SeqOp} {s : State}
    (h : ∀ op ∈ ops, writtenRegion c op s = (0, 0)) (a : Nat) : Tiles (ops.map (writtenRegion c · s)) a a :=
  tiles_of_empty (List.forall_mem_map.mpr fun op hop => congrArg Prod.snd (h op hop)) a

theorem le_blockCount {r : Nat} (hr : 0 < r) (n : Nat) : n ≤ blockCount r n * r := by
  rw [blockCount, Nat.mul_comm]
  exact Nat.le_of_lt (Nat.lt_mul_div_succ n hr)

/-- The pass of a duplex command that writes: ENC's, and DEC's second (42_duplex.md R108, R109). -/
theorem tiles_duplexPass {c : Command} {p : Pass} {v : DuplexVariant} (hc : c = .enc v ∨ c = .dec v ∧ p = .second)
    (s : State) : Tiles ((duplexPass p v s).map (writtenRegion c · s)) s.dAddr.toNat (s.dAddr.toNat + s.mLen.toNat) := by
  have hinit : writtenRegion c (.dxInit p) s = (0, 0) := by rcases hc with rfl | ⟨rfl, -⟩ <;> rfl
  have had (j : Nat) : writtenRegion c (.dxAd p j) s = (0, 0) := by rcases hc with rfl | ⟨rfl, -⟩ <;> rfl
  have hsep : writtenRegion c (.dxSeparate p) s = (0, 0) := by rcases hc with rfl | ⟨rfl, -⟩ <;> rfl
  have htext : (writtenRegion c · s) ∘ SeqOp.dxText p = blockRegion (s.dAddr.toNat, s.mLen.toNat) (duplexConfig v).rate :=
    funext fun j => by rcases hc with rfl | ⟨rfl, rfl⟩ <;> rfl
  rw [duplexPass, List.map_append, List.map_map, htext]
  refine (tiles_of_writes_nothing (fun op hop => ?_) _).append (tiles_region (le_blockCount (duplexRate_pos v) _))
  simp only [List.mem_append, List.mem_singleton] at hop
  rcases hop with (rfl | hop) | rfl
  · exact hinit
  · split at hop
    · cases hop
    · obtain ⟨j, -, rfl⟩ := List.mem_map.mp hop
      exact had j
  · exact hsep

theorem tiles_digestSequence (v : SpongeVariant) (s : State) :
    Tiles ((digestSequence v s).map (writtenRegion (.digest v) · s)) s.dAddr.toNat (s.dAddr.toNat + digestLen v s) := by
  have hsqueeze : (writtenRegion (.digest v) · s) ∘ SeqOp.spSqueeze = blockRegion (s.dAddr.toNat, digestLen v s) 8 := rfl
  rw [digestSequence, List.map_append, List.map_map, hsqueeze, spongeRate]
  refine (tiles_of_writes_nothing (fun op hop => ?_) _).append (tiles_region (le_squeezeReads _))
  simp only [List.mem_append, List.mem_singleton] at hop
  rcases hop with (rfl | hop) | hop
  · rfl
  · split at hop
    · rcases List.mem_cons.mp hop with rfl | hop
      · rfl
      · obtain ⟨j, -, rfl⟩ := List.mem_map.mp hop
        rfl
    · cases hop
  · obtain ⟨j, -, rfl⟩ := List.mem_map.mp hop
    rfl

theorem tiles_opsFor (c : Command) (s : State) : Tiles ((opsFor c s).map (writtenRegion c · s)) (outputRegion c s).1
    ((outputRegion c s).1 + (outputRegion c s).2) := by
  cases c with
  | digest v => exact tiles_digestSequence v s
  | enc v =>
    rw [opsFor, List.map_append]
    have hfinal : ∀ op ∈ [SeqOp.dxFinal], writtenRegion (.enc v) op s = (0, 0) := List.forall_mem_singleton.mpr rfl
    exact (tiles_duplexPass (.inl rfl) s).append (tiles_of_writes_nothing hfinal _)
  | dec v =>
    have hfirst : ∀ op ∈ duplexPass .first v s ++ [.dxFinal], writtenRegion (.dec v) op s = (0, 0) := by
      refine fun op hop => writtenRegion_dec_empty ?_ s
      rintro ⟨j, rfl⟩
      exact secondText_not_mem_firstPass v s j hop
    rw [opsFor, List.map_append]
    exact (tiles_of_writes_nothing hfirst _).append (tiles_duplexPass (.inr ⟨rfl, rfl⟩) s)
  | wipe => exact ⟨.inr rfl, rfl⟩

section
variable {c : Command} {op : SeqOp} {rest : List SeqOp} {u : State} {e : OpEffect} {a b : Nat}

/-- A position writes at the front of what is still to be written. -/
theorem tiles_position (h : Tiles ((op :: rest).map (writtenRegion c · u)) a b) (he : opEffect c op u = .ok e) :
    (e.bytes = [] ∨ e.addr = a) ∧
      Tiles (rest.map (writtenRegion c · (applyEffect op rest e u))) (a + e.bytes.length) b := by
  have hkeep : (writtenRegion c · (applyEffect op rest e u)) = (writtenRegion c · u) :=
    funext (writtenRegion_congr rfl rfl rfl rfl)
  have hregion := opEffect_region he
  rw [List.map_cons, ← hregion] at h
  rw [hkeep]
  exact ⟨h.1.imp_left List.length_eq_zero_iff.mp, h.2⟩

/-- The positions still to be done leave what is before the front (20_memory.md R51). -/
theorem runOps_byteAt_before {t : State} (ht : Tiles (rest.map (writtenRegion c · u)) a b) (h : runOps c rest u = .next t)
    {x : Nat} (hx : x < a) : Memory.byteAt t.dmem x = Memory.byteAt u.dmem x := by
  induction rest generalizing u a with
  | nil => cases h; rfl
  | cons op rest ih =>
    cases he : opEffect c op u with
    | error y => rw [runOps_cons_error he] at h; cases h
    | ok e =>
      rw [runOps_cons_ok he] at h
      obtain ⟨hat, hrest⟩ := tiles_position ht he
      rw [ih hrest h (by omega), applyEffect_dmem]
      rcases hat with hnil | haddr
      · rw [hnil, byteAt_writeBytes_nil]
      · exact byteAt_writeBytes_outside (.inl (by omega))

end

/-! A memory that holds the beginning of the output -/

/-- d is d0 with the k bytes from lo on as d1 has them. -/
def HoldsPrefix (lo k : Nat) (d0 d1 d : Memory) : Prop :=
  ∀ a, Memory.byteAt d a = if lo ≤ a ∧ a < lo + k then Memory.byteAt d1 a else Memory.byteAt d0 a

theorem HoldsPrefix.none (lo : Nat) (d0 d1 : Memory) : HoldsPrefix lo 0 d0 d1 d0 := fun a => by
  rw [if_neg (by omega)]

/-- A write of any beginning of the bytes that come next leaves k larger by their number. -/
theorem HoldsPrefix.write {lo k : Nat} {d0 d1 d : Memory} (h : HoldsPrefix lo k d0 d1 d) {addr : Nat} {v : Bytes}
    (hat : v = [] ∨ addr = lo + k)
    (hfinal : ∀ x < lo + k + v.length, Memory.byteAt d1 x = Memory.byteAt (Memory.writeBytes d addr v) x) (n : Nat) :
    HoldsPrefix lo (k + min n v.length) d0 d1 (Memory.writeBytes d addr (v.take n)) := by
  intro a
  rcases hat with rfl | rfl
  · simpa using h a
  · have hnew : ∀ j < min n v.length,
        Memory.byteAt (Memory.writeBytes d (lo + k) (v.take n)) (lo + k + j) = Memory.byteAt d1 (lo + k + j) := by
      intro j hj
      have hj' : j < (v.take n).length := by rwa [List.length_take]
      rw [hfinal _ (by omega), byteAt_writeBytes_inside hj', byteAt_writeBytes_inside (by omega),
        List.getElem?_take_of_lt (by omega)]
    by_cases ha : lo + k ≤ a ∧ a < lo + k + min n v.length
    · obtain ⟨j, rfl⟩ := Nat.exists_eq_add_of_le ha.1
      rw [hnew j (by omega), if_pos (by omega)]
    · rw [byteAt_writeBytes_outside (by rw [List.length_take]; omega), h a]
      exact if_congr (by omega) rfl rfl

/-- d is d0 with a beginning of the region as d1 has it. -/
def OutputPrefix (reg : Region) (d0 d1 d : Memory) : Prop := ∃ k, k ≤ reg.2 ∧ HoldsPrefix reg.1 k d0 d1 d

/-! A command on its way -/

/-- The core at u runs c, which is to leave the DMEM d1. What it has written since the DMEM was d0 is the first k bytes of
the region, and the rest of the region is still to be written. -/
structure WritingOutput (c : Command) (reg : Region) (d0 d1 : Memory) (u : State) : Prop where
  busy : u.busy = true
  cur : u.cur = some c
  result : ∃ t, runOps c u.seq u = .next t ∧ t.dmem = d1
  written : ∃ k, Tiles (u.seq.map (writtenRegion c · u)) (reg.1 + k) (reg.1 + reg.2) ∧ HoldsPrefix reg.1 k d0 d1 u.dmem

section
variable {c : Command} {reg : Region} {d0 d1 : Memory} {u : State} {op : SeqOp} {rest : List SeqOp}

theorem WritingOutput.outputPrefix (h : WritingOutput c reg d0 d1 u) : OutputPrefix reg d0 d1 u.dmem := by
  obtain ⟨k, htiles, hprefix⟩ := h.written
  exact ⟨k, Nat.le_of_add_le_add_left htiles.le, hprefix⟩

/-- A position does not stop, the command is still on its way after it, and whatever number of its bytes has landed, a beginning
is written. -/
theorem WritingOutput.position (h : WritingOutput c reg d0 d1 u) (hseq : u.seq = op :: rest) :
    ∃ e, opEffect c op u = .ok e ∧ WritingOutput c reg d0 d1 (applyEffect op rest e u) ∧
      ∀ n, OutputPrefix reg d0 d1 (Memory.writeBytes u.dmem e.addr (e.bytes.take n)) := by
  obtain ⟨t, hrun, rfl⟩ := h.result
  obtain ⟨k, htiles, hprefix⟩ := h.written
  rw [hseq] at hrun htiles
  cases he : opEffect c op u with
  | error a => rw [runOps_cons_error he] at hrun; cases hrun
  | ok e =>
    rw [runOps_cons_ok he] at hrun
    obtain ⟨hat, hrest⟩ := tiles_position htiles he
    have hlanded := hprefix.write hat fun x hx => runOps_byteAt_before hrest hrun hx
    have hall := hlanded e.bytes.length
    rw [List.take_length, Nat.min_self] at hall
    have hle := hrest.le
    rw [Nat.add_assoc] at hrest
    exact ⟨e, rfl, ⟨h.busy, h.cur, ⟨t, hrun, rfl⟩, _, hrest, hall⟩, fun n => ⟨_, by omega, hlanded n⟩⟩

/-- A step of the sequencer stays on the way, or completes the command with a beginning written. -/
theorem WritingOutput.engineStep (h : WritingOutput c reg d0 d1 u) : ∃ t, Machine.engineStep u = .next t ∧
    (WritingOutput c reg d0 d1 t ∨ (t.busy = false ∧ OutputPrefix reg d0 d1 t.dmem)) := by
  cases hseq : u.seq with
  | nil => exact ⟨_, engineStep_done h.busy h.cur hseq, .inr ⟨rfl, h.outputPrefix⟩⟩
  | cons op rest =>
    obtain ⟨e, he, hnext, -⟩ := h.position hseq
    exact ⟨_, engineStep_ok h.busy h.cur hseq he, .inl hnext⟩

theorem WritingOutput.engineSteps (h : WritingOutput c reg d0 d1 u) (n : Nat) : ∃ t, Machine.engineSteps n u = .next t ∧
    (WritingOutput c reg d0 d1 t ∨ (t.busy = false ∧ OutputPrefix reg d0 d1 t.dmem)) := by
  induction n generalizing u with
  | zero => exact ⟨u, rfl, .inl h⟩
  | succ n ih =>
    obtain ⟨t, ht, hnext⟩ := h.engineStep
    rw [Machine.engineSteps, ht, andThen_next]
    rcases hnext with hnext | hidle
    · exact ih hnext
    · exact ⟨t, engineSteps_idle hidle.1 n, .inr hidle⟩

/-- A reset on the way leaves a beginning, however many bytes of the write in progress have landed (R149). -/
theorem WritingOutput.abortedDmem (h : WritingOutput c reg d0 d1 u) (landed : Nat) :
    ∃ d, Machine.abortedDmem landed u = .ok d ∧ OutputPrefix reg d0 d1 d := by
  cases landed with
  | zero => exact ⟨u.dmem, abortedDmem_zero u, h.outputPrefix⟩
  | succ n =>
    cases hseq : u.seq with
    | nil => exact ⟨u.dmem, by simp [Machine.abortedDmem, hseq], h.outputPrefix⟩
    | cons op rest =>
      obtain ⟨e, he, -, hprefix⟩ := h.position hseq
      exact ⟨_, by simp only [Machine.abortedDmem, h.busy, h.cur, hseq, he], hprefix (n + 1)⟩

end

/-- An accepted command that is to end is on its way with nothing written. -/
theorem writingOutput_issue {i : Instr} {s e : State} (hb : s.busy = false) (hc : check i s = .noError)
    (h : exec i s = .next e) :
    WritingOutput i.command (outputRegion i.command s) s.dmem e.dmem (issue i s) := by
  rcases exec_next_cases hb h with ⟨hne, -⟩ | ⟨-, t, hrun, rfl⟩
  · exact absurd hc hne
  · have htiles := tiles_opsFor i.command (accept i.command { s with cmdLast := encode i })
    rw [outputRegion_accept, opsFor_accept] at htiles
    rw [issue_accepted hc]
    refine ⟨rfl, rfl, ⟨t, ?_, rfl⟩, 0, ?_, HoldsPrefix.none _ _ _⟩ <;> rw [accept_seq, opsFor_cmdLast]
    · exact hrun
    · exact htiles

/-! What outlives a reset -/

theorem engineStep_afterReset {s t : State} (h : engineStep s = .next t) (d : Memory) : afterReset d t = afterReset d s := by
  unfold engineStep at h
  split at h
  · split at h
    · cases h; rfl
    · split at h <;> cases h
      rfl
  · cases h; rfl

/-- The sequencer changes no field that outlives a reset. -/
theorem engineSteps_afterReset {n : Nat} {s t : State} (h : engineSteps n s = .next t) (d : Memory) :
    afterReset d t = afterReset d s := by
  induction n generalizing s with
  | zero => cases h; rfl
  | succ n ih =>
    obtain ⟨u, hu, ht⟩ := andThen_eq_next.mp h
    exact (ih ht).trans (engineStep_afterReset hu d)

theorem issue_afterReset {i : Instr} {s : State} (hc : check i s = .noError) (d : Memory) :
    afterReset d (issue i s) = afterReset d s := by
  rw [issue_accepted hc]
  rfl

/-- Settles O40: the n positions and the reset leave a beginning written, and the reset clears what the command changed. -/
theorem abortLeavesAnOutputPrefix : Obligations.AbortLeavesAnOutputPrefix := by
  intro i s e n landed hb hc hexec
  obtain ⟨t, ht, hstate⟩ := (writingOutput_issue hb hc hexec).engineSteps n
  obtain ⟨d, hd, k, hk, hprefix⟩ : ∃ d, abortedDmem landed t = .ok d ∧
      OutputPrefix (outputRegion i.command s) s.dmem e.dmem d := by
    rcases hstate with hrunning | ⟨hidle, hprefix⟩
    · exact hrunning.abortedDmem landed
    · exact ⟨t.dmem, abortedDmem_idle landed hidle, hprefix⟩
  have hkept : afterReset d t = afterReset d s := (engineSteps_afterReset ht d).trans (issue_afterReset hc d)
  refine ⟨afterReset d s, k, ?_, rfl, hk, hprefix⟩
  rw [ht, andThen_next, ← hkept]
  exact assertReset_ok hd

end Sys2Proof.Machine
end
